-- ==== Sys2Proof/Word.lean ====
section
/-! DEFINITION. The word types of the block: 32-bit bank and command words, 16-bit identifiers and
arguments, bytes, and names (00_scope.md R7, R8; 43_requests.md R133). -/

namespace Sys2Proof

/-- A 32-bit bank register, command word or packed config word; bit 0 is the least significant (R7, R8). -/
abbrev Word := BitVec 32

/-- A 16-bit group, function or pin id, a parameter tag, or a parameter argument (R7, R81, R85). -/
abbrev Half := BitVec 16

/-- One byte: the unit in which bank storage is listed (assumption log 6), and the width of OP, AUX and RSP.status. -/
abbrev Byte := BitVec 8

/-- A group or function name; two names are equal when the whole strings are (R133, D12; assumption log 17). -/
abbrev Name := String

end Sys2Proof
end

