-- ==== Sys2Proof/Syntax.lean ====
section
/-! DEFINITION. The commands of the block as syntax: one constructor for each row of the opcode map
(30_encoding.md R83), and the command tuple they travel in (R80). -/

namespace Sys2Proof

/-- An unpacked config word: a parameter tag and its 16-bit argument (R85). -/
structure ConfWord where
  tag : Half
  arg : Half
deriving DecidableEq, Repr, Inhabited

/-- A command as delivered: CMD, the ARG words and the NAMEARG names (R29, R80). -/
structure Command where
  cmd   : Word
  args  : List Word
  names : List Name
deriving DecidableEq, Repr, Inhabited

/-- The twenty commands, in the order of the opcode map (R83). Operands: a group, function or pin id
is IDX; `setMux` carries the function id first, as the document's `set_mux(function_id, group_id)` does;
`confGet` keeps the ignored argument half of its packed word (R82, D9). -/
inductive Instr where
  | init
  | clearParked
  | groupCount
  | groupName (g : Half)
  | groupPins (g : Half)
  | functionCount
  | functionName (f : Half)
  | functionGroups (f : Half)
  | setMux (f g : Half)
  | confGet (g : Half) (param : ConfWord)
  | confSet (g : Half) (entries : List ConfWord)
  | dumpGroup (g : Half)
  | applyMuxNamed (group : Name) (function : Option Name)
  | applyConfNamed (group : Name) (entries : List ConfWord)
  | saveConfig (p : Half)
  | restoreConfig (p : Half)
  | gpioRequestEnable (p : Half)
  | gpioDisableFree (p : Half)
  | suspend
  | resume
deriving DecidableEq, Repr

end Sys2Proof
end

