-- ==== Sys2Proof/WellFormed.lean ====
section
/-! DEFINITION. Which instruction terms have an encoding: a list has at most 255 entries, the range of
AUX (30_encoding.md R82, D16), and DUMP_GROUP exists only when `HAS_DUMP_GROUP` is true (R83, D20). -/

namespace Sys2Proof

/-- The term has an encoding on a chip with the given `HAS_DUMP_GROUP` (R82, R83). -/
def Instr.wellFormed (hasDump : Bool) : Instr → Bool
  | .init => true
  | .clearParked => true
  | .groupCount => true
  | .groupName _ => true
  | .groupPins _ => true
  | .functionCount => true
  | .functionName _ => true
  | .functionGroups _ => true
  | .setMux _ _ => true
  | .confGet _ _ => true
  | .confSet _ entries => decide (entries.length ≤ 255)
  | .dumpGroup _ => hasDump
  | .applyMuxNamed _ _ => true
  | .applyConfNamed _ entries => decide (entries.length ≤ 255)
  | .saveConfig _ => true
  | .restoreConfig _ => true
  | .gpioRequestEnable _ => true
  | .gpioDisableFree _ => true
  | .suspend => true
  | .resume => true

end Sys2Proof
end

