-- ==== Sys2Proof/Decode.lean ====
section
/-! DEFINITION. The command encoding of 30_encoding.md: opcodes and formats (R81 to R83, R89), the packed
config word (R85), the total decoder (R88, R90), which rejects by name, and the encoder (R91). -/

namespace Sys2Proof

/-- The opcodes by name (R83). -/
inductive Op where
  | init | clearParked
  | groupCount | groupName | groupPins | functionCount | functionName | functionGroups
  | setMux | confGet | confSet | dumpGroup | applyMuxNamed | applyConfNamed
  | saveConfig | restoreConfig | gpioRequestEnable | gpioDisableFree
  | suspend | resume
deriving DecidableEq, Repr

/-- The five command formats: no operand, index, index and argument, index and list, named (R82). -/
inductive Format where
  | n | i | ia | il | nm
deriving DecidableEq, Repr

/-- Why a command is illegal (R88): (a) `reservedOpcode`; (b) `auxNotZero`, `idxNotZero`,
`argHighNotZero`; (c) `wrongArgCount`; (d) `wrongNameCount`; (e) `auxTooLarge`. -/
inductive DecodeError where
  | reservedOpcode
  | auxNotZero
  | idxNotZero
  | argHighNotZero
  | wrongArgCount
  | wrongNameCount
  | auxTooLarge
deriving DecidableEq, Repr

/-- The opcode map: OP, CMD[31:24] (R83). -/
def Op.code : Op → Byte
  | .init => 0x01#8
  | .clearParked => 0x02#8
  | .groupCount => 0x10#8
  | .groupName => 0x11#8
  | .groupPins => 0x12#8
  | .functionCount => 0x13#8
  | .functionName => 0x14#8
  | .functionGroups => 0x15#8
  | .setMux => 0x20#8
  | .confGet => 0x21#8
  | .confSet => 0x22#8
  | .dumpGroup => 0x23#8
  | .applyMuxNamed => 0x28#8
  | .applyConfNamed => 0x29#8
  | .saveConfig => 0x30#8
  | .restoreConfig => 0x31#8
  | .gpioRequestEnable => 0x32#8
  | .gpioDisableFree => 0x33#8
  | .suspend => 0x40#8
  | .resume => 0x41#8

/-- FORMAT(op) (R82, R83). -/
def Op.format : Op → Format
  | .init | .clearParked | .groupCount | .functionCount | .suspend | .resume => .n
  | .groupName | .groupPins | .functionName | .functionGroups | .dumpGroup
  | .saveConfig | .restoreConfig | .gpioRequestEnable | .gpioDisableFree => .i
  | .setMux | .confGet => .ia
  | .confSet => .il
  | .applyMuxNamed | .applyConfNamed => .nm

/-- Every opcode, in the order of the map (R83). -/
def Op.all : List Op :=
  [.init, .clearParked, .groupCount, .groupName, .groupPins, .functionCount, .functionName,
   .functionGroups, .setMux, .confGet, .confSet, .dumpGroup, .applyMuxNamed, .applyConfNamed,
   .saveConfig, .restoreConfig, .gpioRequestEnable, .gpioDisableFree, .suspend, .resume]

/-- The opcode exists on a chip with the given `HAS_DUMP_GROUP`: only 0x23 depends on it (R83, D20). -/
def Op.available (hasDump : Bool) (op : Op) : Bool := hasDump || decide (op ≠ .dumpGroup)

/-- The command an OP value names; `none` for a reserved value (R83, R88 a). -/
def Op.ofCode (hasDump : Bool) (b : Byte) : Option Op :=
  Op.all.find? fun op => op.code == b && op.available hasDump

/-- How many ARG words a command has, from OP and AUX alone (R89). -/
def Op.argCount (op : Op) (aux : Byte) : Nat :=
  match op with
  | .setMux | .confGet => 1
  | .confSet | .applyConfNamed => aux.toNat
  | _ => 0

/-- How many NAMEARG entries a command has, from OP and AUX (R89). -/
def Op.nameCount (op : Op) (aux : Byte) : Nat :=
  match op with
  | .applyMuxNamed => 1 + aux.toNat
  | .applyConfNamed => 1
  | _ => 0

/-- CMD[31:24] (R81). -/
def opField (w : Word) : Byte := w.extractLsb' 24 8

/-- CMD[23:16] (R81). -/
def auxField (w : Word) : Byte := w.extractLsb' 16 8

/-- CMD[15:0] (R81). -/
def idxField (w : Word) : Half := w.extractLsb' 0 16

/-- CMD = (OP << 24) | (AUX << 16) | IDX (R81, R91). -/
def cmdWord (op : Op) (aux : Byte) (idx : Half) : Word := op.code ++ aux ++ idx

/-- PACK(tag, arg) = (tag << 16) | arg (R85). -/
def pack (tag arg : Half) : Word := tag ++ arg

/-- UNPACK(w) = (w[31:16], w[15:0]) (R85). -/
def unpack (w : Word) : ConfWord := ⟨w.extractLsb' 16 16, w.extractLsb' 0 16⟩

/-- PACK of a (tag, argument) pair (R85). -/
def ConfWord.packed (c : ConfWord) : Word := pack c.tag c.arg

/-- Format N: AUX, IDX, ARG and NAMEARG are empty (R82, R90). -/
def decodeN (i : Instr) (c : Command) : Except DecodeError Instr :=
  if auxField c.cmd ≠ 0 then .error .auxNotZero
  else if idxField c.cmd ≠ 0 then .error .idxNotZero
  else if c.args ≠ [] then .error .wrongArgCount
  else if c.names ≠ [] then .error .wrongNameCount
  else .ok i

/-- Format I: an index alone (R82, R90). -/
def decodeI (mk : Half → Instr) (c : Command) : Except DecodeError Instr :=
  if auxField c.cmd ≠ 0 then .error .auxNotZero
  else if c.args ≠ [] then .error .wrongArgCount
  else if c.names ≠ [] then .error .wrongNameCount
  else .ok (mk (idxField c.cmd))

/-- Format IA: an index and exactly one ARG word (R82, R90). -/
def decodeIA (mk : Half → Word → Except DecodeError Instr) (c : Command) : Except DecodeError Instr :=
  if auxField c.cmd ≠ 0 then .error .auxNotZero
  else match c.args with
    | [w] => if c.names ≠ [] then .error .wrongNameCount else mk (idxField c.cmd) w
    | _ => .error .wrongArgCount

/-- SET_MUX's operands: ARG[0][31:16] is 0 and ARG[0][15:0] the function id (R82, R90). -/
def decodeSetMux (g : Half) (w : Word) : Except DecodeError Instr :=
  if (unpack w).tag ≠ 0 then .error .argHighNotZero else .ok (.setMux (unpack w).arg g)

/-- CONF_GET's operand: the packed word, whose argument half is kept and ignored (R82, D9). -/
def decodeConfGet (g : Half) (w : Word) : Except DecodeError Instr := .ok (.confGet g (unpack w))

/-- Format IL: AUX packed config words (R82, R90). -/
def decodeIL (mk : Half → List ConfWord → Instr) (c : Command) : Except DecodeError Instr :=
  if c.args.length ≠ (auxField c.cmd).toNat then .error .wrongArgCount
  else if c.names ≠ [] then .error .wrongNameCount
  else .ok (mk (idxField c.cmd) (c.args.map unpack))

/-- Format NM, APPLY_MUX_NAMED: AUX is 0 or 1 and says whether a function name follows (R82, R90). -/
def decodeApplyMux (c : Command) : Except DecodeError Instr :=
  if idxField c.cmd ≠ 0 then .error .idxNotZero
  else if 1 < (auxField c.cmd).toNat then .error .auxTooLarge
  else if c.args ≠ [] then .error .wrongArgCount
  else if c.names.length ≠ 1 + (auxField c.cmd).toNat then .error .wrongNameCount
  else match c.names with
    | [g] => .ok (.applyMuxNamed g none)
    | [g, f] => .ok (.applyMuxNamed g (some f))
    | _ => .error .wrongNameCount

/-- Format NM, APPLY_CONF_NAMED: one group name and AUX packed config words (R82, R90). -/
def decodeApplyConf (c : Command) : Except DecodeError Instr :=
  if idxField c.cmd ≠ 0 then .error .idxNotZero
  else if c.args.length ≠ (auxField c.cmd).toNat then .error .wrongArgCount
  else match c.names with
    | [g] => .ok (.applyConfNamed g (c.args.map unpack))
    | _ => .error .wrongNameCount

/-- The decoder of one named opcode (R90). -/
def decodeOp (op : Op) (c : Command) : Except DecodeError Instr :=
  match op with
  | .init => decodeN .init c
  | .clearParked => decodeN .clearParked c
  | .groupCount => decodeN .groupCount c
  | .groupName => decodeI .groupName c
  | .groupPins => decodeI .groupPins c
  | .functionCount => decodeN .functionCount c
  | .functionName => decodeI .functionName c
  | .functionGroups => decodeI .functionGroups c
  | .setMux => decodeIA decodeSetMux c
  | .confGet => decodeIA decodeConfGet c
  | .confSet => decodeIL .confSet c
  | .dumpGroup => decodeI .dumpGroup c
  | .applyMuxNamed => decodeApplyMux c
  | .applyConfNamed => decodeApplyConf c
  | .saveConfig => decodeI .saveConfig c
  | .restoreConfig => decodeI .restoreConfig c
  | .gpioRequestEnable => decodeI .gpioRequestEnable c
  | .gpioDisableFree => decodeI .gpioDisableFree c
  | .suspend => decodeN .suspend c
  | .resume => decodeN .resume c

/-- Decode(CMD, ARG, NAMEARG), total on any command (R90). -/
def decode (hasDump : Bool) (c : Command) : Except DecodeError Instr :=
  match Op.ofCode hasDump (opField c.cmd) with
  | none => .error .reservedOpcode
  | some op => decodeOp op c

/-- The opcode of an instruction (R83). -/
def Instr.op : Instr → Op
  | .init => .init
  | .clearParked => .clearParked
  | .groupCount => .groupCount
  | .groupName _ => .groupName
  | .groupPins _ => .groupPins
  | .functionCount => .functionCount
  | .functionName _ => .functionName
  | .functionGroups _ => .functionGroups
  | .setMux _ _ => .setMux
  | .confGet _ _ => .confGet
  | .confSet _ _ => .confSet
  | .dumpGroup _ => .dumpGroup
  | .applyMuxNamed _ _ => .applyMuxNamed
  | .applyConfNamed _ _ => .applyConfNamed
  | .saveConfig _ => .saveConfig
  | .restoreConfig _ => .restoreConfig
  | .gpioRequestEnable _ => .gpioRequestEnable
  | .gpioDisableFree _ => .gpioDisableFree
  | .suspend => .suspend
  | .resume => .resume

/-- The encoding of an instruction, operands placed per R82 and R91. Only a well-formed instruction
comes back from `decode`: a list of more than 255 entries does not fit AUX. -/
def encode (i : Instr) : Command :=
  match i with
  | .init | .clearParked | .groupCount | .functionCount | .suspend | .resume =>
    ⟨cmdWord i.op 0 0, [], []⟩
  | .groupName n | .groupPins n | .functionName n | .functionGroups n | .dumpGroup n
  | .saveConfig n | .restoreConfig n | .gpioRequestEnable n | .gpioDisableFree n =>
    ⟨cmdWord i.op 0 n, [], []⟩
  | .setMux f g => ⟨cmdWord .setMux 0 g, [pack 0 f], []⟩
  | .confGet g p => ⟨cmdWord .confGet 0 g, [p.packed], []⟩
  | .confSet g es => ⟨cmdWord .confSet (BitVec.ofNat 8 es.length) g, es.map ConfWord.packed, []⟩
  | .applyMuxNamed g none => ⟨cmdWord .applyMuxNamed 0 0, [], [g]⟩
  | .applyMuxNamed g (some f) => ⟨cmdWord .applyMuxNamed 1 0, [], [g, f]⟩
  | .applyConfNamed g es =>
    ⟨cmdWord .applyConfNamed (BitVec.ofNat 8 es.length) 0, es.map ConfWord.packed, [g]⟩

/-- The command whose words are the bits of `w`: CMD is bits 31..0 and ARG[k] the 32 bits from 32(k+1) on,
bits at and above `nbits` being 0. Names have no bits; each name operand is the empty name (R80;
assumption log 16). -/
def tableCommand (nbits w : Nat) : Command :=
  let v := w % 2 ^ nbits
  let cmd : Word := BitVec.ofNat 32 v
  match Op.ofCode true (opField cmd) with
  | none => ⟨cmd, [], []⟩
  | some op =>
    ⟨cmd, (List.range (op.argCount (auxField cmd))).map fun k => BitVec.ofNat 32 (v >>> (32 * (k + 1))),
      List.replicate (op.nameCount (auxField cmd)) ""⟩

/-- The instruction the decoder reads from a word of spec/opcode_table.json, operand words being zeros. -/
def decodeTableWord (nbits w : Nat) : Option Instr :=
  match decode true (tableCommand nbits w) with
  | .ok i => some i
  | .error _ => none

end Sys2Proof
end

