-- ==== Sys2Proof/Config.lean ====
section
/-! DEFINITION. What an implementation fixes: the chip descriptor and the bank geometry (00_scope.md R6,
10_state.md R21 to R28), and the free values the spec leaves to the hardware. -/

namespace Sys2Proof

/-- `RawReg`: a register location; `reg` is a byte offset into bank `bank`, -1 when absent (R22). -/
structure RawReg where
  bank : Int
  reg  : Int
deriving DecidableEq, Repr, Inhabited

/-- `RawField`: a bit-field of the register at (bank, reg); -1 in both `reg` and `bit` when absent (R22, R23). -/
structure RawField where
  bank  : Int
  reg   : Int
  bit   : Int
  width : Nat
deriving DecidableEq, Repr, Inhabited

/-- `RawBit`: a bit-field whose register is chosen elsewhere; `bit` is -1 when absent (R22, R23). -/
structure RawBit where
  bit   : Int
  width : Nat
deriving DecidableEq, Repr, Inhabited

/-- The four candidate function slots of a group, indexed 0 to 3; an empty slot is `none` (R24, C1). -/
structure Slots where
  slot0 : Option Nat
  slot1 : Option Nat
  slot2 : Option Nat
  slot3 : Option Nat
deriving DecidableEq, Repr, Inhabited

/-- `GroupDesc`: one pin group of the descriptor table, component by component (R24). -/
structure GroupDesc where
  name    : Name
  pins    : List Nat
  mux     : RawField
  funcs   : Slots
  sfsel   : RawBit
  drv     : RawReg
  pull    : RawField
  tri     : RawField
  einput  : RawField
  odrain  : RawField
  lock    : RawField
  ioreset : RawField
  rcvsel  : RawField
  lpbk    : RawField
  hsm     : RawBit
  schmitt : RawBit
  lpmd    : RawField
  drvdn   : RawField
  drvup   : RawField
  slwr    : RawField
  slwf    : RawField
  drvtype : RawBit
  padpwr  : RawField
  parked  : Word
deriving DecidableEq, Repr, Inhabited

/-- `FunctionDesc`: a mux function has only its name; its group list is derived into FG (R26). -/
structure FunctionDesc where
  name : Name
deriving DecidableEq, Repr, Inhabited

/-- `BANK_READ_MODEL`: how a bank read is answered (R6, R53, D14). -/
inductive ReadModel where
  | storage
  | oracle
deriving DecidableEq, Repr, Inhabited

/-- The parameters of the model (R6): the descriptor table, the bank geometry, the four chip-wide flags
(R28) and the two options. `NBANKS` is the length of `words`, `NG` that of `groups`, `NF` that of `funcs`. -/
structure Chip where
  words        : List Nat
  pins         : Nat
  groups       : List GroupDesc
  funcs        : List FunctionDesc
  hsmInMux     : Bool
  schmittInMux : Bool
  drvtypeInMux : Bool
  sfselInMux   : Bool
  readModel    : ReadModel
  hasDumpGroup : Bool
deriving DecidableEq, Repr, Inhabited

/-- The chip the block was built for: no body, because the spec fixes no table (R6, N1; assumption log 1).
A statement about `State.reset` therefore holds for every chip. -/
opaque Config.chip : Chip

/-- The draw a bank read answers with under `BANK_READ_MODEL = oracle`, one for each count of earlier
draws: a free value, no body (R53, D14; assumption log 7). -/
opaque Config.freeWord : Nat → Word

end Sys2Proof
end

