-- ==== Sys2Proof/Machine/State.lean ====
section
/-! DEFINITION. The state of the machine as plain data (10_state.md), the host's moves (60_exceptions.md R195),
the stops, and the state after reset (R41, R200). -/

namespace Sys2Proof.Machine

/-- `LC` (R31). -/
inductive Lifecycle where
  | uninit
  | parkPending
  | ready
  | suspended
  | faulted
deriving DecidableEq, Repr

/-- `FaultCause`, what the fault latch records (R32). -/
inductive FaultCause where
  | malformedTable
  | indexOutOfRange
  | registerOutOfRange
  | sequence
deriving DecidableEq, Repr

/-- The statuses of a response (R87); their codes are `Status.code`. -/
inductive Status where
  | ok
  | invalidArgument
  | unsupported
  | notFound
  | fatal
  | illegalCommand
  | sequenceError
deriving DecidableEq, Repr

/-- `RSP`: the response of the latest command (R29, R80, R86). -/
structure Response where
  status : Status
  words  : List Word
  names  : List Name
deriving DecidableEq, Repr

/-- A bus event: R(bank, offset, value), W(bank, offset, value) or B (R38, R54). -/
inductive BusEvent where
  | read (bank offset : Nat) (value : Word)
  | write (bank offset : Nat) (value : Word)
  | barrier
deriving DecidableEq, Repr

/-- A new value for one bank word, given by its bank and word number: part of a power-loss or power-on
draw (R195, R201). -/
structure BankDraw where
  bank  : Nat
  word  : Nat
  value : Word
deriving DecidableEq, Repr

/-- What the host can do to the block (R195): deliver a command, replace bank words during the deeper
power state, raise the reset event, or power on, which is the reset event with a draw of the banks
(R201, R205). -/
inductive HostMove where
  | command (c : Command)
  | powerLoss (draw : List BankDraw)
  | reset
  | powerOn (draw : List BankDraw)
deriving DecidableEq, Repr

/-- Bank storage as (address, byte) cells in one canonical form: addresses strictly rising, no cell holding
what an unlisted address reads as (assumption log 3, 6). -/
abbrev Memory := List Host.Cell

/-- The state of the machine. Block state: R29 (`cmd`, `arg`, `namearg`, `rsp`), R31 (`lc`), R32 (`fault`),
R35 (`backup`), R36 (`pinbak`, `pinsaved`), R37 (`fg`), R38 (`trace`). The bank agent's state: R34 (`bank`).
Configuration, never written: `chip` (R21; assumption log 1). The model's own: `draws`, how many oracle
reads were answered (assumption log 7), and `host`, the moves the host has still to make (assumption log 8). -/
structure State where
  chip     : Chip
  cmd      : Word
  arg      : List Word
  namearg  : List Name
  rsp      : Response
  lc       : Lifecycle
  fault    : Option FaultCause
  bank     : Memory
  backup   : List Word
  pinbak   : List Word
  pinsaved : List Bool
  fg       : List (List Nat)
  trace    : List BusEvent
  draws    : Nat
  host     : List HostMove
deriving DecidableEq, Repr

/-- Why the machine stops. No command stops: every command ends in a response (R206). -/
inductive Fault where
  /-- Raised by `step` when the host's next move changes BANK where R195 says the host never does: a
  `powerLoss` while LC is not SUSPENDED, or a draw of a word that does not exist. Safe: the model
  stops where the spec has no move (assumption log 9). -/
  | bankMoveNotAdmitted
deriving DecidableEq, Repr

/-- Why the model has no meaning for an instruction. -/
inductive Refusal where
  /-- An instruction whose meaning is not written, named as the opcode table names it. Raised by no arm
  of `exec`. Safe. -/
  | notModelled (mnemonic : String)
deriving DecidableEq, Repr

/-- The state right after reset of a block built for chip `c` (R41, R200). The spec leaves CMD, ARG, NAMEARG
(assumption log 5), BACKUP, PINBAK, PINSAVED, FG (assumption log 4) and BANK (assumption log 3) unspecified: the values here are
the model's. -/
def State.boot (c : Chip) : State where
  chip     := c
  cmd      := 0
  arg      := []
  namearg  := []
  rsp      := ⟨.ok, [], []⟩
  lc       := .uninit
  fault    := none
  bank     := []
  backup   := List.replicate c.words.sum 0
  pinbak   := List.replicate c.pins 0
  pinsaved := List.replicate c.pins false
  fg       := List.replicate c.funcs.length []
  trace    := []
  draws    := 0
  host     := []

/-- The machine right after reset: the chip is the one it was built for, with the spec's defaults for the two
options, `BANK_READ_MODEL` = storage and `HAS_DUMP_GROUP` = true (R6, R202; assumption log 1, 2). -/
def State.reset : State :=
  State.boot { Config.chip with readModel := .storage, hasDumpGroup := true }

end Sys2Proof.Machine
end

