-- ==== Sys2Proof/Machine/Flags.lean ====
section
/-! DEFINITION. The only flag-like output, RSP.status (10_state.md R33): its codes (30_encoding.md R87), the
status of each latching error (60_exceptions.md R171, R176), and the lifecycle acceptance table (R182),
which decides SequenceError. -/

namespace Sys2Proof.Machine

/-- The status codes; 7 to 255 are never returned (R87). -/
def Status.code : Status → Byte
  | .ok => 0
  | .invalidArgument => 1
  | .unsupported => 2
  | .notFound => 3
  | .fatal => 4
  | .illegalCommand => 5
  | .sequenceError => 6

/-- The two latching kinds of error, K in `raise K(c)` (R11, R176). -/
inductive LatchKind where
  | fatal
  | sequenceError
deriving DecidableEq, Repr

/-- code(K): the status a latching error responds with (R176). -/
def LatchKind.status : LatchKind → Status
  | .fatal => .fatal
  | .sequenceError => .sequenceError

/-- The acceptance table: the command is accepted in this lifecycle state (R182). In FAULTED no command
is; the check for it comes first (R177, R180). -/
def accepts (op : Op) (lc : Lifecycle) : Bool :=
  match op with
  | .init => decide (lc = .uninit)
  | .clearParked => decide (lc = .parkPending)
  | .groupCount | .groupName | .groupPins | .functionCount | .functionName | .functionGroups =>
    decide (lc = .ready) || decide (lc = .suspended)
  | .setMux | .confGet | .confSet | .dumpGroup | .applyMuxNamed | .applyConfNamed
  | .saveConfig | .restoreConfig | .gpioRequestEnable | .gpioDisableFree | .suspend =>
    decide (lc = .ready)
  | .resume => decide (lc = .suspended)

end Sys2Proof.Machine
end

