-- ==== Sys2Proof/Machine/Ops.lean ====
section
/-! DEFINITION. The named operations over the banks, the buffers and the response: bank storage in bytes, the
bus primitives MemRead, MemWrite, Barrier and RegWrite (20_memory.md R50 to R57), the outcomes respond, fail
and raise (00_scope.md R11, 60_exceptions.md R176), and the order of checks every command goes through (R180).
Raising is the one shared operation `State.raise`; there is no return from it but reset (R178, R200). -/

namespace Sys2Proof.Machine

/-! ### Bank storage -/

/-- What a byte that no cell lists reads as (assumption log 3). -/
def unlistedByte : Byte := 0

/-- The flat byte address of the byte at offset `o` of bank `b`: banks lie 2^16 bytes apart, the most a bank
spans (R6, D41; assumption log 6). -/
def flatAddr (b o : Nat) : Nat := b * 65536 + o

/-- The byte at a flat address. -/
def readByte : Memory → Nat → Byte
  | [], _ => unlistedByte
  | (k, v) :: rest, a => if k = a then v else readByte rest a

/-- Put a byte at a flat address, keeping the canonical form. -/
def writeByte : Memory → Nat → Byte → Memory
  | [], a, v => if v = unlistedByte then [] else [(a, v)]
  | (k, x) :: rest, a, v =>
    if a < k then (if v = unlistedByte then (k, x) :: rest else (a, v) :: (k, x) :: rest)
    else if a = k then (if v = unlistedByte then rest else (a, v) :: rest)
    else (k, x) :: writeByte rest a v

/-- The canonical form: addresses strictly rising and no cell holding the unlisted byte. -/
def Memory.wf : Memory → Bool
  | [] => true
  | (k, v) :: rest => decide (v ≠ unlistedByte) && rest.all (fun c => decide (k < c.1)) && Memory.wf rest

/-- The 32-bit word at a flat address: the lowest-addressed byte holds bits 7..0 (assumption log 6; no access sees
the order, R58). -/
def readWord (m : Memory) (a : Nat) : Word :=
  readByte m (a + 3) ++ readByte m (a + 2) ++ readByte m (a + 1) ++ readByte m a

/-- Put all 32 bits of a word at a flat address. -/
def writeWord (m : Memory) (a : Nat) (v : Word) : Memory :=
  writeByte (writeByte (writeByte (writeByte m a (v.extractLsb' 0 8)) (a + 1) (v.extractLsb' 8 8))
    (a + 2) (v.extractLsb' 16 8)) (a + 3) (v.extractLsb' 24 8)

/-- `mapped(b, o)`: b < NBANKS, o mod 4 = 0 and o / 4 < WORDS[b] (R50). -/
def mapped (c : Chip) (b o : Int) : Bool :=
  decide (0 ≤ b) && decide (0 ≤ o) && decide (o % 4 = 0) &&
    match c.words[b.toNat]? with
    | some n => decide (o / 4 < n)
    | none => false

/-- BANK[b][w], read directly and not over the bus (R34). -/
def State.bankWord (s : State) (b w : Nat) : Word := readWord s.bank (flatAddr b (4 * w))

/-- Every bank word as (bank, word number) in cursor order: bank order, then word order (R162). -/
def cursorWords (c : Chip) : List (Nat × Nat) :=
  c.words.zipIdx.flatMap fun (n, b) => (List.range n).map fun w => (b, w)

/-! ### Outcomes -/

/-- How the body of a command ends early (R11). -/
inductive Stop where
  | failed (st : Status)
  | raised (k : LatchKind) (c : FaultCause)
deriving DecidableEq, Repr

/-- What `respond(OK, words, names)` answers with (R11, R86). -/
structure Reply where
  words : List Word
  names : List Name
deriving DecidableEq, Repr

/-- The body of a command: it changes the state step by step, and a stop keeps every change already
made (R173). -/
abbrev M := EStateM Stop State

/-- `fail S` (R11). -/
def failWith {α : Type} (st : Status) : M α := fun s => .error (.failed st) s

/-- `raise Fatal(c)` inside a command (R11). -/
def raiseFatal {α : Type} (c : FaultCause) : M α := fun s => .error (.raised .fatal c) s

/-- `raise SequenceError(c)` inside a command (R11). -/
def raiseSequence {α : Type} (c : FaultCause) : M α := fun s => .error (.raised .sequenceError c) s

/-- `respond(OK, words, names)` (R11). -/
def respond (words : List Word) (names : List Name) : M Reply := pure ⟨words, names⟩

/-- The response becomes `status` with empty lists (R86). -/
def State.answer (s : State) (st : Status) : State := { s with rsp := ⟨st, [], []⟩ }

/-- `raise K(c)`: latch the first cause, enter FAULTED and respond code(K) (R176). -/
def State.raise (s : State) (k : LatchKind) (c : FaultCause) : State :=
  { s with fault := some (s.fault.getD c), lc := .faulted, rsp := ⟨k.status, [], []⟩ }

/-- The state after a command's body: its response, its failure status or its latched error (R11, R86, R176). -/
def conclude : EStateM.Result Stop State Reply → State
  | .ok r s => { s with rsp := ⟨.ok, r.words, r.names⟩ }
  | .error (.failed st) s => s.answer st
  | .error (.raised k c) s => s.raise k c

/-- One accepted or refused command: FAULTED answers Fatal (R177), a command the lifecycle table does not
accept raises SequenceError (R182), any other runs its body (R180). Every command ends in a response (R181, R206). -/
def runCommand (op : Op) (body : M Reply) (s : State) : Host.Outcome State Fault Refusal :=
  .next (if s.lc = .faulted then s.answer .fatal
    else if accepts op s.lc then conclude (body s)
    else s.raise .sequenceError .sequence)

/-- The response to an illegal command: IllegalCommand, but Fatal in FAULTED (R88, R177, R180). -/
def illegalCommand (s : State) : State :=
  if s.lc = .faulted then s.answer .fatal else s.answer .illegalCommand

/-! ### Bus primitives -/

/-- `answer(b, o)`: the stored word, or under the oracle model a fresh draw (R53). -/
def bankAnswer (s : State) (b o : Nat) : Word :=
  match s.chip.readModel with
  | .storage => readWord s.bank (flatAddr b o)
  | .oracle => Config.freeWord s.draws

/-- The count of draws after one bank read (R53; assumption log 7). -/
def drawsAfterRead (s : State) : Nat :=
  match s.chip.readModel with
  | .storage => s.draws
  | .oracle => s.draws + 1

/-- The state after the block has read the word at a mapped location: one R event (R54). -/
def State.afterRead (s : State) (b o : Nat) : State :=
  { s with trace := s.trace ++ [.read b o (bankAnswer s b o)], draws := drawsAfterRead s }

/-- The state after the block has written a word at a mapped location: BANK at once, one W event (R54). -/
def State.afterWrite (s : State) (b o : Nat) (v : Word) : State :=
  { s with bank := writeWord s.bank (flatAddr b o) v, trace := s.trace ++ [.write b o v] }

/-- `MemRead((b, o), 4)` (R54). -/
def memRead (b o : Int) : M Word := fun s =>
  if mapped s.chip b o then .ok (bankAnswer s b.toNat o.toNat) (s.afterRead b.toNat o.toNat)
  else .error (.raised .fatal .registerOutOfRange) s

/-- `MemWrite((b, o), 4, v)` (R54). -/
def memWrite (b o : Int) (v : Word) : M Unit := fun s =>
  if mapped s.chip b o then .ok () (s.afterWrite b.toNat o.toNat v)
  else .error (.raised .fatal .registerOutOfRange) s

/-- `Barrier()` (R54). -/
def barrier : M Unit := fun s => .ok () { s with trace := s.trace ++ [.barrier] }

/-- `RegWrite(b, o, v)`: the write and its readback, whose value is discarded (R56). -/
def regWrite (b o : Int) (v : Word) : M Unit := do
  memWrite b o v
  let _ ← memRead b o
  pure ()

/-! ### Internal buffers (R66: not on the bus) -/

/-- `LC <- lc`. -/
def setLifecycle (lc : Lifecycle) : M Unit := fun s => .ok () { s with lc := lc }

/-- `BACKUP[k] <- v`; a position the buffer lacks is an index outside its bounds (assumption log 12). -/
def writeBackup (k : Nat) (v : Word) : M Unit := fun s =>
  if k < s.backup.length then .ok () { s with backup := s.backup.set k v }
  else .error (.raised .fatal .indexOutOfRange) s

/-- BACKUP[k] (R35; assumption log 12). -/
def readBackup (k : Nat) : M Word := fun s =>
  match s.backup[k]? with
  | some v => .ok v s
  | none => .error (.raised .fatal .indexOutOfRange) s

/-- `PINBAK[p] <- v; PINSAVED[p] <- true` (R140; assumption log 12). -/
def savePin (p : Nat) (v : Word) : M Unit := fun s =>
  if p < s.pinbak.length ∧ p < s.pinsaved.length then
    .ok () { s with pinbak := s.pinbak.set p v, pinsaved := s.pinsaved.set p true }
  else .error (.raised .fatal .indexOutOfRange) s

/-- PINBAK[p] for a restore: SequenceError when nothing was saved (R141, D32; assumption log 12). -/
def savedPin (p : Nat) : M Word := fun s =>
  match s.pinsaved[p]?, s.pinbak[p]? with
  | some true, some v => .ok v s
  | some false, some _ => .error (.raised .sequenceError .sequence) s
  | _, _ => .error (.raised .fatal .indexOutOfRange) s

/-- FG[f] (R37; assumption log 12). -/
def readIndex (f : Nat) : M (List Nat) := fun s =>
  match s.fg[f]? with
  | some gs => .ok gs s
  | none => .error (.raised .fatal .indexOutOfRange) s

end Sys2Proof.Machine
end

