-- ==== Sys2Proof/Machine/Operands.lean ====
section
/-! DEFINITION. Operand forms: field arithmetic (00_scope.md R8, R9), presence of descriptor fields
(10_state.md R23, R25), parameter tags (30_encoding.md R84), Resolve (42_config.md R125), group, function and
pin lookup (R100, R133, R138), and the function slots (R115, R121). -/

namespace Sys2Proof.Machine

/-! ### Field arithmetic -/

/-- MASK(w) = (1 << w) - 1 (R9). -/
def fieldMask (w : Nat) : Word := (1#32 <<< w) - 1#32

/-- FIELD_GET(v, b, w) (R9). -/
def fieldGet (v : Word) (b w : Nat) : Word := (v >>> b) &&& fieldMask w

/-- FIELD_PUT(v, b, w, x) (R9). -/
def fieldPut (v : Word) (b w : Nat) (x : Word) : Word := (v &&& ~~~(fieldMask w <<< b)) ||| (x <<< b)

/-- `1 << n`. -/
def oneBit (n : Nat) : Word := 1#32 <<< n

/-- `!v`, the logical NOT: 1 if v = 0, else 0 (R8). -/
def logicalNot (v : Word) : Word := if v = 0 then 1 else 0

/-! ### Presence -/

/-- A RawField is present when reg and bit are not negative (R23). -/
def fieldPresent (f : RawField) : Bool := decide (0 ≤ f.reg) && decide (0 ≤ f.bit)

/-- A RawField is absent when reg and bit are both the sentinel -1 (R23). -/
def fieldAbsent (f : RawField) : Bool := decide (f.reg = -1) && decide (f.bit = -1)

/-- A RawReg is present when reg is not negative (R23). -/
def regPresent (r : RawReg) : Bool := decide (0 ≤ r.reg)

/-- A RawBit is present when bit is not negative (R23). -/
def bitPresent (f : RawBit) : Bool := decide (0 ≤ f.bit)

/-- A register location that is present: bank and byte offset. -/
structure Loc where
  bank : Int
  reg  : Int
deriving DecidableEq, Repr

/-- MuxReg(g): the register of the mux field (R25). -/
def muxReg (g : GroupDesc) : Option Loc :=
  if fieldPresent g.mux then some ⟨g.mux.bank, g.mux.reg⟩ else none

/-- DrvReg(g) (R25). -/
def drvReg (g : GroupDesc) : Option Loc :=
  if regPresent g.drv then some ⟨g.drv.bank, g.drv.reg⟩ else none

/-- The register the parked mask applies to: the mux register if present, else the drive register (R155). -/
def parkedReg (g : GroupDesc) : Option Loc := (muxReg g).or (drvReg g)

/-! ### Parameter tags and Resolve -/

/-- The eighteen configuration parameters, in tag order (R84). -/
inductive Param where
  | pull | tristate | enableInput | openDrain | lock | ioreset | rcvSel | loopback
  | highSpeedMode | schmitt | lowPowerMode | driveDownStrength | driveUpStrength
  | slewFalling | slewRising | driveType | function | padPower
deriving DecidableEq, Repr

/-- The parameters in tag order, 0 to 17 (R84). -/
def Param.all : List Param :=
  [.pull, .tristate, .enableInput, .openDrain, .lock, .ioreset, .rcvSel, .loopback,
   .highSpeedMode, .schmitt, .lowPowerMode, .driveDownStrength, .driveUpStrength,
   .slewFalling, .slewRising, .driveType, .function, .padPower]

/-- The tag number of a parameter (R84). -/
def Param.tag (p : Param) : Half := BitVec.ofNat 16 (Param.all.idxOf p)

/-- The parameter a tag names; tags 18 to 65535 name none (R84, D26). -/
def Param.ofTag (t : Half) : Option Param := Param.all[t.toNat]?

/-- A resolved field (b, o, bit, w) (R125). -/
structure Resolved where
  bank  : Int
  reg   : Int
  bit   : Nat
  width : Nat
deriving DecidableEq, Repr

/-- What Resolve answers: a resolved field, Unsupported, or the malformed field that raises
Fatal(MalformedTable) (R125). -/
inductive Resolution where
  | field (r : Resolved)
  | unsupported
  | malformed
deriving DecidableEq, Repr

/-- Resolution of a component with its own register (R125). -/
def resolveOwn (f : RawField) : Resolution :=
  if fieldPresent f then .field ⟨f.bank, f.reg, f.bit.toNat, f.width⟩
  else if fieldAbsent f then .unsupported
  else .malformed

/-- Resolution of a dual-location component: its register is the mux or the drive register, by the
chip-wide flag; either half absent is Unsupported (R125, C2). -/
def resolveDual (g : GroupDesc) (f : RawBit) (inMux : Bool) : Resolution :=
  match (if inMux then muxReg g else drvReg g) with
  | none => .unsupported
  | some r => if bitPresent f then .field ⟨r.bank, r.reg, f.bit.toNat, f.width⟩ else .unsupported

/-- Resolve(g, tag) for a named parameter (R125). -/
def resolve (c : Chip) (g : GroupDesc) (p : Param) : Resolution :=
  match p with
  | .pull => resolveOwn g.pull
  | .tristate => resolveOwn g.tri
  | .enableInput => resolveOwn g.einput
  | .openDrain => resolveOwn g.odrain
  | .lock => resolveOwn g.lock
  | .ioreset => resolveOwn g.ioreset
  | .rcvSel => resolveOwn g.rcvsel
  | .loopback => resolveOwn g.lpbk
  | .highSpeedMode => resolveDual g g.hsm c.hsmInMux
  | .schmitt => resolveDual g g.schmitt c.schmittInMux
  | .lowPowerMode => resolveOwn g.lpmd
  | .driveDownStrength => resolveOwn g.drvdn
  | .driveUpStrength => resolveOwn g.drvup
  | .slewFalling => resolveOwn g.slwf
  | .slewRising => resolveOwn g.slwr
  | .driveType => resolveDual g g.drvtype c.drvtypeInMux
  | .function =>
    if fieldPresent g.mux then .field ⟨g.mux.bank, g.mux.reg, g.mux.bit.toNat, 2⟩ else .unsupported
  | .padPower => resolveOwn g.padpwr

/-! ### Function slots -/

/-- The slots in index order. -/
def slotList (s : Slots) : List (Option Nat) := [s.slot0, s.slot1, s.slot2, s.slot3]

/-- The lowest slot that holds function `f` (R121 step 2, D23). -/
def slotOf (s : Slots) (f : Nat) : Option Nat := (slotList s).findIdx? (· == some f)

/-- The function in slot `i` (R115). -/
def slotAt (s : Slots) (i : Nat) : Option Nat := (slotList s).getD i none

/-! ### Lookup -/

/-- Group `i` of the table; out of range raises Fatal(IndexOutOfRange) (R100, D29). -/
def groupAt (c : Chip) (i : Nat) : M GroupDesc :=
  match c.groups[i]? with
  | some g => pure g
  | none => raiseFatal .indexOutOfRange

/-- Function `i` of the table; out of range raises Fatal(IndexOutOfRange) (R100, D29). -/
def functionAt (c : Chip) (i : Nat) : M FunctionDesc :=
  match c.funcs[i]? with
  | some f => pure f
  | none => raiseFatal .indexOutOfRange

/-- LookupGroup(n), the group as its descriptor (R133). -/
def lookupGroup (c : Chip) (n : Name) : Option GroupDesc := c.groups.find? fun g => g.name == n

/-- LookupFunction(n), the function's id (R133). -/
def lookupFunction (c : Chip) (n : Name) : Option Nat := c.funcs.findIdx? fun f => f.name == n

/-- FindSinglePinGroup(p): the lowest group whose only pin is `p`, as its descriptor (R138). -/
def findSinglePinGroup (c : Chip) (p : Nat) : Option GroupDesc := c.groups.find? fun g => g.pins == [p]

end Sys2Proof.Machine
end

