-- ==== Sys2Proof/Machine/Gpio.lean ====
section
/-! DEFINITION. The GPIO hand-off (44_gpio_handoff.md R138 to R145). -/

namespace Sys2Proof.Machine

/-- The single-pin group of a pin, or NotFound (R138). -/
def singlePinGroup (c : Chip) (p : Nat) : M GroupDesc :=
  match findSinglePinGroup c p with
  | some g => pure g
  | none => failWith .notFound

/-- Save(p): the whole mux word goes to PINBAK[p]; a group without a mux field saves nothing (R140). -/
def saveBody (c : Chip) (p : Nat) : M Unit := do
  let g ← singlePinGroup c p
  if fieldPresent g.mux then do
    let v ← memRead g.mux.bank g.mux.reg
    savePin p v
  else pure ()

/-- The body of SAVE_CONFIG (R140). -/
def saveConfigBody (c : Chip) (p : Nat) : M Reply := do
  saveBody c p
  respond [] []

/-- SAVE_CONFIG (R140). -/
def execSaveConfig (p : Half) (s : State) : Host.Outcome State Fault Refusal :=
  runCommand .saveConfig (saveConfigBody s.chip p.toNat) s

/-- The body of RESTORE_CONFIG, which GPIO_DISABLE_FREE runs too (R141, R143). -/
def restoreBody (c : Chip) (p : Nat) : M Reply := do
  let g ← singlePinGroup c p
  if fieldPresent g.mux then do
    let v ← savedPin p
    regWrite g.mux.bank g.mux.reg v
    respond [] []
  else respond [] []

/-- RESTORE_CONFIG (R141). -/
def execRestoreConfig (p : Half) (s : State) : Host.Outcome State Fault Refusal :=
  runCommand .restoreConfig (restoreBody s.chip p.toNat) s

/-- Clear the select bit of a group's mux register (R142). -/
def takeGpio (g : GroupDesc) : M Reply :=
  if fieldPresent g.mux && bitPresent g.sfsel then do
    let v ← memRead g.mux.bank g.mux.reg
    regWrite g.mux.bank g.mux.reg (v &&& ~~~(oneBit g.sfsel.bit.toNat))
    respond [] []
  else failWith .invalidArgument

/-- The body of GPIO_REQUEST_ENABLE: save first, whatever the chip (R142). -/
def gpioRequestBody (c : Chip) (p : Nat) : M Reply := do
  saveBody c p
  if c.sfselInMux then do
    let g ← singlePinGroup c p
    takeGpio g
  else respond [] []

/-- GPIO_REQUEST_ENABLE (R142). -/
def execGpioRequestEnable (p : Half) (s : State) : Host.Outcome State Fault Refusal :=
  runCommand .gpioRequestEnable (gpioRequestBody s.chip p.toNat) s

/-- GPIO_DISABLE_FREE: the body of RESTORE_CONFIG, with its status (R143, D31). -/
def execGpioDisableFree (p : Half) (s : State) : Host.Outcome State Fault Refusal :=
  runCommand .gpioDisableFree (restoreBody s.chip p.toNat) s

end Sys2Proof.Machine
end

