-- ==== Sys2Proof/Machine/Conf.lean ====
section
/-! DEFINITION. The config parameter engine: CONF_GET, CONF_SET and DUMP_GROUP (42_config.md R125 to R132). -/

namespace Sys2Proof.Machine

/-- The software value of a hardware field: the complement for PAD_POWER, the field itself otherwise (R128). -/
def softwareValue (p : Param) (field : Word) : Word :=
  if p = .padPower then logicalNot field else field

/-- The value written to a field of `width` bits for a requested value: PAD_POWER inverted (R129 step 2), a
width-1 value coerced to 0 or 1 (step 4, R131). -/
def hardwareValue (p : Param) (width : Nat) (val : Word) : Word :=
  let val := if p = .padPower then logicalNot val else val
  if width = 1 then (if val ≠ 0 then 1 else 0) else val

/-- Read a resolved parameter and decode it (R127 steps 2 and 3). -/
def readParam (p : Param) (r : Resolved) : M Word := do
  let v ← memRead r.bank r.reg
  pure (softwareValue p (fieldGet v r.bit r.width))

/-- PACK(tag, val) of a decoded value (R127 step 4). -/
def packValue (p : Param) (val : Word) : Word := pack p.tag (val.setWidth 16)

/-- A parameter with its resolved field. -/
structure Target where
  param : Param
  field : Resolved
deriving DecidableEq, Repr

/-- Resolve(g, tag) and what its answer does to the command: Unsupported fails, a malformed field raises
Fatal(MalformedTable), a tag that names no parameter is Unsupported (R125, D26). -/
def resolveTag (c : Chip) (g : GroupDesc) (tag : Half) : M Target :=
  match Param.ofTag tag with
  | none => failWith .unsupported
  | some p =>
    match resolve c g p with
    | .field r => pure ⟨p, r⟩
    | .unsupported => failWith .unsupported
    | .malformed => raiseFatal .malformedTable

/-- The body of CONF_GET (R127). -/
def confGetBody (c : Chip) (i : Nat) (tag : Half) : M Reply := do
  let g ← groupAt c i
  let t ← resolveTag c g tag
  let val ← readParam t.param t.field
  respond [packValue t.param val] []

/-- CONF_GET; the argument half of its packed word is ignored (R127, D9). -/
def execConfGet (g : Half) (param : ConfWord) (s : State) : Host.Outcome State Fault Refusal :=
  runCommand .confGet (confGetBody s.chip g.toNat param.tag) s

/-- R129 step 3: a LOCK entry reads the register and fails when it would clear a set lock bit. -/
def lockCheck (r : Resolved) (val : Word) : M Unit := do
  let cur ← memRead r.bank r.reg
  if fieldGet cur r.bit 1 = 1 ∧ val = 0 then failWith .invalidArgument else pure ()

/-- R129 step 3 applies to the LOCK tag only. -/
def lockGuard (p : Param) (r : Resolved) (val : Word) : M Unit :=
  if p = .lock then lockCheck r val else pure ()

/-- R129 steps 5 and 6: the range check, then the read-modify-write. -/
def writeField (r : Resolved) (val : Word) : M Unit :=
  if val >>> r.width ≠ 0 then failWith .invalidArgument
  else do
    let v ← memRead r.bank r.reg
    regWrite r.bank r.reg (fieldPut v r.bit r.width val)

/-- SetOne(g, tag, val) (R129). The lock check sees the requested value, which PAD_POWER's inversion does
not touch. -/
def setOne (c : Chip) (g : GroupDesc) (e : ConfWord) : M Unit := do
  let t ← resolveTag c g e.tag
  lockGuard t.param t.field (e.arg.setWidth 32)
  writeField t.field (hardwareValue t.param t.field.width (e.arg.setWidth 32))

/-- The entries in the given order, stopping at the first failure (R129). -/
def setEach (c : Chip) (g : GroupDesc) : List ConfWord → M Unit
  | [] => pure ()
  | e :: es => do
    setOne c g e
    setEach c g es

/-- CONF_SET and APPLY_CONF_NAMED once the group is known (R129, R135). -/
def confSetGroup (c : Chip) (g : GroupDesc) (entries : List ConfWord) : M Reply := do
  setEach c g entries
  respond [] []

/-- The body of CONF_SET (R129). -/
def confSetBody (c : Chip) (i : Nat) (entries : List ConfWord) : M Reply := do
  let g ← groupAt c i
  confSetGroup c g entries

/-- CONF_SET (R129). -/
def execConfSet (g : Half) (entries : List ConfWord) (s : State) : Host.Outcome State Fault Refusal :=
  runCommand .confSet (confSetBody s.chip g.toNat entries) s

/-- The name DUMP_GROUP gives the selected slot: the function's, or "" for an empty slot (R132). -/
def slotName (c : Chip) (g : GroupDesc) (val : Word) : M Name :=
  match slotAt g.funcs val.toNat with
  | none => pure ""
  | some f => do
    let d ← functionAt c f
    pure d.name

/-- The names a dumped parameter adds: one for FUNCTION, none for any other (R132). -/
def dumpNames (c : Chip) (g : GroupDesc) (p : Param) (val : Word) : M (List Name) :=
  if p = .function then do
    let n ← slotName c g val
    pure [n]
  else pure []

/-- The dump over a list of parameters, skipping those the group does not support (R132). -/
def dumpParams (c : Chip) (g : GroupDesc) : List Param → M Reply
  | [] => respond [] []
  | p :: ps =>
    match resolve c g p with
    | .unsupported => dumpParams c g ps
    | .malformed => raiseFatal .malformedTable
    | .field r => do
      let val ← readParam p r
      let ns ← dumpNames c g p val
      let rest ← dumpParams c g ps
      respond (packValue p val :: rest.words) (ns ++ rest.names)

/-- The body of DUMP_GROUP (R132). -/
def dumpGroupBody (c : Chip) (i : Nat) : M Reply := do
  let g ← groupAt c i
  dumpParams c g Param.all

/-- DUMP_GROUP; on a chip without it OP 0x23 is reserved, so the command is illegal (R83, R132, D20;
assumption log 18). -/
def execDumpGroup (g : Half) (s : State) : Host.Outcome State Fault Refusal :=
  if s.chip.hasDumpGroup then runCommand .dumpGroup (dumpGroupBody s.chip g.toNat) s
  else .next (illegalCommand s)

end Sys2Proof.Machine
end

