-- ==== Sys2Proof/Machine/Mux.lean ====
section
/-! DEFINITION. The mux selector: SET_MUX (41_mux.md R121) and its body, which APPLY_MUX_NAMED shares. -/

namespace Sys2Proof.Machine

/-- The mux word SET_MUX writes: slot `slot` in the 2-bit field, and the select bit set when the chip drives it
(R121 steps 3 and 4). -/
def muxWord (c : Chip) (g : GroupDesc) (slot : Nat) (v : Word) : Word :=
  let v := fieldPut v g.mux.bit.toNat 2 (BitVec.ofNat 32 slot)
  if c.sfselInMux then v ||| oneBit g.sfsel.bit.toNat else v

/-- MuxBody(f, g): R121 after its index check. -/
def muxBody (c : Chip) (f : Nat) (g : GroupDesc) : M Reply :=
  if fieldPresent g.mux then
    match slotOf g.funcs f with
    | none => failWith .invalidArgument
    | some slot =>
      if c.sfselInMux && !bitPresent g.sfsel then raiseFatal .malformedTable
      else do
        let v ← memRead g.mux.bank g.mux.reg
        regWrite g.mux.bank g.mux.reg (muxWord c g slot v)
        respond [] []
  else failWith .unsupported

/-- The body of SET_MUX (R121). -/
def setMuxBody (c : Chip) (f i : Nat) : M Reply := do
  let g ← groupAt c i
  muxBody c f g

/-- SET_MUX (R121). -/
def execSetMux (f g : Half) (s : State) : Host.Outcome State Fault Refusal :=
  runCommand .setMux (setMuxBody s.chip f.toNat g.toNat) s

end Sys2Proof.Machine
end

