-- ==== Sys2Proof/Machine/Named.lean ====
section
/-! DEFINITION. The named configuration requests (43_requests.md R133 to R136). -/

namespace Sys2Proof.Machine

/-- LookupGroup, failing with InvalidArgument for an unknown name (R133). -/
def namedGroup (c : Chip) (n : Name) : M GroupDesc :=
  match lookupGroup c n with
  | some g => pure g
  | none => failWith .invalidArgument

/-- LookupFunction, failing with InvalidArgument for an unknown name (R133). -/
def namedFunction (c : Chip) (n : Name) : M Nat :=
  match lookupFunction c n with
  | some f => pure f
  | none => failWith .invalidArgument

/-- The body of APPLY_MUX_NAMED: the group name is checked even when no function is given (R134). -/
def applyMuxBody (c : Chip) (group : Name) (function : Option Name) : M Reply := do
  let g ← namedGroup c group
  match function with
  | none => respond [] []
  | some n => do
    let f ← namedFunction c n
    muxBody c f g

/-- APPLY_MUX_NAMED (R134). -/
def execApplyMuxNamed (group : Name) (function : Option Name) (s : State) :
    Host.Outcome State Fault Refusal :=
  runCommand .applyMuxNamed (applyMuxBody s.chip group function) s

/-- The body of APPLY_CONF_NAMED (R135). -/
def applyConfBody (c : Chip) (group : Name) (entries : List ConfWord) : M Reply := do
  let g ← namedGroup c group
  confSetGroup c g entries

/-- APPLY_CONF_NAMED (R135). -/
def execApplyConfNamed (group : Name) (entries : List ConfWord) (s : State) :
    Host.Outcome State Fault Refusal :=
  runCommand .applyConfNamed (applyConfBody s.chip group entries) s

end Sys2Proof.Machine
end

