-- ==== Sys2Proof/Machine/Table.lean ====
section
/-! DEFINITION. The table checks W1 to W9 of INIT (45_lifecycle.md R150) and the reverse index
(40_resolver.md R110). -/

namespace Sys2Proof.Machine

/-- The RawField components of a group, in the order of check W1 (R150). -/
def rawFields (g : GroupDesc) : List RawField :=
  [g.mux, g.pull, g.tri, g.einput, g.odrain, g.lock, g.ioreset, g.rcvsel, g.lpbk, g.lpmd,
   g.drvdn, g.drvup, g.slwr, g.slwf, g.padpwr]

/-- The RawBit components of a group (R150 W1). -/
def rawBits (g : GroupDesc) : List RawBit := [g.sfsel, g.hsm, g.schmitt, g.drvtype]

/-- W1, sentinel consistency: each location is wholly present or wholly absent (R23, R150). -/
def checkSentinels (c : Chip) : Bool :=
  c.groups.all fun g =>
    (rawFields g).all (fun f => fieldAbsent f || fieldPresent f) &&
    (decide (g.drv.reg = -1) || regPresent g.drv) &&
    (rawBits g).all (fun f => decide (f.bit = -1) || bitPresent f)

/-- W2, addresses: every present register is mapped (R150). -/
def checkAddresses (c : Chip) : Bool :=
  c.groups.all fun g =>
    (rawFields g).all (fun f => !fieldPresent f || mapped c f.bank f.reg) &&
    (!regPresent g.drv || mapped c g.drv.bank g.drv.reg)

/-- A field at `bit` of `width` bits has 1 to 16 bits and lies within 32 (D22). -/
def positionOk (bit : Int) (width : Nat) : Bool :=
  decide (1 ≤ width) && decide (width ≤ 16) && decide (bit + width ≤ 32)

/-- W3, positions and widths of every present field (R150). -/
def checkPositions (c : Chip) : Bool :=
  c.groups.all fun g =>
    (rawFields g).all (fun f => !fieldPresent f || positionOk f.bit f.width) &&
    (rawBits g).all (fun f => !bitPresent f || positionOk f.bit f.width)

/-- W4, fixed widths: 2 for mux, 1 for the single bits (R24, R150). -/
def checkWidths (c : Chip) : Bool :=
  c.groups.all fun g =>
    (!fieldPresent g.mux || decide (g.mux.width = 2)) &&
    [g.einput, g.odrain, g.lock, g.ioreset, g.rcvsel, g.padpwr].all
      (fun f => !fieldPresent f || decide (f.width = 1)) &&
    [g.sfsel, g.hsm, g.schmitt].all (fun f => !bitPresent f || decide (f.width = 1))

/-- W5, function slots: every slot is empty or holds a function of the table (R150). -/
def checkSlots (c : Chip) : Bool :=
  c.groups.all fun g => (slotList g.funcs).all fun s =>
    match s with
    | none => true
    | some f => decide (f < c.funcs.length)

/-- The pin lists of the single-pin groups, in group order. -/
def singlePins (c : Chip) : List (List Nat) :=
  (c.groups.map GroupDesc.pins).filter fun ps => decide (ps.length = 1)

/-- W6, pins: no empty group, every pin in range, at most one single-pin group for a pin (R27, R150). -/
def checkPins (c : Chip) : Bool :=
  c.groups.all (fun g => decide (1 ≤ g.pins.length) && g.pins.all (fun p => decide (p < c.pins))) &&
  decide (singlePins c).Nodup

/-- W7, a parked mask has a register (R150). -/
def checkParked (c : Chip) : Bool :=
  c.groups.all fun g => decide (g.parked = 0) || fieldPresent g.mux || regPresent g.drv

/-- W8, names: distinct group names, distinct function names, no empty function name (R150). -/
def checkNames (c : Chip) : Bool :=
  decide (c.groups.map GroupDesc.name).Nodup &&
  decide (c.funcs.map FunctionDesc.name).Nodup &&
  c.funcs.all fun f => decide (f.name ≠ "")

/-- W9, counts and geometry within the bounds of 00_scope.md R6 (R150). -/
def checkCounts (c : Chip) : Bool :=
  decide (c.groups.length ≤ 65536) && decide (c.funcs.length ≤ 65536) && decide (c.pins ≤ 65536) &&
  decide (1 ≤ c.words.length) && decide (c.words.length ≤ 256) &&
  c.words.all fun n => decide (1 ≤ n) && decide (n ≤ 16384)

/-- The descriptor passes every INIT check (R150). -/
def tableOk (c : Chip) : Bool :=
  checkSentinels c && checkAddresses c && checkPositions c && checkWidths c && checkSlots c &&
  checkPins c && checkParked c && checkNames c && checkCounts c

/-- Group `g` has a mux field and names function `f` in one of its slots (R110). -/
def offers (g : GroupDesc) (f : Nat) : Bool := fieldPresent g.mux && (slotList g.funcs).contains (some f)

/-- FG[f]: the groups that offer `f`, ascending, each once (R110, D25). -/
def offeringGroups (c : Chip) (f : Nat) : List Nat :=
  (List.range c.groups.length).filter fun i =>
    match c.groups[i]? with
    | some g => offers g f
    | none => false

/-- The whole reverse index (R37, R110). -/
def reverseIndex (c : Chip) : List (List Nat) := (List.range c.funcs.length).map (offeringGroups c)

/-- BuildFG(): the index, then the document's bound on its size (R110, R112). -/
def buildIndex (c : Chip) : M Unit := fun s =>
  let s' := { s with fg := reverseIndex c }
  if 4 * c.groups.length < ((reverseIndex c).map List.length).sum then
    .error (.raised .fatal .malformedTable) s'
  else .ok () s'

/-- `BACKUP[k] <- 0`, `PINBAK[p] <- 0`, `PINSAVED[p] <- false` for every position (R150, R151). -/
def zeroBuffers (c : Chip) : M Unit := fun s =>
  .ok () { s with
    backup := List.replicate c.words.sum 0
    pinbak := List.replicate c.pins 0
    pinsaved := List.replicate c.pins false }

end Sys2Proof.Machine
end

