-- ==== Sys2Proof/Machine/Power.lean ====
section
/-! DEFINITION. Initialization, parked bits, suspend and resume (45_lifecycle.md). -/

namespace Sys2Proof.Machine

/-- The body of INIT (R150). -/
def initBody (c : Chip) : M Reply :=
  if tableOk c then do
    zeroBuffers c
    buildIndex c
    setLifecycle .parkPending
    respond [] []
  else raiseFatal .malformedTable

/-- INIT (R150). -/
def execInit (s : State) : Host.Outcome State Fault Refusal :=
  runCommand .init (initBody s.chip) s

/-- Clear one group's parked bits in its register (R155; no register at all, assumption log 12). -/
def clearGroup (g : GroupDesc) : M Unit :=
  match parkedReg g with
  | none => raiseFatal .registerOutOfRange
  | some r => do
    let v ← memRead r.bank r.reg
    regWrite r.bank r.reg (v &&& ~~~g.parked)

/-- Only a group with a non-zero mask has its register touched (R155). -/
def clearIfParked (g : GroupDesc) : M Unit :=
  if g.parked ≠ 0 then clearGroup g else pure ()

/-- The groups with a parked mask, in ascending order (R155, D37). -/
def clearGroups : List GroupDesc → M Unit
  | [] => pure ()
  | g :: gs => do
    clearIfParked g
    clearGroups gs

/-- The body of CLEAR_PARKED (R155). -/
def clearParkedBody (c : Chip) : M Reply := do
  clearGroups c.groups
  setLifecycle .ready
  respond [] []

/-- CLEAR_PARKED (R155). -/
def execClearParked (s : State) : Host.Outcome State Fault Refusal :=
  runCommand .clearParked (clearParkedBody s.chip) s

/-- The suspend loop: read each word, in cursor order, into BACKUP from position `k` on (R160, R162). -/
def drainWords : List (Nat × Nat) → Nat → M Unit
  | [], _ => pure ()
  | (b, w) :: rest, k => do
    let v ← memRead b (4 * w)
    writeBackup k v
    drainWords rest (k + 1)

/-- The body of SUSPEND (R160). -/
def suspendBody (c : Chip) : M Reply := do
  drainWords (cursorWords c) 0
  setLifecycle .suspended
  respond [] []

/-- SUSPEND (R160). -/
def execSuspend (s : State) : Host.Outcome State Fault Refusal :=
  runCommand .suspend (suspendBody s.chip) s

/-- The resume loop: write each word, in cursor order, from BACKUP, without readback (R161, R162, C3). -/
def refillWords : List (Nat × Nat) → Nat → M Unit
  | [], _ => pure ()
  | (b, w) :: rest, k => do
    let v ← readBackup k
    memWrite b (4 * w) v
    refillWords rest (k + 1)

/-- The body of RESUME: the writes, one dummy read of bank 0 offset 0, the barrier (R161, D17). -/
def resumeBody (c : Chip) : M Reply := do
  refillWords (cursorWords c) 0
  let _ ← memRead 0 0
  barrier
  setLifecycle .ready
  respond [] []

/-- RESUME (R161). -/
def execResume (s : State) : Host.Outcome State Fault Refusal :=
  runCommand .resume (resumeBody s.chip) s

end Sys2Proof.Machine
end

