-- ==== Sys2Proof/Machine/Resolver.lean ====
section
/-! DEFINITION. The group/function resolver: the six table queries of 40_resolver.md. They make no bus access
(R100). -/

namespace Sys2Proof.Machine

/-- The names of the groups with these ids, in order (R106; an id the table lacks, assumption log 12). -/
def groupNames (c : Chip) : List Nat → M (List Name)
  | [] => pure []
  | i :: is => do
    let g ← groupAt c i
    let rest ← groupNames c is
    pure (g.name :: rest)

/-- GROUP_COUNT (R101). -/
def execGroupCount (s : State) : Host.Outcome State Fault Refusal :=
  runCommand .groupCount (respond [BitVec.ofNat 32 s.chip.groups.length] []) s

/-- The body of GROUP_NAME (R102). -/
def groupNameBody (c : Chip) (i : Nat) : M Reply := do
  let g ← groupAt c i
  respond [] [g.name]

/-- GROUP_NAME (R102). -/
def execGroupName (g : Half) (s : State) : Host.Outcome State Fault Refusal :=
  runCommand .groupName (groupNameBody s.chip g.toNat) s

/-- The body of GROUP_PINS: the count, then the pins in table order (R103). -/
def groupPinsBody (c : Chip) (i : Nat) : M Reply := do
  let g ← groupAt c i
  respond (BitVec.ofNat 32 g.pins.length :: g.pins.map (BitVec.ofNat 32)) []

/-- GROUP_PINS (R103). -/
def execGroupPins (g : Half) (s : State) : Host.Outcome State Fault Refusal :=
  runCommand .groupPins (groupPinsBody s.chip g.toNat) s

/-- FUNCTION_COUNT (R104). -/
def execFunctionCount (s : State) : Host.Outcome State Fault Refusal :=
  runCommand .functionCount (respond [BitVec.ofNat 32 s.chip.funcs.length] []) s

/-- The body of FUNCTION_NAME (R105). -/
def functionNameBody (c : Chip) (i : Nat) : M Reply := do
  let f ← functionAt c i
  respond [] [f.name]

/-- FUNCTION_NAME (R105). -/
def execFunctionName (f : Half) (s : State) : Host.Outcome State Fault Refusal :=
  runCommand .functionName (functionNameBody s.chip f.toNat) s

/-- The body of FUNCTION_GROUPS: the count and the names of the groups of FG[i] (R106). -/
def functionGroupsBody (c : Chip) (i : Nat) : M Reply := do
  let _ ← functionAt c i
  let gs ← readIndex i
  let names ← groupNames c gs
  respond [BitVec.ofNat 32 gs.length] names

/-- FUNCTION_GROUPS (R106). -/
def execFunctionGroups (f : Half) (s : State) : Host.Outcome State Fault Refusal :=
  runCommand .functionGroups (functionGroupsBody s.chip f.toNat) s

end Sys2Proof.Machine
end

