-- ==== Sys2Proof/Machine/Dispatch.lean ====
section
/-! DEFINITION. One arm per command of the opcode map (30_encoding.md R83). -/

namespace Sys2Proof.Machine

/-- The meaning of a command that has been decoded. -/
def exec (i : Instr) (s : State) : Host.Outcome State Fault Refusal :=
  match i with
  | .init => Sys2Proof.Machine.execInit s
  | .clearParked => Sys2Proof.Machine.execClearParked s
  | .groupCount => Sys2Proof.Machine.execGroupCount s
  | .groupName g => Sys2Proof.Machine.execGroupName g s
  | .groupPins g => Sys2Proof.Machine.execGroupPins g s
  | .functionCount => Sys2Proof.Machine.execFunctionCount s
  | .functionName f => Sys2Proof.Machine.execFunctionName f s
  | .functionGroups f => Sys2Proof.Machine.execFunctionGroups f s
  | .setMux f g => Sys2Proof.Machine.execSetMux f g s
  | .confGet g param => Sys2Proof.Machine.execConfGet g param s
  | .confSet g entries => Sys2Proof.Machine.execConfSet g entries s
  | .dumpGroup g => Sys2Proof.Machine.execDumpGroup g s
  | .applyMuxNamed group function => Sys2Proof.Machine.execApplyMuxNamed group function s
  | .applyConfNamed group entries => Sys2Proof.Machine.execApplyConfNamed group entries s
  | .saveConfig p => Sys2Proof.Machine.execSaveConfig p s
  | .restoreConfig p => Sys2Proof.Machine.execRestoreConfig p s
  | .gpioRequestEnable p => Sys2Proof.Machine.execGpioRequestEnable p s
  | .gpioDisableFree p => Sys2Proof.Machine.execGpioDisableFree p s
  | .suspend => Sys2Proof.Machine.execSuspend s
  | .resume => Sys2Proof.Machine.execResume s

end Sys2Proof.Machine
end

