-- ==== Sys2Proof/Machine/HostMoves.lean ====
section
/-! DEFINITION. What the host's moves do (60_exceptions.md R195, 70_reset_and_hazards.md R200, R201): delivering a
command, replacing bank words, reset. `step` only takes the next move and calls these. -/

namespace Sys2Proof.Machine

/-- The host has made its first move (assumption log 8). -/
def State.afterMove (s : State) (rest : List HostMove) : State := { s with host := rest }

/-- Deliver a command: the tuple goes to CMD, ARG and NAMEARG at once (R29, R80). -/
def State.deliver (s : State) (c : Command) : State :=
  { s with cmd := c.cmd, arg := c.args, namearg := c.names }

/-- The command the registers hold. -/
def State.delivered (s : State) : Command := ⟨s.cmd, s.arg, s.namearg⟩

/-- Every word of a draw exists (R50). -/
def drawMapped (c : Chip) (draw : List BankDraw) : Bool :=
  draw.all fun d => mapped c d.bank (4 * d.word)

/-- The banks after a draw of some words, the later entry winning (R195, R201). -/
def drawBank : List BankDraw → Memory → Memory
  | [], m => m
  | d :: ds, m => drawBank ds (writeWord m (flatAddr d.bank (4 * d.word)) d.value)

/-- The draw as a change of the bank agent: no bus event, no other state (R185, R195). -/
def State.drawBanks (s : State) (draw : List BankDraw) : State :=
  { s with bank := drawBank draw s.bank }

/-- The host may lose the banks' power now: only while SUSPENDED (R195, D40). -/
def admitsPowerLoss (s : State) (draw : List BankDraw) : Bool :=
  decide (s.lc = .suspended) && drawMapped s.chip draw

/-- The reset event: every piece of block state goes to its reset value; the banks, the chip and the
host are not the block's (R41, R200, R201, R202; assumption log 10). -/
def State.resetEvent (s : State) : State :=
  { State.boot s.chip with bank := s.bank, draws := s.draws, host := s.host }

end Sys2Proof.Machine
end

