-- ==== Sys2Proof/Machine/Step.lean ====
section
/-! DEFINITION. One step of the machine: the host's next move (60_exceptions.md R195), a command being performed to
its response (10_state.md R20, R30). -/

namespace Sys2Proof.Machine

/-- Decode the delivered command and perform it; a command that does not decode is illegal (R88, R90, R180). -/
def stepDelivered (s : State) : Host.Outcome State Fault Refusal :=
  match decode s.chip.hasDumpGroup s.delivered with
  | .ok i => exec i s
  | .error _ => .next (illegalCommand s)

/-- One step. With no move left the block waits for its next command and nothing changes (R30, R200). -/
def step (s : State) : Host.Outcome State Fault Refusal :=
  match s.host with
  | [] => .next s
  | .command c :: rest => stepDelivered ((s.afterMove rest).deliver c)
  | .powerLoss draw :: rest =>
    if admitsPowerLoss s draw then .next ((s.afterMove rest).drawBanks draw)
    else .fault .bankMoveNotAdmitted
  | .reset :: rest => .next (s.afterMove rest).resetEvent
  | .powerOn draw :: rest =>
    if drawMapped s.chip draw then .next ((s.afterMove rest).resetEvent.drawBanks draw)
    else .fault .bankMoveNotAdmitted

/-- `s` with the host about to deliver the command whose bits are `w` (assumption log 8, 16). -/
def State.withFetchWord (s : State) (nbits w : Nat) : State :=
  { s with host := .command (tableCommand nbits w) :: s.host }

end Sys2Proof.Machine
end

