-- ==== Sys2Proof/Machine/Observe.lean ====
section
/-! DEFINITION. What the spec says can be seen of a state: landed writes (20_memory.md R55), the current function
(41_mux.md R116) and the ownership of a pin (R117, R118). No command reads these. -/

namespace Sys2Proof.Machine

/-- The event lands an earlier write to (b, o): a read of that location, or a barrier (R55). -/
def lands (b o : Nat) : BusEvent → Bool
  | .read b' o' _ => b' == b && o' == o
  | .barrier => true
  | .write _ _ _ => false

/-- The event at position `i` of the trace `es` is a write that is landed: a later event lands its location (R55). -/
def landed (es : List BusEvent) (i : Nat) : Bool :=
  match es[i]? with
  | some (.write b o _) => (es.drop (i + 1)).any (lands b o)
  | _ => false

/-- Every write event of the trace is landed (R55): what `landed` says at every position that holds a write. -/
def allLanded : List BusEvent → Bool
  | [] => true
  | .write b o _ :: rest => rest.any (lands b o) && allLanded rest
  | _ :: rest => allLanded rest

/-- The banks after the write events of a stretch of trace, in order (R54, R61). -/
def replay : List BusEvent → Memory → Memory
  | [], m => m
  | .write b o v :: rest, m => replay rest (writeWord m (flatAddr b o) v)
  | _ :: rest, m => replay rest m

/-- The word of BANK a location names, read directly (R34, R50). -/
def State.wordAt (s : State) (b o : Int) : Word := readWord s.bank (flatAddr b.toNat o.toNat)

/-- CurrentSlot(g) of a group with a mux field (R116). -/
def State.currentSlot (s : State) (g : GroupDesc) : Word :=
  fieldGet (s.wordAt g.mux.bank g.mux.reg) g.mux.bit.toNat 2

/-- CurrentFunction(g) (R116). -/
def State.currentFunction (s : State) (g : GroupDesc) : Option Nat :=
  slotAt g.funcs (s.currentSlot g).toNat

/-- Who owns the pins of a group (R118). -/
inductive Owner where
  | sfio
  | gpio
deriving DecidableEq, Repr

/-- Owner(g): none when the chip drives no select bit or the group lacks the mux field or the select bit (R118). -/
def State.owner (s : State) (g : GroupDesc) : Option Owner :=
  if s.chip.sfselInMux && fieldPresent g.mux && bitPresent g.sfsel then
    some (if (s.wordAt g.mux.bank g.mux.reg).getLsbD g.sfsel.bit.toNat then .sfio else .gpio)
  else none

end Sys2Proof.Machine
end

