-- ==== Sys2Proof/Safety.lean ====
section
/-! DEFINITION. What claims are stated in: the invariant of the machine, runs and what is observed of them
(70_reset_and_hazards.md R205), and the effects several commands share. -/

namespace Sys2Proof.Machine

/-! ### The invariant -/

/-- INIT has succeeded and nothing has latched: LC is PARK_PENDING, READY or SUSPENDED (R31). -/
abbrev State.Initialised (s : State) : Prop := s.lc = .parkPending ∨ s.lc = .ready ∨ s.lc = .suspended

/-- What every step keeps: the banks in canonical form, the latch set exactly in FAULTED (R32, R176), each buffer as
long as the chip makes it (R35 to R37), and, once INIT has succeeded, a table that passes its checks and the
reverse index of that table (R110, R150). -/
structure State.Inv (s : State) : Prop where
  bankWf : Memory.wf s.bank = true
  latch : s.fault.isSome = true ↔ s.lc = .faulted
  backupLength : s.backup.length = s.chip.words.sum
  pinbakLength : s.pinbak.length = s.chip.pins
  pinsavedLength : s.pinsaved.length = s.chip.pins
  fgLength : s.fg.length = s.chip.funcs.length
  table : s.Initialised → tableOk s.chip = true
  index : s.Initialised → s.fg = reverseIndex s.chip

/-! ### The descriptor table -/

/-- The table as the checks W1 to W9 of R150 describe it, in the rule's own words and not through `tableOk`. W1 to W3 are one
field for each kind of location: wholly absent, or wholly present with a mapped register and a place within its 32 bits. -/
structure WellFormedTable (c : Chip) : Prop where
  fields : ∀ g ∈ c.groups, ∀ f ∈ [g.mux, g.pull, g.tri, g.einput, g.odrain, g.lock, g.ioreset, g.rcvsel, g.lpbk,
      g.lpmd, g.drvdn, g.drvup, g.slwr, g.slwf, g.padpwr],
    (f.reg = -1 ∧ f.bit = -1) ∨ (0 ≤ f.reg ∧ 0 ≤ f.bit ∧ mapped c f.bank f.reg = true ∧
      1 ≤ f.width ∧ f.width ≤ 16 ∧ f.bit + f.width ≤ 32)
  drive : ∀ g ∈ c.groups, g.drv.reg = -1 ∨ (0 ≤ g.drv.reg ∧ mapped c g.drv.bank g.drv.reg = true)
  bits : ∀ g ∈ c.groups, ∀ f ∈ [g.sfsel, g.hsm, g.schmitt, g.drvtype],
    f.bit = -1 ∨ (0 ≤ f.bit ∧ 1 ≤ f.width ∧ f.width ≤ 16 ∧ f.bit + f.width ≤ 32)
  /-- W4. -/
  muxWidth : ∀ g ∈ c.groups, g.mux.reg ≠ -1 → g.mux.width = 2
  singleFields : ∀ g ∈ c.groups, ∀ f ∈ [g.einput, g.odrain, g.lock, g.ioreset, g.rcvsel, g.padpwr],
    f.reg ≠ -1 → f.width = 1
  singleBits : ∀ g ∈ c.groups, ∀ f ∈ [g.sfsel, g.hsm, g.schmitt], f.bit ≠ -1 → f.width = 1
  /-- W5. -/
  slots : ∀ g ∈ c.groups, ∀ f, some f ∈ [g.funcs.slot0, g.funcs.slot1, g.funcs.slot2, g.funcs.slot3] →
    f < c.funcs.length
  /-- W6. -/
  pins : ∀ g ∈ c.groups, g.pins ≠ [] ∧ ∀ p ∈ g.pins, p < c.pins
  singlePin : ∀ (p i j : Nat) (g d : GroupDesc), c.groups[i]? = some g → c.groups[j]? = some d →
    g.pins = [p] → d.pins = [p] → i = j
  /-- W7. -/
  parked : ∀ g ∈ c.groups, g.parked ≠ 0 → g.mux.reg ≠ -1 ∨ g.drv.reg ≠ -1
  /-- W8. -/
  groupNames : ∀ (i j : Nat) (g d : GroupDesc), c.groups[i]? = some g → c.groups[j]? = some d →
    g.name = d.name → i = j
  functionNames : ∀ (i j : Nat) (f d : FunctionDesc), c.funcs[i]? = some f → c.funcs[j]? = some d →
    f.name = d.name → i = j
  functionNamed : ∀ f ∈ c.funcs, f.name ≠ ""
  /-- W9, with the bounds of R6. -/
  counts : c.groups.length ≤ 65536 ∧ c.funcs.length ≤ 65536 ∧ c.pins ≤ 65536
  geometry : 1 ≤ c.words.length ∧ c.words.length ≤ 256 ∧ ∀ n ∈ c.words, 1 ≤ n ∧ n ≤ 16384

/-! ### Runs -/

/-- What is observed of a run: the responses in order, and the final BANK, TRACE, LC and FAULT (R205). -/
structure Observation where
  responses : List Response
  bank      : Memory
  trace     : List BusEvent
  lc        : Lifecycle
  fault     : Option FaultCause
deriving DecidableEq, Repr

/-- The move is a command, which a response answers (R195). -/
def isCommand : HostMove → Bool
  | .command _ => true
  | .powerLoss _ => false
  | .reset => false
  | .powerOn _ => false

/-- `k` steps of a run, collecting the response to each command; none when a move is not admitted (R205). -/
def observeSteps : Nat → State → Option Observation
  | 0, s => some ⟨[], s.bank, s.trace, s.lc, s.fault⟩
  | k + 1, s =>
    match step s with
    | .next t =>
      (observeSteps k t).map fun o =>
        if (s.host.head?.map isCommand).getD false then { o with responses := t.rsp :: o.responses } else o
    | .fault _ => none
    | .refused _ => none

/-- The observation of the run the host has still to make (R205). -/
def observeRun (s : State) : Option Observation := observeSteps s.host.length s

/-- A latching status (R176). -/
def Status.latches (st : Status) : Bool := decide (st = .fatal) || decide (st = .sequenceError)

/-- A run is faulted if any response has status Fatal or SequenceError (R205). -/
def Observation.faulted (o : Observation) : Bool := o.responses.any fun r => r.status.latches

/-! ### Effects that commands share -/

/-- The response is OK with these lists. -/
def State.replied (s : State) (words : List Word) (names : List Name) : State :=
  { s with rsp := ⟨.ok, words, names⟩ }

/-- Every byte of bank storage but the four at a location reads as before. -/
def BytesKeptBut (b o : Int) (s t : State) : Prop :=
  ∀ a, ¬ (flatAddr b.toNat o.toNat ≤ a ∧ a < flatAddr b.toNat o.toNat + 4) →
    readByte t.bank a = readByte s.bank a

/-- Everything but BANK, TRACE, the draw count and the response is as before. -/
def OnlyBus (s t : State) : Prop :=
  t = { s with bank := t.bank, trace := t.trace, draws := t.draws, rsp := t.rsp }

/-- A field update of one register: the word `v` was read, the word `v'` written and read back, nothing else
changed, and the command answers OK (R56, R129 step 6, R142). -/
def WroteRegister (b o : Int) (v v' : Word) (s t : State) : Prop :=
  (∃ back, t.trace = s.trace ++
      [.read b.toNat o.toNat v, .write b.toNat o.toNat v', .read b.toNat o.toNat back]) ∧
    t.wordAt b o = v' ∧ BytesKeptBut b o s t ∧ OnlyBus s t ∧ t.rsp = ⟨.ok, [], []⟩

/-- The fields of a group that its supported parameters resolve to, in tag order (R125, R132). -/
def supportedFields (c : Chip) (g : GroupDesc) : List Resolved :=
  Param.all.filterMap fun p =>
    match resolve c g p with
    | .field r => some r
    | .unsupported => none
    | .malformed => none

/-- The OR of the parked masks whose register is the one at (b, o) (R155). -/
def parkedMaskAt (b o : Int) : List GroupDesc → Word
  | [] => 0
  | g :: gs => (if parkedReg g = some ⟨b, o⟩ then g.parked else 0) ||| parkedMaskAt b o gs

/-- The groups that CLEAR_PARKED touches, in ascending order: those with a mask (R155, D37). -/
def parkedGroups (c : Chip) : List GroupDesc := c.groups.filter fun g => decide (g.parked ≠ 0)

/-- The bus events of clearing one group's mask, `v` being the word read and `back` the readback (R155). -/
def parkedEvents (g : GroupDesc) (v back : Word) : List BusEvent :=
  match parkedReg g with
  | some r => [.read r.bank.toNat r.reg.toNat v, .write r.bank.toNat r.reg.toNat (v &&& ~~~g.parked),
      .read r.bank.toNat r.reg.toNat back]
  | none => []

/-- The bus events of clearing a list of groups, in order, with the word read and the readback of each (R155). -/
def clearEvents : List GroupDesc → List (Word × Word) → List BusEvent
  | g :: gs, (v, back) :: rest => parkedEvents g v back ++ clearEvents gs rest
  | _, _ => []

end Sys2Proof.Machine
end

