-- ==== Sys2Proof/Certificates/Slice0/Obligations.lean ====
section
/-! DEFINITION. Statements about the machine, each from the rules of spec/ its docstring names. -/

open Sys2Proof Sys2Proof.Machine

/-! ### Encoding (30_encoding.md) -/

/-- The fourteen commands that R92 writes out decode to what they stand for. -/
def Obligations.SpecExampleWordsDecode : Prop :=
  decode true ⟨0x01000000, [], []⟩ = .ok .init ∧
  decode true ⟨0x02000000, [], []⟩ = .ok .clearParked ∧
  decode true ⟨0x12000001, [], []⟩ = .ok (.groupPins 1) ∧
  decode true ⟨0x20000000, [0x00000001], []⟩ = .ok (.setMux 1 0) ∧
  decode true ⟨0x21000000, [0x00000000], []⟩ = .ok (.confGet 0 ⟨0, 0⟩) ∧
  decode true ⟨0x21000000, [0x00110000], []⟩ = .ok (.confGet 0 ⟨17, 0⟩) ∧
  decode true ⟨0x22020000, [0x00000002, 0x00010001], []⟩ = .ok (.confSet 0 [⟨0, 2⟩, ⟨1, 1⟩]) ∧
  decode true ⟨0x22000000, [], []⟩ = .ok (.confSet 0 []) ∧
  decode true ⟨0x28010000, [], ["g1", "E"]⟩ = .ok (.applyMuxNamed "g1" (some "E")) ∧
  decode true ⟨0x28000000, [], ["g1"]⟩ = .ok (.applyMuxNamed "g1" none) ∧
  decode true ⟨0x29010000, [0x00040001], ["g0"]⟩ = .ok (.applyConfNamed "g0" [⟨4, 1⟩]) ∧
  decode true ⟨0x32000000, [], []⟩ = .ok (.gpioRequestEnable 0) ∧
  decode true ⟨0x40000000, [], []⟩ = .ok .suspend ∧
  decode true ⟨0x41000000, [], []⟩ = .ok .resume

/-- Every well-formed instruction, every operand at every value, decodes from its encoding to itself (R82, R90, R91). -/
def Obligations.DecodeOfEncode : Prop :=
  ∀ (hasDump : Bool) (i : Instr), i.wellFormed hasDump = true → decode hasDump (encode i) = .ok i

/-- A command that decodes is the encoding of what it decodes to: every legal command has exactly one meaning and no
bit of it is dropped (R88, R90). -/
def Obligations.EncodeOfDecode : Prop :=
  ∀ (hasDump : Bool) (c : Command) (i : Instr), decode hasDump c = .ok i →
    encode i = c ∧ i.wellFormed hasDump = true

/-- The reserved values of OP, 0x23 among them when the chip has no DUMP_GROUP, are rejected by name (R83, R88 a). -/
def Obligations.ReservedOpcodesAreIllegal : Prop :=
  ∀ (hasDump : Bool) (c : Command) (op : Nat), op = (c.cmd.extractLsb' 24 8).toNat →
    (op = 0 ∨ (0x03 ≤ op ∧ op ≤ 0x0F) ∨ (0x16 ≤ op ∧ op ≤ 0x1F) ∨ (0x24 ≤ op ∧ op ≤ 0x27) ∨
      (0x2A ≤ op ∧ op ≤ 0x2F) ∨ (0x34 ≤ op ∧ op ≤ 0x3F) ∨ 0x42 ≤ op ∨ (op = 0x23 ∧ hasDump = false)) →
    decode hasDump c = .error .reservedOpcode

/-- The decoder, total: a reserved opcode is illegal; for any other, the command decodes when AUX, IDX, ARG and NAMEARG are what the
opcode's format requires, to an instruction that keeps every operand, and is illegal otherwise (R90). -/
def Obligations.DecodesIffFormatHolds : Prop :=
  ∀ (hasDump : Bool) (cmd : Word) (args : List Word) (names : List Name) (aux idx : Nat),
    aux = (cmd.extractLsb' 16 8).toNat → idx = (cmd.extractLsb' 0 16).toNat →
    (Op.ofCode hasDump (cmd.extractLsb' 24 8) = none → ∃ e, decode hasDump ⟨cmd, args, names⟩ = .error e) ∧
    ∀ op, Op.ofCode hasDump (cmd.extractLsb' 24 8) = some op →
      let required : Prop :=
        match op.format with
        | .n => aux = 0 ∧ idx = 0 ∧ args.length = 0 ∧ names.length = 0
        | .i => aux = 0 ∧ args.length = 0 ∧ names.length = 0
        | .ia => aux = 0 ∧ args.length = 1 ∧ names.length = 0 ∧
            (op = .setMux → ∀ w ∈ args, w.extractLsb' 16 16 = 0)
        | .il => args.length = aux ∧ names.length = 0
        | .nm => idx = 0 ∧
            (op = .applyMuxNamed → aux ≤ 1 ∧ args.length = 0 ∧ names.length = 1 + aux) ∧
            (op = .applyConfNamed → args.length = aux ∧ names.length = 1)
      (required → ∃ i, decode hasDump ⟨cmd, args, names⟩ = .ok i ∧ i.op = op ∧
        encode i = ⟨cmd, args, names⟩) ∧
      (¬ required → ∃ e, decode hasDump ⟨cmd, args, names⟩ = .error e)

/-- UNPACK after PACK and PACK after UNPACK give back what went in (R85). -/
def Obligations.PackUnpackRoundTrip : Prop :=
  (∀ tag arg : Half, unpack (pack tag arg) = ⟨tag, arg⟩ ∧
    (pack tag arg).toNat = tag.toNat * 65536 + arg.toNat) ∧
  ∀ w : Word, pack (unpack w).tag (unpack w).arg = w

/-! ### Steps and the host (10_state.md R20, R30; 60_exceptions.md R177, R180, R195; 70_reset_and_hazards.md R200) -/

/-- A delivered command that decodes is performed: the step takes the move, loads CMD, ARG and NAMEARG, and is `exec` of the
decoded instruction there (R29, R80, R180). -/
def Obligations.StepRunsDecodedCommand : Prop :=
  ∀ (s : State) (c : Command) (rest : List HostMove) (i : Instr), s.host = .command c :: rest →
    decode s.chip.hasDumpGroup c = .ok i →
    step s = exec i { s with host := rest, cmd := c.cmd, arg := c.args, namearg := c.names }

/-- A delivered command that does not decode responds IllegalCommand and changes no other block state (R88). -/
def Obligations.IllegalCommandOnlyResponds : Prop :=
  ∀ (s : State) (c : Command) (rest : List HostMove) (e : DecodeError), s.host = .command c :: rest →
    decode s.chip.hasDumpGroup c = .error e → s.lc ≠ .faulted →
    step s = .next { s with
      host := rest, cmd := c.cmd, arg := c.args, namearg := c.names, rsp := ⟨.illegalCommand, [], []⟩ }

/-- In FAULTED every command, legal or not, responds Fatal and changes nothing else, and no move but reset or
power-on leaves FAULTED (R177). -/
def Obligations.FaultedAnswersFatalUntilReset : Prop :=
  (∀ (s : State) (c : Command) (rest : List HostMove), s.lc = .faulted → s.host = .command c :: rest →
    step s = .next { s with
      host := rest, cmd := c.cmd, arg := c.args, namearg := c.names, rsp := ⟨.fatal, [], []⟩ }) ∧
  ∀ s t : State, s.lc = .faulted → step s = .next t →
    t.lc = .faulted ∨ ∃ rest draw, s.host = .reset :: rest ∨ s.host = .powerOn draw :: rest

/-- A power loss while SUSPENDED replaces every bank word it names, the last entry for a word winning, and nothing
else (R195). Outside SUSPENDED, or for a word that does not exist, there is no such move: the model stops
(assumption log 9). -/
def Obligations.PowerLossReplacesBankWords : Prop :=
  (∀ (s : State) (draw : List BankDraw) (rest : List HostMove), s.host = .powerLoss draw :: rest →
    s.lc = .suspended → (∀ d ∈ draw, mapped s.chip d.bank (4 * d.word) = true) →
    ∃ t, step s = .next t ∧ t = { s with host := rest, bank := t.bank } ∧
      (∀ a, (∀ d ∈ draw, ¬ (flatAddr d.bank (4 * d.word) ≤ a ∧ a < flatAddr d.bank (4 * d.word) + 4)) →
        readByte t.bank a = readByte s.bank a) ∧
      (Memory.wf s.bank = true → ∀ d before, draw = before ++ [d] → t.bankWord d.bank d.word = d.value) ∧
      (s.Inv → ∀ d before after, draw = before ++ d :: after →
        (∀ e ∈ after, (e.bank, e.word) ≠ (d.bank, d.word)) → t.bankWord d.bank d.word = d.value)) ∧
  ∀ (s : State) (draw : List BankDraw) (rest : List HostMove), s.host = .powerLoss draw :: rest →
    (s.lc ≠ .suspended ∨ ∃ d ∈ draw, mapped s.chip d.bank (4 * d.word) = false) →
    step s = .fault .bankMoveNotAdmitted

/-- The reset event puts LC, FAULT, RSP and TRACE to their reset values and leaves the banks and the chip alone; power-on is
the same event with a draw of the banks (R200, R201, R202). -/
def Obligations.ResetEventRestartsBlock : Prop :=
  ∀ (s : State) (rest : List HostMove) (draw : List BankDraw),
    (s.host = .reset :: rest → ∃ t, step s = .next t ∧ t.lc = .uninit ∧ t.fault = none ∧
      t.rsp = ⟨.ok, [], []⟩ ∧ t.trace = [] ∧ t.bank = s.bank ∧ t.chip = s.chip ∧ t.host = rest) ∧
    (s.host = .powerOn draw :: rest → (∀ d ∈ draw, mapped s.chip d.bank (4 * d.word) = true) →
      ∃ t, step s = .next t ∧ t.lc = .uninit ∧ t.fault = none ∧ t.rsp = ⟨.ok, [], []⟩ ∧ t.trace = [] ∧
        t.bank = drawBank draw s.bank ∧ t.chip = s.chip ∧ t.host = rest)

/-- What reset leaves where the spec gives a value: LC, FAULT, RSP and TRACE, whatever the chip (R41, R200). -/
def Obligations.ResetValues : Prop :=
  (∀ c : Chip, (State.boot c).chip = c ∧ (State.boot c).lc = .uninit ∧ (State.boot c).fault = none ∧
    (State.boot c).rsp = ⟨.ok, [], []⟩ ∧ (State.boot c).trace = []) ∧
  State.reset.lc = .uninit ∧ State.reset.fault = none ∧ State.reset.rsp = ⟨.ok, [], []⟩ ∧
  State.reset.trace = [] ∧ State.reset.chip.readModel = .storage ∧ State.reset.chip.hasDumpGroup = true

/-! ### Rules over all commands -/

/-- Every command ends in a response, and the response of a command that fails has empty lists (R86, R181, R206). -/
def Obligations.EveryCommandResponds : Prop :=
  ∀ (i : Instr) (s : State), ∃ t, exec i s = .next t ∧
    (t.rsp.status ≠ .ok → t.rsp.words = [] ∧ t.rsp.names = [])

/-- The lifecycle graph: a command leaves FAULTED behind exactly when it responds Fatal or SequenceError; an OK INIT,
CLEAR_PARKED, SUSPEND or RESUME makes its move of the graph; every other command leaves LC as it was (R176, R182, R183). -/
def Obligations.LifecycleGraph : Prop :=
  ∀ (i : Instr) (s t : State), exec i s = .next t →
    (t.lc = .faulted ↔ (t.rsp.status = .fatal ∨ t.rsp.status = .sequenceError)) ∧
    (t.rsp.status = .ok →
      (i = .init ∧ s.lc = .uninit ∧ t.lc = .parkPending) ∨
      (i = .clearParked ∧ s.lc = .parkPending ∧ t.lc = .ready) ∨
      (i = .suspend ∧ s.lc = .ready ∧ t.lc = .suspended) ∨
      (i = .resume ∧ s.lc = .suspended ∧ t.lc = .ready) ∨
      (i ≠ .init ∧ i ≠ .clearParked ∧ i ≠ .suspend ∧ i ≠ .resume ∧ t.lc = s.lc)) ∧
    (t.rsp.status ≠ .ok → t.lc ≠ .faulted → t.lc = s.lc)

/-- The acceptance table: a command out of its lifecycle states responds SequenceError and latches Sequence, with no
other effect (R176, R182). -/
def Obligations.OutOfSequenceRaises : Prop :=
  ∀ (i : Instr) (s : State), i.wellFormed s.chip.hasDumpGroup = true →
    (s.lc = .uninit ∧ i ≠ .init ∨
      s.lc = .parkPending ∧ i ≠ .clearParked ∨
      s.lc = .ready ∧ (i = .init ∨ i = .clearParked ∨ i = .resume) ∨
      s.lc = .suspended ∧ i.op ∉ [Op.groupCount, .groupName, .groupPins, .functionCount, .functionName,
        .functionGroups, .resume]) →
    exec i s = .next { s with
      fault := some (s.fault.getD .sequence), lc := .faulted, rsp := ⟨.sequenceError, [], []⟩ }

/-- InvalidArgument, Unsupported, NotFound and IllegalCommand leave LC and FAULT unchanged (R172). -/
def Obligations.NonLatchingErrorsKeepLifecycle : Prop :=
  ∀ (i : Instr) (s t : State), exec i s = .next t →
    (t.rsp.status = .invalidArgument ∨ t.rsp.status = .unsupported ∨ t.rsp.status = .notFound ∨
      t.rsp.status = .illegalCommand) →
    t.lc = s.lc ∧ t.fault = s.fault

/-- The latch: no command clears or changes a recorded cause, and a command that finds the latch empty sets it exactly when it
enters FAULTED (R32, R176). -/
def Obligations.LatchKeepsFirstCause : Prop :=
  ∀ (i : Instr) (s t : State), exec i s = .next t →
    (∀ c, s.fault = some c → t.fault = some c) ∧
    (s.fault = none → s.lc ≠ .faulted → (t.fault.isSome = true ↔ t.lc = .faulted))

/-- No command writes the chip, the command registers or what the host still has to do (R21, R28, R29, R65). -/
def Obligations.CommandsKeepConfiguration : Prop :=
  ∀ (i : Instr) (s t : State), exec i s = .next t →
    t.chip = s.chip ∧ t.host = s.host ∧ t.cmd = s.cmd ∧ t.arg = s.arg ∧ t.namearg = s.namearg

/-- TRACE only grows, and BANK after a command is BANK before it with exactly the command's own write events applied in
order (R38, R54, R61). -/
def Obligations.TraceRecordsEveryBankChange : Prop :=
  ∀ (i : Instr) (s t : State), exec i s = .next t →
    ∃ es, t.trace = s.trace ++ es ∧ t.bank = replay es s.bank

/-- Only SUSPEND, and INIT's allocation, write BACKUP; only SAVE_CONFIG, GPIO_REQUEST_ENABLE and INIT write PINBAK and PINSAVED;
only INIT writes FG (R35, R36, R37). -/
def Obligations.BuffersHaveTheirWriters : Prop :=
  ∀ (i : Instr) (s t : State), exec i s = .next t →
    (i ≠ .init → i ≠ .suspend → t.backup = s.backup) ∧
    (i ≠ .init → i.op ≠ .saveConfig → i.op ≠ .gpioRequestEnable →
      t.pinbak = s.pinbak ∧ t.pinsaved = s.pinsaved) ∧
    (i ≠ .init → t.fg = s.fg)

/-- Only CONF_SET and APPLY_CONF_NAMED with two or more entries can fail after writing a register: any other command that
fails, theirs with one entry or none among them, leaves the banks as they were (R173). -/
def Obligations.OnlyEntryListsFailPartly : Prop :=
  ∀ (i : Instr) (s t : State), s.Inv → exec i s = .next t → t.rsp.status ≠ .ok →
    (∀ x es, i = .confSet x es → es.length ≤ 1) → (∀ n es, i = .applyConfNamed n es → es.length ≤ 1) →
    t.bank = s.bank

/-- An access to an unmapped location raises Fatal(RegisterOutOfRange) and touches neither BANK nor TRACE; after a successful INIT no
command forms one, so that cause is never latched (R57). -/
def Obligations.NoUnmappedAccess : Prop :=
  (∀ (s : State) (b o : Int) (v : Word), mapped s.chip b o = false →
    memRead b o s = .error (.raised .fatal .registerOutOfRange) s ∧
    memWrite b o v s = .error (.raised .fatal .registerOutOfRange) s) ∧
  ∀ (i : Instr) (s t : State), s.Inv → s.fault = none → exec i s = .next t →
    t.fault ≠ some .registerOutOfRange

/-- The invariant holds right after reset, whatever the chip and whatever words the banks powered on with. -/
def Obligations.InvAtReset : Prop :=
  State.reset.Inv ∧ ∀ (c : Chip) (draw : List BankDraw), ((State.boot c).drawBanks draw).Inv

/-- Every step, the host's moves included, keeps the invariant: canonical banks, the latch, buffer sizes, a checked table and
its reverse index (R32, R35, R36, R37, R150). -/
def Obligations.StepKeepsInv : Prop :=
  ∀ s t : State, s.Inv → step s = .next t → t.Inv

/-- Every write has landed by the time a command responds: a step keeps the rule that each W event is followed by a read of its
location or a barrier, and after it each W event of TRACE is landed at its position (R55, R62, R210). -/
def Obligations.StepKeepsWritesLanded : Prop :=
  ∀ s t : State, s.Inv → allLanded s.trace = true → step s = .next t →
    allLanded t.trace = true ∧
    ∀ i b o v, t.trace[i]? = some (.write b o v) → landed t.trace i = true

/-- A run of commands and power losses from a state not FAULTED has a Fatal or SequenceError response exactly when it
ends FAULTED (R205). -/
def Obligations.RunFaultedIffEndsFaulted : Prop :=
  ∀ (s : State) (o : Observation),
    (∀ m ∈ s.host, (∃ c, m = .command c) ∨ ∃ draw, m = .powerLoss draw) → s.lc ≠ .faulted →
    observeRun s = some o → (o.faulted = true ↔ o.lc = .faulted)

/-! ### Queries and the reverse index (40_resolver.md) -/

/-- The count and table queries answer from the table, in READY and SUSPENDED, and change nothing but the response (R101 to
R105). -/
def Obligations.TableQueriesAnswer : Prop :=
  ∀ (s : State) (x : Half), (s.lc = .ready ∨ s.lc = .suspended) →
    exec .groupCount s = .next { s with rsp := ⟨.ok, [BitVec.ofNat 32 s.chip.groups.length], []⟩ } ∧
    exec .functionCount s = .next { s with rsp := ⟨.ok, [BitVec.ofNat 32 s.chip.funcs.length], []⟩ } ∧
    (∀ g, s.chip.groups[x.toNat]? = some g →
      exec (.groupName x) s = .next { s with rsp := ⟨.ok, [], [g.name]⟩ } ∧
      exec (.groupPins x) s = .next { s with
        rsp := ⟨.ok, [BitVec.ofNat 32 g.pins.length] ++ g.pins.map (BitVec.ofNat 32), []⟩ }) ∧
    (∀ f, s.chip.funcs[x.toNat]? = some f →
      exec (.functionName x) s = .next { s with rsp := ⟨.ok, [], [f.name]⟩ })

/-- FUNCTION_GROUPS answers the count and the names, in table order, of the groups that have a mux field and name the function
in a slot, and changes nothing but the response (R106, R110). -/
def Obligations.FunctionGroupsAnswers : Prop :=
  ∀ (s : State) (x : Half), s.Inv → (s.lc = .ready ∨ s.lc = .suspended) →
    x.toNat < s.chip.funcs.length →
    ∃ gs, gs = s.chip.groups.filter (fun g => fieldPresent g.mux &&
        [g.funcs.slot0, g.funcs.slot1, g.funcs.slot2, g.funcs.slot3].contains (some x.toNat)) ∧
      exec (.functionGroups x) s = .next { s with
        rsp := ⟨.ok, [BitVec.ofNat 32 gs.length], gs.map GroupDesc.name⟩ }

/-- A group or function index outside the table raises Fatal(IndexOutOfRange) with no bus access: in READY for every command
that takes one, in SUSPENDED for the four queries that R182 accepts there (R100, R171, R182). -/
def Obligations.IndexOutOfRangeRaises : Prop :=
  ∀ (s : State) (x : Half) (i : Instr),
    (s.lc = .ready ∧ s.chip.groups.length ≤ x.toNat ∧ ((∃ f, i = .setMux f x) ∨ (∃ p, i = .confGet x p) ∨
        (∃ es, i = .confSet x es) ∨ (i = .dumpGroup x ∧ s.chip.hasDumpGroup = true)) ∨
      (s.lc = .ready ∨ s.lc = .suspended) ∧
        (s.chip.groups.length ≤ x.toNat ∧ (i = .groupName x ∨ i = .groupPins x) ∨
          s.chip.funcs.length ≤ x.toNat ∧ (i = .functionName x ∨ i = .functionGroups x))) →
    exec i s = .next { s with
      fault := some (s.fault.getD .indexOutOfRange), lc := .faulted, rsp := ⟨.fatal, [], []⟩ }

/-- After an OK INIT, g is in FG[f] exactly when g has a mux field and f is in one of its slots, and FG[f] is strictly
ascending (R111). -/
def Obligations.ReverseIndexIsExact : Prop :=
  ∀ s t : State, exec .init s = .next t → t.rsp.status = .ok →
    ∀ f, f < s.chip.funcs.length → ∃ l, t.fg[f]? = some l ∧ l.Pairwise (· < ·) ∧
      ∀ g, g ∈ l ↔ ∃ d, s.chip.groups[g]? = some d ∧ fieldPresent d.mux = true ∧
        (d.funcs.slot0 = some f ∨ d.funcs.slot1 = some f ∨ d.funcs.slot2 = some f ∨ d.funcs.slot3 = some f)

/-! ### INIT and CLEAR_PARKED (45_lifecycle.md) -/

/-- INIT on a table as W1 to W9 describe it completes: BACKUP has TOTAL zero words, PINBAK PINS zero words, every PINSAVED is
false, FG is built without breaking its bound, LC is PARK_PENDING, and nothing else changes (R112, R150, R151). -/
def Obligations.InitSucceeds : Prop :=
  ∀ s : State, s.lc = .uninit → WellFormedTable s.chip →
    exec .init s = .next { s with
      backup := List.replicate s.chip.words.sum 0
      pinbak := List.replicate s.chip.pins 0
      pinsaved := List.replicate s.chip.pins false
      fg := reverseIndex s.chip
      lc := .parkPending
      rsp := ⟨.ok, [], []⟩ }

/-- INIT refuses every other table, whichever of W1 to W9 it breaks (a half-present or ill-placed location, drive registers and
bits without a register of their own among them; a width, a slot, a pin, a parked mask, a name or a count):
Fatal(MalformedTable), no bus access, no buffer written (R23, R150). -/
def Obligations.InitRefusesBadTable : Prop :=
  ∀ s : State, s.lc = .uninit → ¬ WellFormedTable s.chip →
    exec .init s = .next { s with
      fault := some (s.fault.getD .malformedTable), lc := .faulted, rsp := ⟨.fatal, [], []⟩ }

/-- Every resolved field of a table that passed INIT lies within its register, and the single-bit parameters and
FUNCTION have their fixed widths (R126). -/
def Obligations.ResolvedFieldsFit : Prop :=
  ∀ (s : State) (g : GroupDesc) (p : Param) (r : Resolved), s.Inv → s.Initialised → g ∈ s.chip.groups →
    resolve s.chip g p = .field r →
    mapped s.chip r.bank r.reg = true ∧ 1 ≤ r.width ∧ r.width ≤ 16 ∧ r.bit + r.width ≤ 32 ∧
    (p ∈ [Param.enableInput, .openDrain, .lock, .ioreset, .rcvSel, .highSpeedMode, .schmitt, .padPower] →
      r.width = 1) ∧
    (p = .function → r.width = 2)

/-- CLEAR_PARKED completes: for each group with a mask, in ascending order, the events R, W, R on its register, the word
written being the word read without the mask. With the storage model each word read is the register with the masks of the earlier groups
cleared, each readback is the word written, and every register ends with exactly the bits cleared that the masks on it name. Bytes of no
such register stay (R155, R204). -/
def Obligations.ClearParkedClearsMasks : Prop :=
  ∀ s : State, s.Inv → s.lc = .parkPending →
    ∃ t reads, exec .clearParked s = .next t ∧ t.rsp = ⟨.ok, [], []⟩ ∧ t.lc = .ready ∧
      t = { s with bank := t.bank, trace := t.trace, draws := t.draws, lc := t.lc, rsp := t.rsp } ∧
      reads.length = (parkedGroups s.chip).length ∧
      t.trace = s.trace ++ clearEvents (parkedGroups s.chip) reads ∧
      (∀ g ∈ parkedGroups s.chip, (parkedReg g).isSome = true) ∧
      (∀ a, (∀ g ∈ s.chip.groups, g.parked ≠ 0 → ∀ r, parkedReg g = some r →
          ¬ (flatAddr r.bank.toNat r.reg.toNat ≤ a ∧ a < flatAddr r.bank.toNat r.reg.toNat + 4)) →
        readByte t.bank a = readByte s.bank a) ∧
      (s.chip.readModel = .storage →
        (∀ k g r, (parkedGroups s.chip)[k]? = some g → parkedReg g = some r → ∃ v,
          v = s.wordAt r.bank r.reg &&& ~~~(parkedMaskAt r.bank r.reg ((parkedGroups s.chip).take k)) ∧
          reads[k]? = some (v, v &&& ~~~g.parked)) ∧
        ∀ b o : Int, mapped s.chip b o = true →
          t.wordAt b o = s.wordAt b o &&& ~~~(parkedMaskAt b o s.chip.groups))

/-! ### The mux selector (41_mux.md) -/

/-- SET_MUX, and APPLY_MUX_NAMED by the same group's and function's names, write the lowest slot holding the function into the
2-bit field and set the select bit when the chip drives it; no other bit, byte or field changes (R121, R123, R134). -/
def Obligations.SetMuxSelectsFunction : Prop :=
  ∀ (s : State) (f x : Half) (g : GroupDesc) (slot : Nat) (i : Instr), s.Inv → s.lc = .ready →
    s.chip.groups[x.toNat]? = some g →
    (i = .setMux f x ∨
      ∃ d, s.chip.funcs[f.toNat]? = some d ∧ i = .applyMuxNamed g.name (some d.name)) →
    fieldPresent g.mux = true → slotAt g.funcs slot = some f.toNat →
    (∀ k, k < slot → slotAt g.funcs k ≠ some f.toNat) →
    (s.chip.sfselInMux = true → bitPresent g.sfsel = true) →
    ∃ t v v', exec i s = .next t ∧ WroteRegister g.mux.bank g.mux.reg v v' s t ∧
      (s.chip.readModel = .storage → v = s.wordAt g.mux.bank g.mux.reg) ∧
      ∀ k, k < 32 → v'.getLsbD k =
        if s.chip.sfselInMux = true ∧ k = g.sfsel.bit.toNat then true
        else if g.mux.bit.toNat ≤ k ∧ k < g.mux.bit.toNat + 2 then slot.testBit (k - g.mux.bit.toNat)
        else v.getLsbD k

/-- SET_MUX's failures, in the order it checks them, none with a bus access: no mux field is Unsupported, a function in no
slot InvalidArgument, a missing select bit on a chip that drives it Fatal(MalformedTable) (R121, R123). -/
def Obligations.SetMuxFailures : Prop :=
  ∀ (s : State) (f x : Half) (g : GroupDesc), s.lc = .ready → s.chip.groups[x.toNat]? = some g →
    (fieldPresent g.mux = false →
      exec (.setMux f x) s = .next { s with rsp := ⟨.unsupported, [], []⟩ }) ∧
    (fieldPresent g.mux = true → (∀ k, k < 4 → slotAt g.funcs k ≠ some f.toNat) →
      exec (.setMux f x) s = .next { s with rsp := ⟨.invalidArgument, [], []⟩ }) ∧
    (fieldPresent g.mux = true → (∃ k, k < 4 ∧ slotAt g.funcs k = some f.toNat) →
      s.chip.sfselInMux = true → bitPresent g.sfsel = false →
      exec (.setMux f x) s = .next { s with
        fault := some (s.fault.getD .malformedTable), lc := .faulted, rsp := ⟨.fatal, [], []⟩ })

/-- A second SET_MUX with the same arguments leaves the mux register as the first left it, if nothing wrote that register
between, and still makes its three bus accesses (R122; storage model, as every read-back rule of the spec). -/
def Obligations.SetMuxIdempotent : Prop :=
  ∀ (s t m : State) (f x : Half) (g : GroupDesc), s.Inv → m.Inv → s.chip.readModel = .storage →
    s.chip.groups[x.toNat]? = some g → exec (.setMux f x) s = .next t → t.rsp.status = .ok →
    m.chip = s.chip → m.lc = .ready → m.wordAt g.mux.bank g.mux.reg = t.wordAt g.mux.bank g.mux.reg →
    ∃ u, exec (.setMux f x) m = .next u ∧ u.rsp.status = .ok ∧
      u.wordAt g.mux.bank g.mux.reg = t.wordAt g.mux.bank g.mux.reg ∧
      ∃ v v' back, u.trace = m.trace ++ [.read g.mux.bank.toNat g.mux.reg.toNat v,
        .write g.mux.bank.toNat g.mux.reg.toNat v', .read g.mux.bank.toNat g.mux.reg.toNat back]

/-- After an OK SET_MUX, CONF_GET of FUNCTION reads back a slot that holds the function, and the current function is that one
(R116, R124; storage model). The spec's R124 has no condition on the select bit; where a table lays it over the mux field the OR of
R121 step 4 changes the slot, so the statement asks that it lie outside. -/
def Obligations.SetMuxReadsBack : Prop :=
  ∀ (s t : State) (f x : Half) (g : GroupDesc), s.Inv → s.chip.readModel = .storage →
    s.chip.groups[x.toNat]? = some g → exec (.setMux f x) s = .next t → t.rsp.status = .ok →
    (s.chip.sfselInMux = true → g.sfsel.bit < g.mux.bit ∨ g.mux.bit + 2 ≤ g.sfsel.bit) →
    t.currentFunction g = some f.toNat ∧
    ∃ u slot, slotAt g.funcs slot = some f.toNat ∧ (∀ k, k < slot → slotAt g.funcs k ≠ some f.toNat) ∧
      exec (.confGet x ⟨16, 0⟩) t = .next u ∧ u.rsp = ⟨.ok, [BitVec.ofNat 32 (16 * 65536 + slot)], []⟩

/-- The select state machine: SET_MUX gives the pins to SFIO, GPIO_REQUEST_ENABLE to GPIO, and CONF_SET of FUNCTION leaves the owner
as it was when the select bit lies outside the mux field (R117, R118; storage model). -/
def Obligations.OwnershipTransitions : Prop :=
  ∀ (s t : State) (g : GroupDesc) (x : Half), s.Inv → s.lc = .ready → s.chip.readModel = .storage →
    s.chip.sfselInMux = true → s.chip.groups[x.toNat]? = some g → fieldPresent g.mux = true →
    bitPresent g.sfsel = true → t.rsp.status = .ok →
    (∀ f, exec (.setMux f x) s = .next t → t.owner g = some .sfio) ∧
    (∀ p : Half, g.pins = [p.toNat] → exec (.gpioRequestEnable p) s = .next t → t.owner g = some .gpio) ∧
    (∀ v, (g.sfsel.bit < g.mux.bit ∨ g.mux.bit + 2 ≤ g.sfsel.bit) →
      exec (.confSet x [⟨16, v⟩]) s = .next t → t.owner g = s.owner g)

/-! ### Configuration parameters (42_config.md) -/

/-- CONF_GET answers PACK(tag, value): the field shifted and masked, for PAD_POWER the complement of its bit; one R event and no
other change, whatever the argument half says (R127, R128). -/
def Obligations.ConfGetReadsField : Prop :=
  ∀ (s : State) (x : Half) (w : ConfWord) (g : GroupDesc) (p : Param) (r : Resolved), s.Inv → s.lc = .ready →
    s.chip.groups[x.toNat]? = some g → Param.ofTag w.tag = some p → resolve s.chip g p = .field r →
    ∃ t v val, exec (.confGet x w) s = .next t ∧
      t = { s with
        trace := s.trace ++ [.read r.bank.toNat r.reg.toNat v]
        draws := t.draws
        rsp := ⟨.ok, [BitVec.ofNat 32 (w.tag.toNat * 65536 + val)], []⟩ } ∧
      (s.chip.readModel = .storage → v = s.wordAt r.bank r.reg) ∧
      (p ≠ .padPower → val = v.toNat / 2 ^ r.bit % 2 ^ r.width) ∧
      (p = .padPower → val = if v.getLsbD r.bit then 0 else 1)

/-- A tag of 18 or more, or a parameter the group has no field for, is Unsupported, with no bus access and no other change, in
CONF_GET, CONF_SET and APPLY_CONF_NAMED (R84, R125, R127, R129, R135). -/
def Obligations.UnsupportedParameter : Prop :=
  ∀ (s : State) (x : Half) (w : ConfWord) (es : List ConfWord) (g : GroupDesc) (i : Instr), s.Inv →
    s.lc = .ready → s.chip.groups[x.toNat]? = some g →
    (18 ≤ w.tag.toNat ∨ ∃ p, Param.ofTag w.tag = some p ∧ resolve s.chip g p = .unsupported) →
    (i = .confGet x w ∨ i = .confSet x (w :: es) ∨ i = .applyConfNamed g.name (w :: es)) →
    exec i s = .next { s with rsp := ⟨.unsupported, [], []⟩ }

/-- One entry of CONF_SET or APPLY_CONF_NAMED writes its field and no other bit: the argument, coerced to 0 or 1 for a width-1 field,
its logical NOT for PAD_POWER. Events R, W, R, with one more R first for LOCK (R128, R129, R131, R135). -/
def Obligations.ConfSetWritesField : Prop :=
  ∀ (s : State) (x : Half) (w : ConfWord) (g : GroupDesc) (p : Param) (r : Resolved) (i : Instr), s.Inv →
    s.lc = .ready → s.chip.groups[x.toNat]? = some g →
    (i = .confSet x [w] ∨ i = .applyConfNamed g.name [w]) →
    Param.ofTag w.tag = some p → resolve s.chip g p = .field r →
    (r.width = 1 ∨ w.arg.toNat < 2 ^ r.width) → (p = .lock → w.arg ≠ 0) →
    ∃ t v v' pre, exec i s = .next t ∧
      (∃ back, t.trace = s.trace ++ pre ++
        [.read r.bank.toNat r.reg.toNat v, .write r.bank.toNat r.reg.toNat v',
          .read r.bank.toNat r.reg.toNat back]) ∧
      (p ≠ .lock → pre = []) ∧ (p = .lock → ∃ cur, pre = [.read r.bank.toNat r.reg.toNat cur]) ∧
      t.wordAt r.bank r.reg = v' ∧ BytesKeptBut r.bank r.reg s t ∧ OnlyBus s t ∧ t.rsp = ⟨.ok, [], []⟩ ∧
      (s.chip.readModel = .storage → v = s.wordAt r.bank r.reg) ∧
      ∀ k, k < 32 → v'.getLsbD k =
        if r.bit ≤ k ∧ k < r.bit + r.width then
          (if p = .padPower then (if w.arg = 0 then 1 else 0)
            else if r.width = 1 then (if w.arg = 0 then 0 else 1)
            else w.arg.toNat).testBit (k - r.bit)
        else v.getLsbD k

/-- A field of width 2 or more rejects every argument that does not fit it, with no bus access and no other change; this is the half
of the asymmetry a width-1 field does not share (R129 step 5, R131). -/
def Obligations.ConfSetRangeCheck : Prop :=
  ∀ (s : State) (x : Half) (w : ConfWord) (es : List ConfWord) (g : GroupDesc) (p : Param) (r : Resolved),
    s.Inv → s.lc = .ready → s.chip.groups[x.toNat]? = some g → Param.ofTag w.tag = some p →
    resolve s.chip g p = .field r → 2 ≤ r.width → 2 ^ r.width ≤ w.arg.toNat →
    exec (.confSet x (w :: es)) s = .next { s with rsp := ⟨.invalidArgument, [], []⟩ } ∧
    exec (.applyConfNamed g.name (w :: es)) s = .next { s with rsp := ⟨.invalidArgument, [], []⟩ }

/-- A lock field that holds 1: the entry (LOCK, 0) fails with InvalidArgument after one read and changes nothing, and (LOCK, v) with v
not 0 succeeds and leaves it 1 (R129 step 3, R130; storage model). A lock field that holds 0 takes (LOCK, 0). -/
def Obligations.LockCannotBeCleared : Prop :=
  ∀ (s : State) (x : Half) (g : GroupDesc) (r : Resolved), s.Inv → s.lc = .ready →
    s.chip.readModel = .storage → s.chip.groups[x.toNat]? = some g → resolve s.chip g .lock = .field r →
    ((s.wordAt r.bank r.reg).getLsbD r.bit = true →
      exec (.confSet x [⟨4, 0⟩]) s = .next { s with
        trace := s.trace ++ [.read r.bank.toNat r.reg.toNat (s.wordAt r.bank r.reg)]
        rsp := ⟨.invalidArgument, [], []⟩ } ∧
      ∀ v : Half, v ≠ 0 → ∃ t, exec (.confSet x [⟨4, v⟩]) s = .next t ∧ t.rsp.status = .ok ∧
        (t.wordAt r.bank r.reg).getLsbD r.bit = true) ∧
    ((s.wordAt r.bank r.reg).getLsbD r.bit = false →
      ∃ t, exec (.confSet x [⟨4, 0⟩]) s = .next t ∧ t.rsp.status = .ok ∧
        t.wordAt r.bank r.reg = s.wordAt r.bank r.reg)

/-- No CONF_SET, whatever its entries and however it ends, clears a set lock bit that no other field of the group overlaps
(R130; storage model). -/
def Obligations.LockSurvivesConfSet : Prop :=
  ∀ (s t : State) (x : Half) (g : GroupDesc) (r : Resolved) (es : List ConfWord), s.Inv →
    s.chip.readModel = .storage → s.chip.groups[x.toNat]? = some g → resolve s.chip g .lock = .field r →
    (∀ p q, p ≠ .lock → resolve s.chip g p = .field q →
      (q.bank, q.reg) ≠ (r.bank, r.reg) ∨ r.bit < q.bit ∨ q.bit + q.width ≤ r.bit) →
    s.lc = .ready → (s.wordAt r.bank r.reg).getLsbD r.bit = true →
    exec (.confSet x es) s = .next t → (t.wordAt r.bank r.reg).getLsbD r.bit = true

/-- Entries are applied in the given order and the first failure ends the command with what was applied in place: a list acts as
its first entry, then, if that succeeded, as the rest. The empty list is OK and changes nothing (R129, R173, R215). -/
def Obligations.ConfSetEntriesInOrder : Prop :=
  (∀ (x : Half) (e : ConfWord) (es : List ConfWord) (s t : State), exec (.confSet x [e]) s = .next t →
    (t.rsp.status = .ok → exec (.confSet x (e :: es)) s = exec (.confSet x es) t) ∧
    (t.rsp.status ≠ .ok → exec (.confSet x (e :: es)) s = .next t)) ∧
  ∀ (x : Half) (g : GroupDesc) (s : State), s.lc = .ready → s.chip.groups[x.toNat]? = some g →
    exec (.confSet x []) s = .next { s with rsp := ⟨.ok, [], []⟩ }

/-- PAD_POWER set then read: the value read back is the truth of the value set, and the bit stored is its complement
(R128; storage model). -/
def Obligations.PadPowerIsInverted : Prop :=
  ∀ (s : State) (x v : Half) (g : GroupDesc) (r : Resolved), s.Inv → s.lc = .ready →
    s.chip.readModel = .storage → s.chip.groups[x.toNat]? = some g → resolve s.chip g .padPower = .field r →
    ∃ t u, exec (.confSet x [⟨17, v⟩]) s = .next t ∧ t.rsp.status = .ok ∧
      (t.wordAt r.bank r.reg).getLsbD r.bit = decide (v = 0) ∧
      exec (.confGet x ⟨17, 0⟩) t = .next u ∧
      u.rsp = ⟨.ok, [if v = 0 then 0x00110000 else 0x00110001], []⟩

/-- DUMP_GROUP answers OK and reads each supported parameter's register once, in tag order, with no other change; with the storage
model its words are what CONF_GET answers for each of the tags 0 to 17, in tag order, and its names the current function's name, "" for an
empty slot, when the group has a mux field (R132). Without HAS_DUMP_GROUP the command is illegal (R83; for the decoded form,
assumption log 18). -/
def Obligations.DumpGroupReportsParameters : Prop :=
  (∀ (s : State) (x : Half) (g : GroupDesc), s.Inv → s.lc = .ready → s.chip.hasDumpGroup = true →
    s.chip.groups[x.toNat]? = some g →
    ∃ t vs, exec (.dumpGroup x) s = .next t ∧
      vs.length = (supportedFields s.chip g).length ∧
      t.rsp.words.length = (supportedFields s.chip g).length ∧
      t = { s with
        trace := s.trace ++ (supportedFields s.chip g).zipWith
          (fun r v => BusEvent.read r.bank.toNat r.reg.toNat v) vs
        draws := t.draws
        rsp := t.rsp } ∧
      t.rsp.status = .ok ∧
      (s.chip.readModel = .storage →
        t.rsp.words = (List.range 18).flatMap (fun tag =>
          match exec (.confGet x ⟨BitVec.ofNat 16 tag, 0⟩) s with
          | .next u => u.rsp.words
          | _ => []) ∧
        t.rsp.names = if fieldPresent g.mux then
            [((s.currentFunction g).bind fun f => s.chip.funcs[f]?.map FunctionDesc.name).getD ""]
          else [])) ∧
  ∀ (s : State) (x : Half), s.chip.hasDumpGroup = false → s.lc ≠ .faulted →
    exec (.dumpGroup x) s = .next { s with rsp := ⟨.illegalCommand, [], []⟩ }

/-! ### Named requests (43_requests.md) -/

/-- A named request with known names acts as the command by the ids those names have (R133, R134, R135). -/
def Obligations.NamedRequestsActById : Prop :=
  ∀ (s : State) (x f : Half) (g : GroupDesc) (d : FunctionDesc) (es : List ConfWord), s.Inv → s.lc = .ready →
    s.chip.groups[x.toNat]? = some g → s.chip.funcs[f.toNat]? = some d →
    exec (.applyMuxNamed g.name (some d.name)) s = exec (.setMux f x) s ∧
    exec (.applyConfNamed g.name es) s = exec (.confSet x es) s

/-- A known group with no function or no entries is OK and changes nothing; an unknown group name, or an unknown function name, is
InvalidArgument with no bus access (R133, R134, R135). -/
def Obligations.NamedRequestsCheckNames : Prop :=
  ∀ (s : State) (n m : Name) (fo : Option Name) (es : List ConfWord), s.lc = .ready →
    ((∃ g ∈ s.chip.groups, g.name = n) →
      exec (.applyMuxNamed n none) s = .next { s with rsp := ⟨.ok, [], []⟩ } ∧
      exec (.applyConfNamed n []) s = .next { s with rsp := ⟨.ok, [], []⟩ } ∧
      ((∀ f ∈ s.chip.funcs, f.name ≠ m) →
        exec (.applyMuxNamed n (some m)) s = .next { s with rsp := ⟨.invalidArgument, [], []⟩ })) ∧
    ((∀ g ∈ s.chip.groups, g.name ≠ n) →
      exec (.applyMuxNamed n fo) s = .next { s with rsp := ⟨.invalidArgument, [], []⟩ } ∧
      exec (.applyConfNamed n es) s = .next { s with rsp := ⟨.invalidArgument, [], []⟩ })

/-! ### GPIO hand-off (44_gpio_handoff.md) -/

/-- A pin with no single-pin group, a pin outside the table among them, is NotFound in all four hand-off commands, with no
other change (R138, R140 to R143). -/
def Obligations.HandoffNotFound : Prop :=
  ∀ (s : State) (p : Half) (i : Instr), s.lc = .ready → (∀ g ∈ s.chip.groups, g.pins ≠ [p.toNat]) →
    (i = .saveConfig p ∨ i = .restoreConfig p ∨ i = .gpioRequestEnable p ∨ i = .gpioDisableFree p) →
    exec i s = .next { s with rsp := ⟨.notFound, [], []⟩ }

/-- SAVE_CONFIG reads the whole mux word into PINBAK[p] and sets PINSAVED[p], and nothing else but the R event changes; a group
without a mux field saves nothing (R140). -/
def Obligations.SaveConfigSavesWord : Prop :=
  ∀ (s : State) (p : Half) (g : GroupDesc), s.Inv → s.lc = .ready → g ∈ s.chip.groups → g.pins = [p.toNat] →
    (fieldPresent g.mux = true → ∃ t v, exec (.saveConfig p) s = .next t ∧
      t = { s with
        pinbak := s.pinbak.set p.toNat v
        pinsaved := s.pinsaved.set p.toNat true
        trace := s.trace ++ [.read g.mux.bank.toNat g.mux.reg.toNat v]
        draws := t.draws
        rsp := ⟨.ok, [], []⟩ } ∧
      t.pinbak[p.toNat]? = some v ∧ t.pinsaved[p.toNat]? = some true ∧
      (s.chip.readModel = .storage → v = s.wordAt g.mux.bank g.mux.reg)) ∧
    (fieldPresent g.mux = false → exec (.saveConfig p) s = .next { s with rsp := ⟨.ok, [], []⟩ })

/-- RESTORE_CONFIG and GPIO_DISABLE_FREE write the saved word back whole and keep it saved; a group without a mux field restores
nothing; with no save since INIT they raise SequenceError (R141, R143). -/
def Obligations.RestoreWritesSavedWord : Prop :=
  ∀ (s : State) (p : Half) (g : GroupDesc) (i : Instr), s.Inv → s.lc = .ready → g ∈ s.chip.groups →
    g.pins = [p.toNat] → (i = .restoreConfig p ∨ i = .gpioDisableFree p) →
    (fieldPresent g.mux = true → s.pinsaved[p.toNat]? = some true → ∀ v, s.pinbak[p.toNat]? = some v →
      ∃ t back, exec i s = .next t ∧ t.rsp = ⟨.ok, [], []⟩ ∧ OnlyBus s t ∧
        t.trace = s.trace ++ [.write g.mux.bank.toNat g.mux.reg.toNat v,
          .read g.mux.bank.toNat g.mux.reg.toNat back] ∧
        t.wordAt g.mux.bank g.mux.reg = v ∧ BytesKeptBut g.mux.bank g.mux.reg s t) ∧
    (fieldPresent g.mux = true → s.pinsaved[p.toNat]? = some false →
      exec i s = .next { s with
        fault := some (s.fault.getD .sequence), lc := .faulted, rsp := ⟨.sequenceError, [], []⟩ }) ∧
    (fieldPresent g.mux = false → exec i s = .next { s with rsp := ⟨.ok, [], []⟩ })

/-- GPIO_REQUEST_ENABLE saves as SAVE_CONFIG does, then clears the select bit and no other bit; events R, R, W, R (R142). -/
def Obligations.GpioRequestTakesPin : Prop :=
  ∀ (s : State) (p : Half) (g : GroupDesc), s.Inv → s.lc = .ready → s.chip.sfselInMux = true →
    g ∈ s.chip.groups → g.pins = [p.toNat] → fieldPresent g.mux = true → bitPresent g.sfsel = true →
    ∃ m t v v', exec (.saveConfig p) s = .next m ∧ exec (.gpioRequestEnable p) s = .next t ∧
      WroteRegister g.mux.bank g.mux.reg v v' m t ∧
      (s.chip.readModel = .storage → v = s.wordAt g.mux.bank g.mux.reg) ∧
      ∀ k, k < 32 → v'.getLsbD k = if k = g.sfsel.bit.toNat then false else v.getLsbD k

/-- With the select flag clear GPIO_REQUEST_ENABLE is SAVE_CONFIG; with it set, a group without a mux field or a select bit gives
InvalidArgument after the save (R142). -/
def Obligations.GpioRequestWithoutSelectBit : Prop :=
  ∀ (s : State) (p : Half), s.lc = .ready →
    (s.chip.sfselInMux = false → exec (.gpioRequestEnable p) s = exec (.saveConfig p) s) ∧
    ∀ g, s.Inv → s.chip.sfselInMux = true → g ∈ s.chip.groups → g.pins = [p.toNat] →
      (fieldPresent g.mux = false ∨ bitPresent g.sfsel = false) →
      ∃ m, exec (.saveConfig p) s = .next m ∧ m.rsp.status = .ok ∧
        exec (.gpioRequestEnable p) s = .next { m with rsp := ⟨.invalidArgument, [], []⟩ }

/-- SAVE_CONFIG then RESTORE_CONFIG leave the mux register bit for bit as it was, and with it all of BANK (R144; storage model). -/
def Obligations.SaveRestoreSymmetry : Prop :=
  ∀ (s : State) (p : Half) (g : GroupDesc), s.Inv → s.lc = .ready → s.chip.readModel = .storage →
    g ∈ s.chip.groups → g.pins = [p.toNat] →
    ∃ m t, exec (.saveConfig p) s = .next m ∧ exec (.restoreConfig p) m = .next t ∧ t.rsp.status = .ok ∧
      t.wordAt g.mux.bank g.mux.reg = s.wordAt g.mux.bank g.mux.reg ∧ t.bank = s.bank

/-- GPIO_REQUEST_ENABLE, then anything that leaves the saved word of the pin alone, then GPIO_DISABLE_FREE give the mux register its
value before the request, whatever was written to it between (R145, R216; storage model). The spec's R145 asks only that the register is
not written between; a second SAVE_CONFIG of the pin would also replace the saved word, so the statement asks that it stay. -/
def Obligations.HandoffRoundTrip : Prop :=
  ∀ (s t m u : State) (p : Half) (g : GroupDesc), s.Inv → s.lc = .ready → s.chip.readModel = .storage →
    s.chip.sfselInMux = true → g ∈ s.chip.groups → g.pins = [p.toNat] → fieldPresent g.mux = true →
    bitPresent g.sfsel = true → exec (.gpioRequestEnable p) s = .next t →
    m.Inv → m.lc = .ready → m.chip = s.chip → m.pinbak[p.toNat]? = t.pinbak[p.toNat]? →
    m.pinsaved[p.toNat]? = t.pinsaved[p.toNat]? → exec (.gpioDisableFree p) m = .next u →
    u.rsp.status = .ok ∧ u.wordAt g.mux.bank g.mux.reg = s.wordAt g.mux.bank g.mux.reg

/-! ### Suspend and resume (45_lifecycle.md) -/

/-- SUSPEND reads every bank word once, in bank order then word order, into BACKUP, and enters SUSPENDED; the banks are unchanged
(R160, R162). -/
def Obligations.SuspendDrainsBanks : Prop :=
  ∀ s : State, s.Inv → s.lc = .ready →
    ∃ t, exec .suspend s = .next t ∧ t.rsp = ⟨.ok, [], []⟩ ∧ t.lc = .suspended ∧
      t = { s with backup := t.backup, trace := t.trace, draws := t.draws, lc := t.lc, rsp := t.rsp } ∧
      t.backup.length = s.chip.words.sum ∧
      t.trace = s.trace ++ (cursorWords s.chip).zipWith
        (fun x v => BusEvent.read x.1 (4 * x.2) v) t.backup ∧
      (s.chip.readModel = .storage → ∀ b w n, s.chip.words[b]? = some n → w < n →
        t.backup[(s.chip.words.take b).sum + w]? = some (s.bankWord b w))

/-- RESUME writes every bank word back from its place in BACKUP, in the same order and without readback, then makes one read of bank 0
offset 0 and a barrier, and enters READY (R161, R162, R213). -/
def Obligations.ResumeRefillsBanks : Prop :=
  ∀ s : State, s.Inv → s.lc = .suspended →
    ∃ t dummy, exec .resume s = .next t ∧ t.rsp = ⟨.ok, [], []⟩ ∧ t.lc = .ready ∧
      t = { s with bank := t.bank, trace := t.trace, draws := t.draws, lc := t.lc, rsp := t.rsp } ∧
      t.trace = s.trace ++ (cursorWords s.chip).zipWith
        (fun x v => BusEvent.write x.1 (4 * x.2) v) s.backup ++ [.read 0 0 dummy, .barrier] ∧
      (∀ b w n, s.chip.words[b]? = some n → w < n →
        s.backup[(s.chip.words.take b).sum + w]? = some (t.bankWord b w)) ∧
      ∀ a, (∀ b w n, s.chip.words[b]? = some n → w < n →
          ¬ (flatAddr b (4 * w) ≤ a ∧ a < flatAddr b (4 * w) + 4)) →
        readByte t.bank a = readByte s.bank a

/-- SUSPEND, then any power losses, then RESUME restore the banks exactly (R163; storage model). -/
def Obligations.SuspendResumeRestoresBanks : Prop :=
  ∀ (s : State) (draw : List BankDraw), s.Inv → s.lc = .ready → s.chip.readModel = .storage →
    (∀ d ∈ draw, mapped s.chip d.bank (4 * d.word) = true) →
    ∃ m t, exec .suspend s = .next m ∧ m.rsp.status = .ok ∧ admitsPowerLoss m draw = true ∧
      exec .resume (m.drawBanks draw) = .next t ∧ t.rsp.status = .ok ∧ t.lc = .ready ∧ t.bank = s.bank
end

