-- ==== Sys2Proof/Laws/State.lean ====
section
/-! SUPPORT. One lemma per field per update of the state, each true by `rfl`. -/

namespace Sys2Proof.Machine

variable (s : State)

/-! ### State.answer -/

@[simp] theorem State.answer_chip (st : Status) : (s.answer st).chip = s.chip := rfl
@[simp] theorem State.answer_cmd (st : Status) : (s.answer st).cmd = s.cmd := rfl
@[simp] theorem State.answer_arg (st : Status) : (s.answer st).arg = s.arg := rfl
@[simp] theorem State.answer_namearg (st : Status) : (s.answer st).namearg = s.namearg := rfl
@[simp] theorem State.answer_rsp (st : Status) : (s.answer st).rsp = ⟨st, [], []⟩ := rfl
@[simp] theorem State.answer_lc (st : Status) : (s.answer st).lc = s.lc := rfl
@[simp] theorem State.answer_fault (st : Status) : (s.answer st).fault = s.fault := rfl
@[simp] theorem State.answer_bank (st : Status) : (s.answer st).bank = s.bank := rfl
@[simp] theorem State.answer_backup (st : Status) : (s.answer st).backup = s.backup := rfl
@[simp] theorem State.answer_pinbak (st : Status) : (s.answer st).pinbak = s.pinbak := rfl
@[simp] theorem State.answer_pinsaved (st : Status) : (s.answer st).pinsaved = s.pinsaved := rfl
@[simp] theorem State.answer_fg (st : Status) : (s.answer st).fg = s.fg := rfl
@[simp] theorem State.answer_trace (st : Status) : (s.answer st).trace = s.trace := rfl
@[simp] theorem State.answer_draws (st : Status) : (s.answer st).draws = s.draws := rfl
@[simp] theorem State.answer_host (st : Status) : (s.answer st).host = s.host := rfl

/-! ### State.raise -/

@[simp] theorem State.raise_chip (k : LatchKind) (c : FaultCause) : (s.raise k c).chip = s.chip := rfl
@[simp] theorem State.raise_cmd (k : LatchKind) (c : FaultCause) : (s.raise k c).cmd = s.cmd := rfl
@[simp] theorem State.raise_arg (k : LatchKind) (c : FaultCause) : (s.raise k c).arg = s.arg := rfl
@[simp] theorem State.raise_namearg (k : LatchKind) (c : FaultCause) : (s.raise k c).namearg = s.namearg := rfl
@[simp] theorem State.raise_rsp (k : LatchKind) (c : FaultCause) : (s.raise k c).rsp = ⟨k.status, [], []⟩ := rfl
@[simp] theorem State.raise_lc (k : LatchKind) (c : FaultCause) : (s.raise k c).lc = .faulted := rfl
@[simp] theorem State.raise_fault (k : LatchKind) (c : FaultCause) : (s.raise k c).fault = some (s.fault.getD c) := rfl
@[simp] theorem State.raise_bank (k : LatchKind) (c : FaultCause) : (s.raise k c).bank = s.bank := rfl
@[simp] theorem State.raise_backup (k : LatchKind) (c : FaultCause) : (s.raise k c).backup = s.backup := rfl
@[simp] theorem State.raise_pinbak (k : LatchKind) (c : FaultCause) : (s.raise k c).pinbak = s.pinbak := rfl
@[simp] theorem State.raise_pinsaved (k : LatchKind) (c : FaultCause) : (s.raise k c).pinsaved = s.pinsaved := rfl
@[simp] theorem State.raise_fg (k : LatchKind) (c : FaultCause) : (s.raise k c).fg = s.fg := rfl
@[simp] theorem State.raise_trace (k : LatchKind) (c : FaultCause) : (s.raise k c).trace = s.trace := rfl
@[simp] theorem State.raise_draws (k : LatchKind) (c : FaultCause) : (s.raise k c).draws = s.draws := rfl
@[simp] theorem State.raise_host (k : LatchKind) (c : FaultCause) : (s.raise k c).host = s.host := rfl

/-! ### State.replied -/

@[simp] theorem State.replied_chip (ws : List Word) (ns : List Name) : (s.replied ws ns).chip = s.chip := rfl
@[simp] theorem State.replied_cmd (ws : List Word) (ns : List Name) : (s.replied ws ns).cmd = s.cmd := rfl
@[simp] theorem State.replied_arg (ws : List Word) (ns : List Name) : (s.replied ws ns).arg = s.arg := rfl
@[simp] theorem State.replied_namearg (ws : List Word) (ns : List Name) : (s.replied ws ns).namearg = s.namearg := rfl
@[simp] theorem State.replied_rsp (ws : List Word) (ns : List Name) : (s.replied ws ns).rsp = ⟨.ok, ws, ns⟩ := rfl
@[simp] theorem State.replied_lc (ws : List Word) (ns : List Name) : (s.replied ws ns).lc = s.lc := rfl
@[simp] theorem State.replied_fault (ws : List Word) (ns : List Name) : (s.replied ws ns).fault = s.fault := rfl
@[simp] theorem State.replied_bank (ws : List Word) (ns : List Name) : (s.replied ws ns).bank = s.bank := rfl
@[simp] theorem State.replied_backup (ws : List Word) (ns : List Name) : (s.replied ws ns).backup = s.backup := rfl
@[simp] theorem State.replied_pinbak (ws : List Word) (ns : List Name) : (s.replied ws ns).pinbak = s.pinbak := rfl
@[simp] theorem State.replied_pinsaved (ws : List Word) (ns : List Name) : (s.replied ws ns).pinsaved = s.pinsaved := rfl
@[simp] theorem State.replied_fg (ws : List Word) (ns : List Name) : (s.replied ws ns).fg = s.fg := rfl
@[simp] theorem State.replied_trace (ws : List Word) (ns : List Name) : (s.replied ws ns).trace = s.trace := rfl
@[simp] theorem State.replied_draws (ws : List Word) (ns : List Name) : (s.replied ws ns).draws = s.draws := rfl
@[simp] theorem State.replied_host (ws : List Word) (ns : List Name) : (s.replied ws ns).host = s.host := rfl

/-! ### State.afterRead -/

@[simp] theorem State.afterRead_chip (b o : Nat) : (s.afterRead b o).chip = s.chip := rfl
@[simp] theorem State.afterRead_cmd (b o : Nat) : (s.afterRead b o).cmd = s.cmd := rfl
@[simp] theorem State.afterRead_arg (b o : Nat) : (s.afterRead b o).arg = s.arg := rfl
@[simp] theorem State.afterRead_namearg (b o : Nat) : (s.afterRead b o).namearg = s.namearg := rfl
@[simp] theorem State.afterRead_rsp (b o : Nat) : (s.afterRead b o).rsp = s.rsp := rfl
@[simp] theorem State.afterRead_lc (b o : Nat) : (s.afterRead b o).lc = s.lc := rfl
@[simp] theorem State.afterRead_fault (b o : Nat) : (s.afterRead b o).fault = s.fault := rfl
@[simp] theorem State.afterRead_bank (b o : Nat) : (s.afterRead b o).bank = s.bank := rfl
@[simp] theorem State.afterRead_backup (b o : Nat) : (s.afterRead b o).backup = s.backup := rfl
@[simp] theorem State.afterRead_pinbak (b o : Nat) : (s.afterRead b o).pinbak = s.pinbak := rfl
@[simp] theorem State.afterRead_pinsaved (b o : Nat) : (s.afterRead b o).pinsaved = s.pinsaved := rfl
@[simp] theorem State.afterRead_fg (b o : Nat) : (s.afterRead b o).fg = s.fg := rfl
@[simp] theorem State.afterRead_trace (b o : Nat) : (s.afterRead b o).trace = s.trace ++ [.read b o (bankAnswer s b o)] := rfl
@[simp] theorem State.afterRead_draws (b o : Nat) : (s.afterRead b o).draws = drawsAfterRead s := rfl
@[simp] theorem State.afterRead_host (b o : Nat) : (s.afterRead b o).host = s.host := rfl

/-! ### State.afterWrite -/

@[simp] theorem State.afterWrite_chip (b o : Nat) (v : Word) : (s.afterWrite b o v).chip = s.chip := rfl
@[simp] theorem State.afterWrite_cmd (b o : Nat) (v : Word) : (s.afterWrite b o v).cmd = s.cmd := rfl
@[simp] theorem State.afterWrite_arg (b o : Nat) (v : Word) : (s.afterWrite b o v).arg = s.arg := rfl
@[simp] theorem State.afterWrite_namearg (b o : Nat) (v : Word) : (s.afterWrite b o v).namearg = s.namearg := rfl
@[simp] theorem State.afterWrite_rsp (b o : Nat) (v : Word) : (s.afterWrite b o v).rsp = s.rsp := rfl
@[simp] theorem State.afterWrite_lc (b o : Nat) (v : Word) : (s.afterWrite b o v).lc = s.lc := rfl
@[simp] theorem State.afterWrite_fault (b o : Nat) (v : Word) : (s.afterWrite b o v).fault = s.fault := rfl
@[simp] theorem State.afterWrite_bank (b o : Nat) (v : Word) : (s.afterWrite b o v).bank = writeWord s.bank (flatAddr b o) v := rfl
@[simp] theorem State.afterWrite_backup (b o : Nat) (v : Word) : (s.afterWrite b o v).backup = s.backup := rfl
@[simp] theorem State.afterWrite_pinbak (b o : Nat) (v : Word) : (s.afterWrite b o v).pinbak = s.pinbak := rfl
@[simp] theorem State.afterWrite_pinsaved (b o : Nat) (v : Word) : (s.afterWrite b o v).pinsaved = s.pinsaved := rfl
@[simp] theorem State.afterWrite_fg (b o : Nat) (v : Word) : (s.afterWrite b o v).fg = s.fg := rfl
@[simp] theorem State.afterWrite_trace (b o : Nat) (v : Word) : (s.afterWrite b o v).trace = s.trace ++ [.write b o v] := rfl
@[simp] theorem State.afterWrite_draws (b o : Nat) (v : Word) : (s.afterWrite b o v).draws = s.draws := rfl
@[simp] theorem State.afterWrite_host (b o : Nat) (v : Word) : (s.afterWrite b o v).host = s.host := rfl

/-! ### State.afterMove -/

@[simp] theorem State.afterMove_chip (rest : List HostMove) : (s.afterMove rest).chip = s.chip := rfl
@[simp] theorem State.afterMove_cmd (rest : List HostMove) : (s.afterMove rest).cmd = s.cmd := rfl
@[simp] theorem State.afterMove_arg (rest : List HostMove) : (s.afterMove rest).arg = s.arg := rfl
@[simp] theorem State.afterMove_namearg (rest : List HostMove) : (s.afterMove rest).namearg = s.namearg := rfl
@[simp] theorem State.afterMove_rsp (rest : List HostMove) : (s.afterMove rest).rsp = s.rsp := rfl
@[simp] theorem State.afterMove_lc (rest : List HostMove) : (s.afterMove rest).lc = s.lc := rfl
@[simp] theorem State.afterMove_fault (rest : List HostMove) : (s.afterMove rest).fault = s.fault := rfl
@[simp] theorem State.afterMove_bank (rest : List HostMove) : (s.afterMove rest).bank = s.bank := rfl
@[simp] theorem State.afterMove_backup (rest : List HostMove) : (s.afterMove rest).backup = s.backup := rfl
@[simp] theorem State.afterMove_pinbak (rest : List HostMove) : (s.afterMove rest).pinbak = s.pinbak := rfl
@[simp] theorem State.afterMove_pinsaved (rest : List HostMove) : (s.afterMove rest).pinsaved = s.pinsaved := rfl
@[simp] theorem State.afterMove_fg (rest : List HostMove) : (s.afterMove rest).fg = s.fg := rfl
@[simp] theorem State.afterMove_trace (rest : List HostMove) : (s.afterMove rest).trace = s.trace := rfl
@[simp] theorem State.afterMove_draws (rest : List HostMove) : (s.afterMove rest).draws = s.draws := rfl
@[simp] theorem State.afterMove_host (rest : List HostMove) : (s.afterMove rest).host = rest := rfl

/-! ### State.deliver -/

@[simp] theorem State.deliver_chip (c : Command) : (s.deliver c).chip = s.chip := rfl
@[simp] theorem State.deliver_cmd (c : Command) : (s.deliver c).cmd = c.cmd := rfl
@[simp] theorem State.deliver_arg (c : Command) : (s.deliver c).arg = c.args := rfl
@[simp] theorem State.deliver_namearg (c : Command) : (s.deliver c).namearg = c.names := rfl
@[simp] theorem State.deliver_rsp (c : Command) : (s.deliver c).rsp = s.rsp := rfl
@[simp] theorem State.deliver_lc (c : Command) : (s.deliver c).lc = s.lc := rfl
@[simp] theorem State.deliver_fault (c : Command) : (s.deliver c).fault = s.fault := rfl
@[simp] theorem State.deliver_bank (c : Command) : (s.deliver c).bank = s.bank := rfl
@[simp] theorem State.deliver_backup (c : Command) : (s.deliver c).backup = s.backup := rfl
@[simp] theorem State.deliver_pinbak (c : Command) : (s.deliver c).pinbak = s.pinbak := rfl
@[simp] theorem State.deliver_pinsaved (c : Command) : (s.deliver c).pinsaved = s.pinsaved := rfl
@[simp] theorem State.deliver_fg (c : Command) : (s.deliver c).fg = s.fg := rfl
@[simp] theorem State.deliver_trace (c : Command) : (s.deliver c).trace = s.trace := rfl
@[simp] theorem State.deliver_draws (c : Command) : (s.deliver c).draws = s.draws := rfl
@[simp] theorem State.deliver_host (c : Command) : (s.deliver c).host = s.host := rfl

/-! ### State.drawBanks -/

@[simp] theorem State.drawBanks_chip (d : List BankDraw) : (s.drawBanks d).chip = s.chip := rfl
@[simp] theorem State.drawBanks_cmd (d : List BankDraw) : (s.drawBanks d).cmd = s.cmd := rfl
@[simp] theorem State.drawBanks_arg (d : List BankDraw) : (s.drawBanks d).arg = s.arg := rfl
@[simp] theorem State.drawBanks_namearg (d : List BankDraw) : (s.drawBanks d).namearg = s.namearg := rfl
@[simp] theorem State.drawBanks_rsp (d : List BankDraw) : (s.drawBanks d).rsp = s.rsp := rfl
@[simp] theorem State.drawBanks_lc (d : List BankDraw) : (s.drawBanks d).lc = s.lc := rfl
@[simp] theorem State.drawBanks_fault (d : List BankDraw) : (s.drawBanks d).fault = s.fault := rfl
@[simp] theorem State.drawBanks_bank (d : List BankDraw) : (s.drawBanks d).bank = drawBank d s.bank := rfl
@[simp] theorem State.drawBanks_backup (d : List BankDraw) : (s.drawBanks d).backup = s.backup := rfl
@[simp] theorem State.drawBanks_pinbak (d : List BankDraw) : (s.drawBanks d).pinbak = s.pinbak := rfl
@[simp] theorem State.drawBanks_pinsaved (d : List BankDraw) : (s.drawBanks d).pinsaved = s.pinsaved := rfl
@[simp] theorem State.drawBanks_fg (d : List BankDraw) : (s.drawBanks d).fg = s.fg := rfl
@[simp] theorem State.drawBanks_trace (d : List BankDraw) : (s.drawBanks d).trace = s.trace := rfl
@[simp] theorem State.drawBanks_draws (d : List BankDraw) : (s.drawBanks d).draws = s.draws := rfl
@[simp] theorem State.drawBanks_host (d : List BankDraw) : (s.drawBanks d).host = s.host := rfl

/-! ### State.resetEvent -/

@[simp] theorem State.resetEvent_chip : (s.resetEvent).chip = s.chip := rfl
@[simp] theorem State.resetEvent_cmd : (s.resetEvent).cmd = 0 := rfl
@[simp] theorem State.resetEvent_arg : (s.resetEvent).arg = [] := rfl
@[simp] theorem State.resetEvent_namearg : (s.resetEvent).namearg = [] := rfl
@[simp] theorem State.resetEvent_rsp : (s.resetEvent).rsp = ⟨.ok, [], []⟩ := rfl
@[simp] theorem State.resetEvent_lc : (s.resetEvent).lc = .uninit := rfl
@[simp] theorem State.resetEvent_fault : (s.resetEvent).fault = none := rfl
@[simp] theorem State.resetEvent_bank : (s.resetEvent).bank = s.bank := rfl
@[simp] theorem State.resetEvent_backup : (s.resetEvent).backup = List.replicate s.chip.words.sum 0 := rfl
@[simp] theorem State.resetEvent_pinbak : (s.resetEvent).pinbak = List.replicate s.chip.pins 0 := rfl
@[simp] theorem State.resetEvent_pinsaved : (s.resetEvent).pinsaved = List.replicate s.chip.pins false := rfl
@[simp] theorem State.resetEvent_fg : (s.resetEvent).fg = List.replicate s.chip.funcs.length [] := rfl
@[simp] theorem State.resetEvent_trace : (s.resetEvent).trace = [] := rfl
@[simp] theorem State.resetEvent_draws : (s.resetEvent).draws = s.draws := rfl
@[simp] theorem State.resetEvent_host : (s.resetEvent).host = s.host := rfl

/-- The registers hold exactly the tuple that was delivered. -/
@[simp] theorem State.deliver_delivered (c : Command) : (s.deliver c).delivered = c := rfl

end Sys2Proof.Machine
end

