-- ==== Sys2Proof/Laws/Memory.lean ====
section
/-! SUPPORT. Bank storage: a read after a write, the bytes a write leaves alone, the canonical form every memory
operation keeps, and that canonical memories reading alike are equal. -/

namespace Sys2Proof.Machine

/-! ### Bytes -/

@[simp] theorem readByte_nil (a : Nat) : readByte [] a = unlistedByte := rfl

theorem readByte_cons (k : Nat) (x : Byte) (m : Memory) (a : Nat) :
    readByte ((k, x) :: m) a = if k = a then x else readByte m a := rfl

theorem wf_cons {k : Nat} {v : Byte} {m : Memory} :
    Memory.wf ((k, v) :: m) = true ↔
      v ≠ unlistedByte ∧ (∀ c ∈ m, k < c.1) ∧ Memory.wf m = true := by
  simp [Memory.wf, and_assoc]

/-- An address below every listed one reads as the unlisted byte. -/
theorem readByte_below {m : Memory} {a : Nat} (h : ∀ c ∈ m, a < c.1) : readByte m a = unlistedByte := by
  induction m with
  | nil => rfl
  | cons c m ih =>
    obtain ⟨k, x⟩ := c
    have hk : a < k := h (k, x) (by simp)
    rw [readByte_cons, if_neg (by omega)]
    exact ih fun c hc => h c (by simp [hc])

/-- A write to one byte leaves every other byte alone. -/
theorem readByte_writeByte_ne (m : Memory) {a b : Nat} (v : Byte) (h : b ≠ a) :
    readByte (writeByte m a v) b = readByte m b := by
  induction m with
  | nil =>
    simp only [writeByte]
    split <;> simp [readByte, Ne.symm h]
  | cons c m ih =>
    obtain ⟨k, x⟩ := c
    simp only [writeByte]
    split
    · split <;> simp [readByte, Ne.symm h]
    · split
      · rename_i hk
        subst hk
        split <;> simp [readByte, Ne.symm h]
      · simp [readByte, ih]

/-- A byte written is the byte read. -/
theorem readByte_writeByte_same {m : Memory} (a : Nat) (v : Byte) (hm : Memory.wf m = true) :
    readByte (writeByte m a v) a = v := by
  induction m with
  | nil =>
    simp only [writeByte]
    split
    · rename_i hv; simp [hv]
    · simp [readByte]
  | cons c m ih =>
    obtain ⟨k, x⟩ := c
    obtain ⟨-, hlt, hwf⟩ := wf_cons.1 hm
    simp only [writeByte]
    split
    · rename_i hak
      split
      · rename_i hv
        rw [hv]
        exact readByte_below fun c hc => by
          rcases List.mem_cons.1 hc with rfl | hc
          · exact hak
          · exact lt_trans hak (hlt c hc)
      · simp [readByte]
    · split
      · rename_i hk
        subst hk
        split
        · rename_i hv
          rw [hv]
          exact readByte_below hlt
        · simp [readByte]
      · rename_i hk
        rw [readByte_cons, if_neg (Ne.symm hk), ih hwf]

/-- A byte write lists no address but those listed before and its own. -/
theorem mem_writeByte {m : Memory} {a : Nat} {v : Byte} {c : Host.Cell} (h : c ∈ writeByte m a v) :
    c ∈ m ∨ c = (a, v) := by
  induction m with
  | nil =>
    simp only [writeByte] at h
    split at h <;> simp_all
  | cons d m ih =>
    obtain ⟨k, x⟩ := d
    simp only [writeByte] at h
    split at h
    · split at h
      · exact .inl h
      · rcases List.mem_cons.1 h with h | h
        · exact .inr h
        · exact .inl h
    · split at h
      · split at h
        · exact .inl (List.mem_cons_of_mem _ h)
        · rcases List.mem_cons.1 h with h | h
          · exact .inr h
          · exact .inl (List.mem_cons_of_mem _ h)
      · rcases List.mem_cons.1 h with h | h
        · exact .inl (h ▸ List.mem_cons_self)
        · exact (ih h).imp_left (List.mem_cons_of_mem _)

/-- A byte write keeps the canonical form. -/
theorem wf_writeByte {m : Memory} (a : Nat) (v : Byte) (hm : Memory.wf m = true) :
    Memory.wf (writeByte m a v) = true := by
  induction m with
  | nil =>
    simp only [writeByte]
    split
    · exact hm
    · rename_i hv; exact wf_cons.2 ⟨hv, by simp, rfl⟩
  | cons c m ih =>
    obtain ⟨k, x⟩ := c
    obtain ⟨hx, hlt, hwf⟩ := wf_cons.1 hm
    simp only [writeByte]
    split
    · rename_i hak
      split
      · exact hm
      · rename_i hv
        refine wf_cons.2 ⟨hv, fun c hc => ?_, hm⟩
        rcases List.mem_cons.1 hc with rfl | hc
        · exact hak
        · exact lt_trans hak (hlt c hc)
    · split
      · rename_i hk
        subst hk
        split
        · exact hwf
        · rename_i hv; exact wf_cons.2 ⟨hv, hlt, hwf⟩
      · rename_i hak hk
        refine wf_cons.2 ⟨hx, fun c hc => ?_, ih hwf⟩
        rcases mem_writeByte hc with hc | rfl
        · exact hlt c hc
        · show k < a
          omega

/-- Canonical memories that read alike are equal. -/
theorem memory_ext {m n : Memory} (hm : Memory.wf m = true) (hn : Memory.wf n = true)
    (h : ∀ a, readByte m a = readByte n a) : m = n := by
  induction m generalizing n with
  | nil =>
    cases n with
    | nil => rfl
    | cons c n =>
      obtain ⟨k, v⟩ := c
      have := h k
      simp only [readByte_nil, readByte_cons, if_true] at this
      exact absurd this.symm (wf_cons.1 hn).1
  | cons c m ih =>
    obtain ⟨k, x⟩ := c
    obtain ⟨hx, hlt, hwf⟩ := wf_cons.1 hm
    cases n with
    | nil =>
      have := h k
      simp only [readByte_nil, readByte_cons, if_true] at this
      exact absurd this hx
    | cons d n =>
      obtain ⟨j, y⟩ := d
      obtain ⟨hy, hlt', hwf'⟩ := wf_cons.1 hn
      have hkj : k = j := by
        rcases lt_trichotomy k j with hkj | hkj | hkj
        · have := h k
          rw [readByte_cons, if_pos rfl, readByte_below (m := (j, y) :: n) (by
            intro c hc
            rcases List.mem_cons.1 hc with rfl | hc
            · exact hkj
            · exact lt_trans hkj (hlt' c hc))] at this
          exact absurd this hx
        · exact hkj
        · have := h j
          rw [readByte_cons (m := n), if_pos rfl, readByte_below (m := (k, x) :: m) (by
            intro c hc
            rcases List.mem_cons.1 hc with rfl | hc
            · exact hkj
            · exact lt_trans hkj (hlt c hc))] at this
          exact absurd this.symm hy
      subst hkj
      have hxy : x = y := by simpa [readByte_cons] using h k
      subst hxy
      rw [ih hwf hwf' fun a => ?_]
      by_cases ha : k = a
      · subst ha
        rw [readByte_below hlt, readByte_below hlt']
      · simpa [readByte_cons, ha] using h a

/-! ### Words -/

/-- A word write keeps the canonical form. -/
theorem wf_writeWord {m : Memory} (a : Nat) (v : Word) (hm : Memory.wf m = true) :
    Memory.wf (writeWord m a v) = true :=
  wf_writeByte _ _ (wf_writeByte _ _ (wf_writeByte _ _ (wf_writeByte _ _ hm)))

/-- A word write leaves every byte outside its four alone. -/
theorem readByte_writeWord_outside (m : Memory) {a b : Nat} (v : Word) (h : ¬ (a ≤ b ∧ b < a + 4)) :
    readByte (writeWord m a v) b = readByte m b := by
  unfold writeWord
  rw [readByte_writeByte_ne _ _ (by omega), readByte_writeByte_ne _ _ (by omega),
    readByte_writeByte_ne _ _ (by omega), readByte_writeByte_ne _ _ (by omega)]

/-- Four bytes of a word, put together again. -/
theorem word_of_bytes (v : Word) :
    v.extractLsb' 24 8 ++ v.extractLsb' 16 8 ++ v.extractLsb' 8 8 ++ v.extractLsb' 0 8 = v := by
  apply BitVec.eq_of_getLsbD_eq
  intro i hi
  simp only [BitVec.getLsbD_append, BitVec.getLsbD_extractLsb']
  rcases lt_or_ge i 8 with h | h
  · simp [h]
  · rcases lt_or_ge i 16 with h' | h'
    · simp [show ¬ i < 8 by omega, show i - 8 < 8 by omega, show 8 + (i - 8) = i by omega]
    · rcases lt_or_ge i 24 with h'' | h''
      · simp [show ¬ i < 8 by omega, show ¬ i - 8 < 8 by omega, show i - 8 - 8 < 8 by omega,
          show 16 + (i - 8 - 8) = i by omega]
      · simp [show ¬ i < 8 by omega, show ¬ i - 8 < 8 by omega, show ¬ i - 8 - 8 < 8 by omega,
          show i - 8 - 8 - 8 < 8 by omega, show 24 + (i - 8 - 8 - 8) = i by omega]

/-- A word written is the word read. -/
theorem readWord_writeWord_same {m : Memory} (a : Nat) (v : Word) (hm : Memory.wf m = true) :
    readWord (writeWord m a v) a = v := by
  have h0 := wf_writeByte a (v.extractLsb' 0 8) hm
  have h1 := wf_writeByte (a + 1) (v.extractLsb' 8 8) h0
  have h2 := wf_writeByte (a + 2) (v.extractLsb' 16 8) h1
  unfold readWord writeWord
  rw [readByte_writeByte_same _ _ h2,
    readByte_writeByte_ne _ _ (show a + 2 ≠ a + 3 by omega), readByte_writeByte_same _ _ h1,
    readByte_writeByte_ne _ _ (show a + 1 ≠ a + 3 by omega),
    readByte_writeByte_ne _ _ (show a + 1 ≠ a + 2 by omega), readByte_writeByte_same _ _ h0,
    readByte_writeByte_ne _ _ (show a ≠ a + 3 by omega),
    readByte_writeByte_ne _ _ (show a ≠ a + 2 by omega),
    readByte_writeByte_ne _ _ (show a ≠ a + 1 by omega), readByte_writeByte_same _ _ hm]
  exact word_of_bytes v

/-- A word whose bytes lie outside those written reads as before. -/
theorem readWord_writeWord_disjoint (m : Memory) {a b : Nat} (v : Word) (h : b + 4 ≤ a ∨ a + 4 ≤ b) :
    readWord (writeWord m a v) b = readWord m b := by
  unfold readWord
  rw [readByte_writeWord_outside _ _ (by omega), readByte_writeWord_outside _ _ (by omega),
    readByte_writeWord_outside _ _ (by omega), readByte_writeWord_outside _ _ (by omega)]

/-- The bytes of a word made of four. -/
theorem bytes_of_word (b3 b2 b1 b0 : Byte) :
    (b3 ++ b2 ++ b1 ++ b0 : Word).extractLsb' 0 8 = b0 ∧ (b3 ++ b2 ++ b1 ++ b0 : Word).extractLsb' 8 8 = b1 ∧
      (b3 ++ b2 ++ b1 ++ b0 : Word).extractLsb' 16 8 = b2 ∧ (b3 ++ b2 ++ b1 ++ b0 : Word).extractLsb' 24 8 = b3 := by
  refine ⟨?_, ?_, ?_, ?_⟩ <;>
    (apply BitVec.eq_of_getLsbD_eq
     intro i hi
     simp only [BitVec.getLsbD_append, BitVec.getLsbD_extractLsb', hi, decide_true, Bool.true_and])
  · simp [hi]
  · simp [show ¬ 8 + i < 8 by omega, show 8 + i - 8 = i by omega, hi]
  · simp [show ¬ 16 + i < 8 by omega, show ¬ 16 + i - 8 < 8 by omega, show 16 + i - 8 - 8 = i by omega, hi]
  · simp [show ¬ 24 + i < 8 by omega, show ¬ 24 + i - 8 < 8 by omega, show ¬ 24 + i - 8 - 8 < 8 by omega,
      show 24 + i - 8 - 8 - 8 = i by omega]

/-- Memories that read the same word read the same four bytes. -/
theorem readByte_of_readWord {m n : Memory} {k a : Nat} (h : readWord m k = readWord n k)
    (ha : k ≤ a ∧ a < k + 4) : readByte m a = readByte n a := by
  obtain ⟨m0, m1, m2, m3⟩ := bytes_of_word (readByte m (k + 3)) (readByte m (k + 2)) (readByte m (k + 1)) (readByte m k)
  obtain ⟨n0, n1, n2, n3⟩ := bytes_of_word (readByte n (k + 3)) (readByte n (k + 2)) (readByte n (k + 1)) (readByte n k)
  unfold readWord at h
  have : a = k ∨ a = k + 1 ∨ a = k + 2 ∨ a = k + 3 := by omega
  rcases this with rfl | rfl | rfl | rfl
  · rw [← m0, ← n0, h]
  · rw [← m1, ← n1, h]
  · rw [← m2, ← n2, h]
  · rw [← m3, ← n3, h]

/-- A draw keeps the canonical form. -/
theorem wf_drawBank (d : List BankDraw) {m : Memory} (hm : Memory.wf m = true) :
    Memory.wf (drawBank d m) = true := by
  induction d generalizing m with
  | nil => exact hm
  | cons x d ih => exact ih (wf_writeWord _ _ hm)

/-- Replaying bus writes keeps the canonical form. -/
theorem wf_replay (es : List BusEvent) {m : Memory} (hm : Memory.wf m = true) :
    Memory.wf (replay es m) = true := by
  induction es generalizing m with
  | nil => exact hm
  | cons e es ih => cases e <;> exact ih (by first | exact hm | exact wf_writeWord _ _ hm)

/-- The banks at reset are in canonical form. -/
theorem wf_boot (c : Chip) : Memory.wf (State.boot c).bank = true := rfl

/-- The banks of the reset state are in canonical form. -/
theorem wf_reset : Memory.wf State.reset.bank = true := rfl

/-- Mapped locations of a chip within the geometry bounds have flat words that do not overlap. -/
theorem flatAddr_disjoint {b o b' o' : Nat} (ho : o < 65536) (ho' : o' < 65536) (ha : o % 4 = 0)
    (ha' : o' % 4 = 0) (hne : (b, o) ≠ (b', o')) :
    flatAddr b o + 4 ≤ flatAddr b' o' ∨ flatAddr b' o' + 4 ≤ flatAddr b o := by
  unfold flatAddr
  rcases lt_trichotomy b b' with h | h | h
  · omega
  · subst h
    have : o ≠ o' := fun h => hne (by rw [h])
    omega
  · omega

end Sys2Proof.Machine
end

