-- ==== Sys2Proof/Laws/Ops.lean ====
section
/-! SUPPORT. What each shared operation can do, said once: how a command body runs, the bus primitives, the command
frame `runCommand`, and the package for relations that every primitive keeps. -/

namespace Sys2Proof.Machine

/-! ### Running a body -/

section bodies
variable {α β : Type} (s : State)

@[simp] theorem pure_run (a : α) : (pure a : M α) s = .ok a s := rfl

@[simp] theorem failWith_run (st : Status) : (failWith st : M α) s = .error (.failed st) s := rfl

@[simp] theorem raiseFatal_run (c : FaultCause) : (raiseFatal c : M α) s = .error (.raised .fatal c) s := rfl

@[simp] theorem raiseSequence_run (c : FaultCause) :
    (raiseSequence c : M α) s = .error (.raised .sequenceError c) s := rfl

@[simp] theorem respond_run (ws : List Word) (ns : List Name) : respond ws ns s = .ok ⟨ws, ns⟩ s := rfl

/-- A body after a body that goes on. -/
theorem bind_run_ok {x : M α} {f : α → M β} {a : α} {s t : State} (h : x s = .ok a t) :
    (x >>= f) s = f a t := by
  show EStateM.bind x f s = f a t
  unfold EStateM.bind
  rw [h]

/-- A body that stops ends the whole. -/
theorem bind_run_error {x : M α} {f : α → M β} {e : Stop} {s t : State} (h : x s = .error e t) :
    (x >>= f) s = .error e t := by
  show EStateM.bind x f s = .error e t
  unfold EStateM.bind
  rw [h]

/-- Everything a sequence can do. -/
theorem bind_run_cases (x : M α) (f : α → M β) (s : State) :
    (∃ a t, x s = .ok a t ∧ (x >>= f) s = f a t) ∨
      (∃ e t, x s = .error e t ∧ (x >>= f) s = .error e t) := by
  cases h : x s with
  | ok a t => exact .inl ⟨a, t, rfl, bind_run_ok h⟩
  | error e t => exact .inr ⟨e, t, rfl, bind_run_error h⟩

end bodies

/-! ### Bus primitives -/

theorem memRead_mapped {b o : Int} {s : State} (h : mapped s.chip b o = true) :
    memRead b o s = .ok (bankAnswer s b.toNat o.toNat) (s.afterRead b.toNat o.toNat) := if_pos h

theorem memRead_unmapped {b o : Int} {s : State} (h : ¬ mapped s.chip b o = true) :
    memRead b o s = .error (.raised .fatal .registerOutOfRange) s := if_neg h

theorem memWrite_mapped {b o : Int} {v : Word} {s : State} (h : mapped s.chip b o = true) :
    memWrite b o v s = .ok () (s.afterWrite b.toNat o.toNat v) := if_pos h

theorem memWrite_unmapped {b o : Int} {v : Word} {s : State} (h : ¬ mapped s.chip b o = true) :
    memWrite b o v s = .error (.raised .fatal .registerOutOfRange) s := if_neg h

@[simp] theorem barrier_run (s : State) : barrier s = .ok () { s with trace := s.trace ++ [.barrier] } := rfl

@[simp] theorem setLifecycle_run (lc : Lifecycle) (s : State) : setLifecycle lc s = .ok () { s with lc := lc } :=
  rfl

/-- RegWrite at a mapped location: the write, then the readback. -/
theorem regWrite_mapped {b o : Int} {v : Word} {s : State} (h : mapped s.chip b o = true) :
    regWrite b o v s = .ok () ((s.afterWrite b.toNat o.toNat v).afterRead b.toNat o.toNat) := by
  unfold regWrite
  rw [bind_run_ok (memWrite_mapped h)]
  have h' : mapped (s.afterWrite b.toNat o.toNat v).chip b o = true := h
  rw [bind_run_ok (memRead_mapped h')]
  rfl

/-- RegWrite at an unmapped location faults before touching anything. -/
theorem regWrite_unmapped {b o : Int} {v : Word} {s : State} (h : ¬ mapped s.chip b o = true) :
    regWrite b o v s = .error (.raised .fatal .registerOutOfRange) s :=
  bind_run_error (memWrite_unmapped h)

/-- A storage read answers with the word of the bank. -/
theorem bankAnswer_storage {s : State} (h : s.chip.readModel = .storage) (b o : Nat) :
    bankAnswer s b o = readWord s.bank (flatAddr b o) := by
  unfold bankAnswer
  rw [h]

/-- What a mapped location is, in numbers. -/
theorem mapped_iff {c : Chip} {b o : Int} :
    mapped c b o = true ↔
      0 ≤ b ∧ 0 ≤ o ∧ o % 4 = 0 ∧ ∃ n, c.words[b.toNat]? = some n ∧ o / 4 < n := by
  unfold mapped
  cases h : c.words[b.toNat]? with
  | none => simp
  | some n => simp [and_assoc]

/-! ### The command frame -/

theorem runCommand_faulted {op : Op} {body : M Reply} {s : State} (h : s.lc = .faulted) :
    runCommand op body s = .next (s.answer .fatal) := by
  unfold runCommand
  rw [if_pos h]

theorem runCommand_accepted {op : Op} {body : M Reply} {s : State} (h : s.lc ≠ .faulted)
    (ha : accepts op s.lc = true) : runCommand op body s = .next (conclude (body s)) := by
  unfold runCommand
  rw [if_neg h, if_pos ha]

theorem runCommand_notAccepted {op : Op} {body : M Reply} {s : State} (h : s.lc ≠ .faulted)
    (ha : accepts op s.lc = false) :
    runCommand op body s = .next (s.raise .sequenceError .sequence) := by
  unfold runCommand
  rw [if_neg h, if_neg (by simp [ha])]

/-- Everything a command can do: answer Fatal, be out of sequence, or run its body. -/
theorem runCommand_cases (op : Op) (body : M Reply) (s : State) :
    (s.lc = .faulted ∧ runCommand op body s = .next (s.answer .fatal)) ∨
    (s.lc ≠ .faulted ∧ accepts op s.lc = false ∧
      runCommand op body s = .next (s.raise .sequenceError .sequence)) ∨
    (s.lc ≠ .faulted ∧ accepts op s.lc = true ∧ runCommand op body s = .next (conclude (body s))) := by
  by_cases h : s.lc = .faulted
  · exact .inl ⟨h, runCommand_faulted h⟩
  · cases ha : accepts op s.lc
    · exact .inr (.inl ⟨h, rfl, runCommand_notAccepted h ha⟩)
    · exact .inr (.inr ⟨h, rfl, runCommand_accepted h ha⟩)

@[simp] theorem conclude_ok (r : Reply) (s : State) : conclude (.ok r s) = s.replied r.words r.names := rfl

@[simp] theorem conclude_failed (st : Status) (s : State) :
    conclude (.error (.failed st) s) = s.answer st := rfl

@[simp] theorem conclude_raised (k : LatchKind) (c : FaultCause) (s : State) :
    conclude (.error (.raised k c) s) = s.raise k c := rfl

/-! ### Relations every step of a body keeps -/

/-- The state a body ends in, whether it goes on or stops. -/
def endState {α : Type} : EStateM.Result Stop State α → State
  | .ok _ t => t
  | .error _ t => t

/-- From every state, the body ends in a state related to the one it started from. -/
def Relates {α : Type} (R : State → State → Prop) (x : M α) : Prop := ∀ s, R s (endState (x s))

/-- A relation that holds of a state and itself and composes: what an induction over a body's steps needs. -/
structure Composes (R : State → State → Prop) : Prop where
  refl : ∀ s, R s s
  trans : ∀ {s t u}, R s t → R t u → R s u

section relates
variable {α β : Type} {R : State → State → Prop} (hR : Composes R)
include hR

theorem relates_pure (a : α) : Relates R (pure a : M α) := fun s => hR.refl s

theorem relates_failWith (st : Status) : Relates R (failWith st : M α) := fun s => hR.refl s

theorem relates_raiseFatal (c : FaultCause) : Relates R (raiseFatal c : M α) := fun s => hR.refl s

theorem relates_respond (ws : List Word) (ns : List Name) : Relates R (respond ws ns) := fun s => hR.refl s

theorem relates_bind {x : M α} {f : α → M β} (hx : Relates R x) (hf : ∀ a, Relates R (f a)) :
    Relates R (x >>= f) := by
  intro s
  rcases bind_run_cases x f s with ⟨a, t, h, e⟩ | ⟨er, t, h, e⟩ <;> rw [e]
  · have := hx s
    rw [h] at this
    exact hR.trans this (hf a t)
  · have := hx s
    rwa [h] at this

theorem relates_readBackup (k : Nat) : Relates R (readBackup k) := by
  intro s
  unfold readBackup
  split <;> exact hR.refl s

theorem relates_savedPin (p : Nat) : Relates R (savedPin p) := by
  intro s
  unfold savedPin
  split <;> exact hR.refl s

theorem relates_readIndex (f : Nat) : Relates R (readIndex f) := by
  intro s
  unfold readIndex
  split <;> exact hR.refl s

theorem relates_memRead (h : ∀ s b o, mapped s.chip b o = true → R s (s.afterRead b.toNat o.toNat))
    (b o : Int) : Relates R (memRead b o) := by
  intro s
  by_cases hm : mapped s.chip b o = true
  · rw [memRead_mapped hm]
    exact h s b o hm
  · rw [memRead_unmapped hm]
    exact hR.refl s

theorem relates_memWrite
    (h : ∀ s b o v, mapped s.chip b o = true → R s (s.afterWrite b.toNat o.toNat v))
    (b o : Int) (v : Word) : Relates R (memWrite b o v) := by
  intro s
  by_cases hm : mapped s.chip b o = true
  · rw [memWrite_mapped hm]
    exact h s b o v hm
  · rw [memWrite_unmapped hm]
    exact hR.refl s

theorem relates_regWrite
    (h : ∀ s b o v, mapped s.chip b o = true →
      R s ((s.afterWrite b.toNat o.toNat v).afterRead b.toNat o.toNat))
    (b o : Int) (v : Word) : Relates R (regWrite b o v) := by
  intro s
  by_cases hm : mapped s.chip b o = true
  · rw [regWrite_mapped hm]
    exact h s b o v hm
  · rw [regWrite_unmapped hm]
    exact hR.refl s

end relates

end Sys2Proof.Machine
end

