-- ==== Sys2Proof/Laws/Bodies.lean ====
section
/-! SUPPORT. Which relations between the state before and after a command hold: enough that the relation composes and
that each primitive step the command uses keeps it. One lemma per body; a claim over all commands is then a short
list of facts about primitives. -/

namespace Sys2Proof.Machine

variable {R : State → State → Prop}

/-- The primitive steps of the bodies that only use the bus and the response: reads and register writes. -/
structure KeptByBus (R : State → State → Prop) : Prop extends Composes R where
  read : ∀ s b o, mapped s.chip b o = true → R s (s.afterRead b.toNat o.toNat)
  update : ∀ s b o v, mapped s.chip b o = true →
    R s ((s.afterWrite b.toNat o.toNat v).afterRead b.toNat o.toNat)

/-- Every primitive step of every body but RESUME's: no write goes without its readback. -/
structure KeptByBuffers (R : State → State → Prop) : Prop extends KeptByBus R where
  lifecycle : ∀ (s : State) lc, R s { s with lc := lc }
  backup : ∀ (s : State) k v, R s { s with backup := s.backup.set k v }
  pin : ∀ (s : State) p v, R s { s with pinbak := s.pinbak.set p v, pinsaved := s.pinsaved.set p true }
  buffers : ∀ s : State, R s { s with
    backup := List.replicate s.chip.words.sum 0
    pinbak := List.replicate s.chip.pins 0
    pinsaved := List.replicate s.chip.pins false }
  index : ∀ s : State, R s { s with fg := reverseIndex s.chip }

/-- Every primitive step of every body. -/
structure KeptByAll (R : State → State → Prop) : Prop extends KeptByBuffers R where
  write : ∀ s b o v, mapped s.chip b o = true → R s (s.afterWrite b.toNat o.toNat v)
  barrier : ∀ s : State, R s { s with trace := s.trace ++ [.barrier] }

section lookups
variable (h : Composes R)
include h

theorem relates_groupAt (c : Chip) (i : Nat) : Relates R (groupAt c i) := by
  unfold groupAt
  split
  · exact relates_pure h _
  · exact relates_raiseFatal h _

theorem relates_functionAt (c : Chip) (i : Nat) : Relates R (functionAt c i) := by
  unfold functionAt
  split
  · exact relates_pure h _
  · exact relates_raiseFatal h _

theorem relates_groupNames (c : Chip) (l : List Nat) : Relates R (groupNames c l) := by
  induction l with
  | nil => exact relates_pure h _
  | cons i is ih =>
    exact relates_bind h (relates_groupAt h c i) fun _ =>
      relates_bind h ih fun _ => relates_pure h _

theorem relates_groupNameBody (c : Chip) (i : Nat) : Relates R (groupNameBody c i) :=
  relates_bind h (relates_groupAt h c i) fun _ => relates_respond h _ _

theorem relates_groupPinsBody (c : Chip) (i : Nat) : Relates R (groupPinsBody c i) :=
  relates_bind h (relates_groupAt h c i) fun _ => relates_respond h _ _

theorem relates_functionNameBody (c : Chip) (i : Nat) : Relates R (functionNameBody c i) :=
  relates_bind h (relates_functionAt h c i) fun _ => relates_respond h _ _

theorem relates_functionGroupsBody (c : Chip) (i : Nat) : Relates R (functionGroupsBody c i) :=
  relates_bind h (relates_functionAt h c i) fun _ =>
    relates_bind h (relates_readIndex h i) fun gs =>
      relates_bind h (relates_groupNames h c gs) fun _ => relates_respond h _ _

theorem relates_resolveTag (c : Chip) (g : GroupDesc) (tag : Half) : Relates R (resolveTag c g tag) := by
  unfold resolveTag
  split
  · exact relates_failWith h _
  · split
    · exact relates_pure h _
    · exact relates_failWith h _
    · exact relates_raiseFatal h _

theorem relates_namedGroup (c : Chip) (n : Name) : Relates R (namedGroup c n) := by
  unfold namedGroup
  split
  · exact relates_pure h _
  · exact relates_failWith h _

theorem relates_namedFunction (c : Chip) (n : Name) : Relates R (namedFunction c n) := by
  unfold namedFunction
  split
  · exact relates_pure h _
  · exact relates_failWith h _

theorem relates_singlePinGroup (c : Chip) (p : Nat) : Relates R (singlePinGroup c p) := by
  unfold singlePinGroup
  split
  · exact relates_pure h _
  · exact relates_failWith h _

theorem relates_slotName (c : Chip) (g : GroupDesc) (v : Word) : Relates R (slotName c g v) := by
  unfold slotName
  split
  · exact relates_pure h _
  · exact relates_bind h (relates_functionAt h c _) fun _ => relates_pure h _

theorem relates_dumpNames (c : Chip) (g : GroupDesc) (p : Param) (v : Word) :
    Relates R (dumpNames c g p v) := by
  unfold dumpNames
  split
  · exact relates_bind h (relates_slotName h c g v) fun _ => relates_pure h _
  · exact relates_pure h _

end lookups

section bus
variable (h : KeptByBus R)
include h

theorem relates_read (b o : Int) : Relates R (memRead b o) := relates_memRead h.toComposes h.read b o

theorem relates_update (b o : Int) (v : Word) : Relates R (regWrite b o v) :=
  relates_regWrite h.toComposes h.update b o v

theorem relates_muxBody (c : Chip) (f : Nat) (g : GroupDesc) : Relates R (muxBody c f g) := by
  unfold muxBody
  split
  · split
    · exact relates_failWith h.toComposes _
    · split
      · exact relates_raiseFatal h.toComposes _
      · exact relates_bind h.toComposes (relates_read h _ _) fun _ =>
          relates_bind h.toComposes (relates_update h _ _ _) fun _ => relates_respond h.toComposes _ _
  · exact relates_failWith h.toComposes _

theorem relates_setMuxBody (c : Chip) (f i : Nat) : Relates R (setMuxBody c f i) :=
  relates_bind h.toComposes (relates_groupAt h.toComposes c i) fun _ => relates_muxBody h c f _

theorem relates_readParam (p : Param) (r : Resolved) : Relates R (readParam p r) :=
  relates_bind h.toComposes (relates_read h _ _) fun _ => relates_pure h.toComposes _

theorem relates_confGetBody (c : Chip) (i : Nat) (tag : Half) : Relates R (confGetBody c i tag) :=
  relates_bind h.toComposes (relates_groupAt h.toComposes c i) fun g =>
    relates_bind h.toComposes (relates_resolveTag h.toComposes c g tag) fun t =>
      relates_bind h.toComposes (relates_readParam h t.param t.field) fun _ =>
        relates_respond h.toComposes _ _

theorem relates_lockCheck (r : Resolved) (v : Word) : Relates R (lockCheck r v) :=
  relates_bind h.toComposes (relates_read h _ _) fun _ => by
    split
    · exact relates_failWith h.toComposes _
    · exact relates_pure h.toComposes _

theorem relates_lockGuard (p : Param) (r : Resolved) (v : Word) : Relates R (lockGuard p r v) := by
  unfold lockGuard
  split
  · exact relates_lockCheck h r v
  · exact relates_pure h.toComposes _

theorem relates_writeField (r : Resolved) (v : Word) : Relates R (writeField r v) := by
  unfold writeField
  split
  · exact relates_failWith h.toComposes _
  · exact relates_bind h.toComposes (relates_read h _ _) fun _ => relates_update h _ _ _

theorem relates_setOne (c : Chip) (g : GroupDesc) (e : ConfWord) : Relates R (setOne c g e) :=
  relates_bind h.toComposes (relates_resolveTag h.toComposes c g e.tag) fun t =>
    relates_bind h.toComposes (relates_lockGuard h t.param t.field _) fun _ =>
      relates_writeField h t.field _

theorem relates_setEach (c : Chip) (g : GroupDesc) (es : List ConfWord) : Relates R (setEach c g es) := by
  induction es with
  | nil => exact relates_pure h.toComposes _
  | cons e es ih => exact relates_bind h.toComposes (relates_setOne h c g e) fun _ => ih

theorem relates_confSetGroup (c : Chip) (g : GroupDesc) (es : List ConfWord) :
    Relates R (confSetGroup c g es) :=
  relates_bind h.toComposes (relates_setEach h c g es) fun _ => relates_respond h.toComposes _ _

theorem relates_confSetBody (c : Chip) (i : Nat) (es : List ConfWord) : Relates R (confSetBody c i es) :=
  relates_bind h.toComposes (relates_groupAt h.toComposes c i) fun g => relates_confSetGroup h c g es

theorem relates_dumpParams (c : Chip) (g : GroupDesc) (ps : List Param) : Relates R (dumpParams c g ps) := by
  induction ps with
  | nil => exact relates_respond h.toComposes _ _
  | cons p ps ih =>
    unfold dumpParams
    split
    · exact ih
    · exact relates_raiseFatal h.toComposes _
    · exact relates_bind h.toComposes (relates_readParam h p _) fun v =>
        relates_bind h.toComposes (relates_dumpNames h.toComposes c g p v) fun _ =>
          relates_bind h.toComposes ih fun _ => relates_respond h.toComposes _ _

theorem relates_dumpGroupBody (c : Chip) (i : Nat) : Relates R (dumpGroupBody c i) :=
  relates_bind h.toComposes (relates_groupAt h.toComposes c i) fun g => relates_dumpParams h c g _

theorem relates_applyMuxBody (c : Chip) (n : Name) (f : Option Name) : Relates R (applyMuxBody c n f) :=
  relates_bind h.toComposes (relates_namedGroup h.toComposes c n) fun g => by
    split
    · exact relates_respond h.toComposes _ _
    · exact relates_bind h.toComposes (relates_namedFunction h.toComposes c _) fun _ =>
        relates_muxBody h c _ g

theorem relates_applyConfBody (c : Chip) (n : Name) (es : List ConfWord) :
    Relates R (applyConfBody c n es) :=
  relates_bind h.toComposes (relates_namedGroup h.toComposes c n) fun g => relates_confSetGroup h c g es

theorem relates_restoreBody (c : Chip) (p : Nat) : Relates R (restoreBody c p) :=
  relates_bind h.toComposes (relates_singlePinGroup h.toComposes c p) fun g => by
    split
    · exact relates_bind h.toComposes (relates_savedPin h.toComposes p) fun _ =>
        relates_bind h.toComposes (relates_update h _ _ _) fun _ => relates_respond h.toComposes _ _
    · exact relates_respond h.toComposes _ _

theorem relates_takeGpio (g : GroupDesc) : Relates R (takeGpio g) := by
  unfold takeGpio
  split
  · exact relates_bind h.toComposes (relates_read h _ _) fun _ =>
      relates_bind h.toComposes (relates_update h _ _ _) fun _ => relates_respond h.toComposes _ _
  · exact relates_failWith h.toComposes _

theorem relates_clearIfParked (g : GroupDesc) : Relates R (clearIfParked g) := by
  unfold clearIfParked
  split
  · unfold clearGroup
    split
    · exact relates_raiseFatal h.toComposes _
    · exact relates_bind h.toComposes (relates_read h _ _) fun _ => relates_update h _ _ _
  · exact relates_pure h.toComposes _

theorem relates_clearGroups (gs : List GroupDesc) : Relates R (clearGroups gs) := by
  induction gs with
  | nil => exact relates_pure h.toComposes _
  | cons g gs ih => exact relates_bind h.toComposes (relates_clearIfParked h g) fun _ => ih

end bus

section buffers
variable (h : KeptByBuffers R)
include h

theorem relates_savePin (p : Nat) (v : Word) : Relates R (savePin p v) := by
  intro s
  unfold savePin
  split
  · exact h.pin s p v
  · exact h.refl s

theorem relates_saveBody (c : Chip) (p : Nat) : Relates R (saveBody c p) :=
  relates_bind h.toComposes (relates_singlePinGroup h.toComposes c p) fun _ => by
    split
    · exact relates_bind h.toComposes (relates_read h.toKeptByBus _ _) fun _ => relates_savePin h p _
    · exact relates_pure h.toComposes _

theorem relates_saveConfigBody (c : Chip) (p : Nat) : Relates R (saveConfigBody c p) :=
  relates_bind h.toComposes (relates_saveBody h c p) fun _ => relates_respond h.toComposes _ _

theorem relates_gpioRequestBody (c : Chip) (p : Nat) : Relates R (gpioRequestBody c p) :=
  relates_bind h.toComposes (relates_saveBody h c p) fun _ => by
    split
    · exact relates_bind h.toComposes (relates_singlePinGroup h.toComposes c p) fun g =>
        relates_takeGpio h.toKeptByBus g
    · exact relates_respond h.toComposes _ _

theorem relates_setLifecycle (lc : Lifecycle) : Relates R (setLifecycle lc) := fun s => h.lifecycle s lc

/-- INIT's body runs on the chip of the state it starts from. -/
theorem initBody_relates (s : State) : R s (endState (initBody s.chip s)) := by
  unfold initBody
  split
  · let s1 : State := { s with
        backup := List.replicate s.chip.words.sum 0
        pinbak := List.replicate s.chip.pins 0
        pinsaved := List.replicate s.chip.pins false }
    have h1 : R s s1 := h.buffers s
    have e1 : zeroBuffers s.chip s = .ok () s1 := rfl
    rw [bind_run_ok e1]
    refine h.trans h1 ?_
    have h2 : R s1 { s1 with fg := reverseIndex s1.chip } := h.index s1
    have e2 : (∃ e, buildIndex s.chip s1 = .error e { s1 with fg := reverseIndex s1.chip }) ∨
        buildIndex s.chip s1 = .ok () { s1 with fg := reverseIndex s1.chip } := by
      unfold buildIndex
      split
      · exact .inl ⟨_, rfl⟩
      · exact .inr rfl
    rcases e2 with ⟨e, he⟩ | he
    · rw [bind_run_error he]
      exact h2
    · rw [bind_run_ok he]
      exact h.trans h2 (h.lifecycle _ _)
  · exact h.refl s

theorem relates_clearParkedBody (c : Chip) : Relates R (clearParkedBody c) :=
  relates_bind h.toComposes (relates_clearGroups h.toKeptByBus _) fun _ =>
    relates_bind h.toComposes (relates_setLifecycle h _) fun _ => relates_respond h.toComposes _ _

theorem relates_writeBackup (k : Nat) (v : Word) : Relates R (writeBackup k v) := by
  intro s
  unfold writeBackup
  split
  · exact h.backup s k v
  · exact h.refl s

theorem relates_drainWords (ws : List (Nat × Nat)) (k : Nat) : Relates R (drainWords ws k) := by
  induction ws generalizing k with
  | nil => exact relates_pure h.toComposes _
  | cons w ws ih =>
    exact relates_bind h.toComposes (relates_read h.toKeptByBus _ _) fun v =>
      relates_bind h.toComposes (relates_writeBackup h k v) fun _ => ih (k + 1)

theorem relates_suspendBody (c : Chip) : Relates R (suspendBody c) :=
  relates_bind h.toComposes (relates_drainWords h _ _) fun _ =>
    relates_bind h.toComposes (relates_setLifecycle h _) fun _ => relates_respond h.toComposes _ _

end buffers

section all
variable (h : KeptByAll R)
include h

theorem relates_refillWords (ws : List (Nat × Nat)) (k : Nat) : Relates R (refillWords ws k) := by
  induction ws generalizing k with
  | nil => exact relates_pure h.toComposes _
  | cons w ws ih =>
    exact relates_bind h.toComposes (relates_readBackup h.toComposes k) fun v =>
      relates_bind h.toComposes (relates_memWrite h.toComposes h.write _ _ _) fun _ => ih (k + 1)

theorem relates_resumeBody (c : Chip) : Relates R (resumeBody c) :=
  relates_bind h.toComposes (relates_refillWords h _ _) fun _ =>
    relates_bind h.toComposes (relates_read h.toKeptByBus _ _) fun _ =>
      relates_bind h.toComposes (fun s => h.barrier s) fun _ =>
        relates_bind h.toComposes (relates_setLifecycle h.toKeptByBuffers _) fun _ => relates_respond h.toComposes _ _

end all

/-! ### From the body to the command -/

/-- What a response does to a state: the response, and for a latching error LC and FAULT. -/
structure KeptByResponse (R : State → State → Prop) : Prop where
  answer : ∀ (s : State) st, R s (s.answer st)
  raise : ∀ (s : State) k c, R s (s.raise k c)
  replied : ∀ (s : State) ws ns, R s (s.replied ws ns)

/-- Concluding a body that keeps `R`. -/
theorem conclude_relates (hR : Composes R) (hr : KeptByResponse R) {s : State}
    {x : EStateM.Result Stop State Reply} (h : R s (endState x)) : R s (conclude x) := by
  cases x with
  | ok r t => exact hR.trans h (hr.replied _ _ _)
  | error e t =>
    cases e with
    | failed st => exact hR.trans h (hr.answer _ _)
    | raised k c => exact hR.trans h (hr.raise _ _ _)

/-- A command whose body keeps `R` keeps `R`. -/
theorem runCommand_relates (hR : Composes R) (hr : KeptByResponse R) {op : Op} {body : M Reply}
    {s t : State} (hb : R s (endState (body s))) (h : runCommand op body s = .next t) : R s t := by
  rcases runCommand_cases op body s with ⟨-, e⟩ | ⟨-, -, e⟩ | ⟨-, -, e⟩ <;> rw [e] at h <;>
    injection h with h <;> subst h
  · exact hr.answer _ _
  · exact hr.raise _ _ _
  · exact conclude_relates hR hr hb

/-- A relation that every primitive step but RESUME's and every response keeps holds across every command but RESUME. -/
theorem exec_relates_notResume (h : KeptByBuffers R) (hr : KeptByResponse R) {i : Instr} {s t : State}
    (hi : i ≠ .resume) (he : exec i s = .next t) : R s t := by
  have run : ∀ {op body}, R s (endState (body s)) → runCommand op body s = .next t → R s t :=
    fun hb e => runCommand_relates h.toComposes hr hb e
  cases i with
  | init => exact run (initBody_relates h s) he
  | clearParked => exact run (relates_clearParkedBody h _ s) he
  | groupCount => exact run (relates_respond h.toComposes _ _ s) he
  | groupName g => exact run (relates_groupNameBody h.toComposes _ _ s) he
  | groupPins g => exact run (relates_groupPinsBody h.toComposes _ _ s) he
  | functionCount => exact run (relates_respond h.toComposes _ _ s) he
  | functionName f => exact run (relates_functionNameBody h.toComposes _ _ s) he
  | functionGroups f => exact run (relates_functionGroupsBody h.toComposes _ _ s) he
  | setMux f g => exact run (relates_setMuxBody h.toKeptByBus _ _ _ s) he
  | confGet g p => exact run (relates_confGetBody h.toKeptByBus _ _ _ s) he
  | confSet g es => exact run (relates_confSetBody h.toKeptByBus _ _ _ s) he
  | dumpGroup g =>
    have he' : execDumpGroup g s = .next t := he
    unfold execDumpGroup at he'
    split at he'
    · exact run (relates_dumpGroupBody h.toKeptByBus _ _ s) he'
    · injection he' with he'
      subst he'
      unfold illegalCommand
      split <;> exact hr.answer _ _
  | applyMuxNamed n f => exact run (relates_applyMuxBody h.toKeptByBus _ _ _ s) he
  | applyConfNamed n es => exact run (relates_applyConfBody h.toKeptByBus _ _ _ s) he
  | saveConfig p => exact run (relates_saveConfigBody h _ _ s) he
  | restoreConfig p => exact run (relates_restoreBody h.toKeptByBus _ _ s) he
  | gpioRequestEnable p => exact run (relates_gpioRequestBody h _ _ s) he
  | gpioDisableFree p => exact run (relates_restoreBody h.toKeptByBus _ _ s) he
  | suspend => exact run (relates_suspendBody h _ s) he
  | resume => exact absurd rfl hi

/-- A relation that every primitive step and every response keeps holds across every command. -/
theorem exec_relates (h : KeptByAll R) (hr : KeptByResponse R) {i : Instr} {s t : State}
    (he : exec i s = .next t) : R s t := by
  by_cases hi : i = .resume
  · subst hi
    exact runCommand_relates h.toComposes hr (relates_resumeBody h _ s) he
  · exact exec_relates_notResume h.toKeptByBuffers hr hi he

end Sys2Proof.Machine
end

