-- ==== Sys2Proof/Laws/Table.lean ====
section
/-! SUPPORT. What a table that passes the checks W1 to W9 of INIT gives every later command: mapped registers, fields
inside their words, lookups with one answer, and the bound on the reverse index. -/

namespace Sys2Proof.Machine

variable {c : Chip}

/-- The nine checks, apart. -/
theorem tableOk_iff : tableOk c = true ↔
    checkSentinels c = true ∧ checkAddresses c = true ∧ checkPositions c = true ∧ checkWidths c = true ∧
    checkSlots c = true ∧ checkPins c = true ∧ checkParked c = true ∧ checkNames c = true ∧ checkCounts c = true := by
  simp only [tableOk, Bool.and_eq_true, and_assoc]

/-! ### Registers and fields -/

/-- W2 for a field. -/
theorem field_mapped (h : tableOk c = true) {g : GroupDesc} (hg : g ∈ c.groups) {f : RawField}
    (hf : f ∈ rawFields g) (hp : fieldPresent f = true) : mapped c f.bank f.reg = true := by
  have h2 := (tableOk_iff.mp h).2.1
  have := (Bool.and_eq_true_iff.mp (List.all_eq_true.mp h2 g hg)).1
  have := List.all_eq_true.mp this f hf
  simpa [hp] using this

/-- W2 for a mux register. -/
theorem mux_mapped (h : tableOk c = true) {g : GroupDesc} (hg : g ∈ c.groups) (hp : fieldPresent g.mux = true) :
    mapped c g.mux.bank g.mux.reg = true :=
  field_mapped h hg (by simp [rawFields]) hp

/-- W2 for a drive register. -/
theorem drv_mapped (h : tableOk c = true) {g : GroupDesc} (hg : g ∈ c.groups) (hp : regPresent g.drv = true) :
    mapped c g.drv.bank g.drv.reg = true := by
  have h2 := (tableOk_iff.mp h).2.1
  have := (Bool.and_eq_true_iff.mp (List.all_eq_true.mp h2 g hg)).2
  simpa [hp] using this

/-- W2 for either named register of a group. -/
theorem muxReg_mapped (h : tableOk c = true) {g : GroupDesc} (hg : g ∈ c.groups) {r : Loc}
    (hr : muxReg g = some r) : mapped c r.bank r.reg = true := by
  unfold muxReg at hr
  split at hr
  · cases hr
    exact mux_mapped h hg ‹_›
  · cases hr

theorem drvReg_mapped (h : tableOk c = true) {g : GroupDesc} (hg : g ∈ c.groups) {r : Loc}
    (hr : drvReg g = some r) : mapped c r.bank r.reg = true := by
  unfold drvReg at hr
  split at hr
  · cases hr
    exact drv_mapped h hg ‹_›
  · cases hr

theorem parkedReg_mapped (h : tableOk c = true) {g : GroupDesc} (hg : g ∈ c.groups) {r : Loc}
    (hr : parkedReg g = some r) : mapped c r.bank r.reg = true := by
  unfold parkedReg at hr
  cases hm : muxReg g with
  | none =>
    rw [hm] at hr
    exact drvReg_mapped h hg hr
  | some l =>
    rw [hm] at hr
    cases hr
    exact muxReg_mapped h hg hm

/-- W7: a group with a parked mask has a register for it. -/
theorem parkedReg_some (h : tableOk c = true) {g : GroupDesc} (hg : g ∈ c.groups) (hp : g.parked ≠ 0) :
    ∃ r, parkedReg g = some r := by
  have h7 := List.all_eq_true.mp (tableOk_iff.mp h).2.2.2.2.2.2.1 g hg
  simp only [Bool.or_eq_true, decide_eq_true_eq] at h7
  unfold parkedReg muxReg drvReg
  rcases h7 with (h7 | h7) | h7
  · exact absurd h7 hp
  · rw [if_pos h7]
    exact ⟨_, rfl⟩
  · rw [if_pos h7]
    split
    · exact ⟨_, rfl⟩
    · exact ⟨_, rfl⟩

theorem positionOk_iff {b : Int} {w : Nat} : positionOk b w = true ↔ 1 ≤ w ∧ w ≤ 16 ∧ b + w ≤ 32 := by
  simp [positionOk, and_assoc]

/-- W3 for a field. -/
theorem field_position (h : tableOk c = true) {g : GroupDesc} (hg : g ∈ c.groups) {f : RawField}
    (hf : f ∈ rawFields g) (hp : fieldPresent f = true) : 1 ≤ f.width ∧ f.width ≤ 16 ∧ f.bit + f.width ≤ 32 := by
  have h3 := (tableOk_iff.mp h).2.2.1
  have := (Bool.and_eq_true_iff.mp (List.all_eq_true.mp h3 g hg)).1
  have := List.all_eq_true.mp this f hf
  exact positionOk_iff.mp (by simpa [hp] using this)

/-- W3 for a bit whose register is chosen elsewhere. -/
theorem bit_position (h : tableOk c = true) {g : GroupDesc} (hg : g ∈ c.groups) {f : RawBit}
    (hf : f ∈ rawBits g) (hp : bitPresent f = true) : 1 ≤ f.width ∧ f.width ≤ 16 ∧ f.bit + f.width ≤ 32 := by
  have h3 := (tableOk_iff.mp h).2.2.1
  have := (Bool.and_eq_true_iff.mp (List.all_eq_true.mp h3 g hg)).2
  have := List.all_eq_true.mp this f hf
  exact positionOk_iff.mp (by simpa [hp] using this)

/-- W4 for the mux field. -/
theorem mux_width (h : tableOk c = true) {g : GroupDesc} (hg : g ∈ c.groups) (hp : fieldPresent g.mux = true) :
    g.mux.width = 2 := by
  have h4 := List.all_eq_true.mp (tableOk_iff.mp h).2.2.2.1 g hg
  simp only [Bool.and_eq_true] at h4
  simpa [hp] using h4.1.1

/-- W4 for the single-bit fields. -/
theorem single_width (h : tableOk c = true) {g : GroupDesc} (hg : g ∈ c.groups) {f : RawField}
    (hf : f ∈ [g.einput, g.odrain, g.lock, g.ioreset, g.rcvsel, g.padpwr]) (hp : fieldPresent f = true) :
    f.width = 1 := by
  have h4 := List.all_eq_true.mp (tableOk_iff.mp h).2.2.2.1 g hg
  rw [Bool.and_eq_true, Bool.and_eq_true] at h4
  have := List.all_eq_true.mp h4.1.2 f hf
  simpa [hp] using this

/-- W4 for the single bits whose register is chosen elsewhere. -/
theorem single_bit_width (h : tableOk c = true) {g : GroupDesc} (hg : g ∈ c.groups) {f : RawBit}
    (hf : f ∈ [g.sfsel, g.hsm, g.schmitt]) (hp : bitPresent f = true) : f.width = 1 := by
  have h4 := List.all_eq_true.mp (tableOk_iff.mp h).2.2.2.1 g hg
  rw [Bool.and_eq_true, Bool.and_eq_true] at h4
  have := List.all_eq_true.mp h4.2 f hf
  simpa [hp] using this

/-- W1: a field of a checked table is present or absent, never half of each. -/
theorem field_sentinel (h : tableOk c = true) {g : GroupDesc} (hg : g ∈ c.groups) {f : RawField}
    (hf : f ∈ rawFields g) : fieldAbsent f = true ∨ fieldPresent f = true := by
  have h1 := List.all_eq_true.mp (tableOk_iff.mp h).1 g hg
  rw [Bool.and_eq_true, Bool.and_eq_true] at h1
  have := List.all_eq_true.mp h1.1.1 f hf
  simpa using this

/-- W9: no bank of a checked table is longer than 2^14 words. -/
theorem words_le (h : tableOk c = true) {n : Nat} (hn : n ∈ c.words) : 1 ≤ n ∧ n ≤ 16384 := by
  have h9 := (tableOk_iff.mp h).2.2.2.2.2.2.2.2
  unfold checkCounts at h9
  rw [Bool.and_eq_true] at h9
  have := List.all_eq_true.mp h9.2 n hn
  simpa using this

/-- W9: RESUME's dummy read is mapped. -/
theorem origin_mapped (h : tableOk c = true) : mapped c 0 0 = true := by
  have h9 := (tableOk_iff.mp h).2.2.2.2.2.2.2.2
  unfold checkCounts at h9
  simp only [Bool.and_eq_true, decide_eq_true_eq] at h9
  cases hw : c.words with
  | nil => simp [hw] at h9
  | cons n ns =>
    have := words_le h (n := n) (by simp [hw])
    simp [mapped, hw]
    omega

/-- A mapped location lies in the first 2^16 bytes of its bank. -/
theorem mapped_offset_lt (h : tableOk c = true) {b o : Int} (hm : mapped c b o = true) : o.toNat < 65536 := by
  obtain ⟨-, h0, -, n, hn, hlt⟩ := mapped_iff.mp hm
  have := words_le h (List.mem_of_getElem? hn)
  omega

/-- Two mapped locations are the same or have no byte in common. -/
theorem mapped_disjoint (h : tableOk c = true) {b o b' o' : Int} (hm : mapped c b o = true)
    (hm' : mapped c b' o' = true) (hne : ¬ (b = b' ∧ o = o')) :
    flatAddr b.toNat o.toNat + 4 ≤ flatAddr b'.toNat o'.toNat ∨
      flatAddr b'.toNat o'.toNat + 4 ≤ flatAddr b.toNat o.toNat := by
  have h1 := mapped_offset_lt h hm
  have h2 := mapped_offset_lt h hm'
  obtain ⟨hb, ho, ha, -⟩ := mapped_iff.mp hm
  obtain ⟨hb', ho', ha', -⟩ := mapped_iff.mp hm'
  unfold flatAddr
  omega

/-! ### Lookups -/

theorem find?_unique {α : Type} {p : α → Bool} {l : List α} {a : α} (ha : a ∈ l) (hp : p a = true)
    (hu : ∀ b ∈ l, p b = true → b = a) : l.find? p = some a := by
  cases hf : l.find? p with
  | none => exact absurd hp (by simpa using List.find?_eq_none.mp hf a ha)
  | some b => rw [hu b (List.mem_of_find?_eq_some hf) (List.find?_some hf)]

/-- Members of a list whose images are pairwise distinct, with one image, are one. -/
theorem eq_of_map_nodup {α β : Type} {f : α → β} {l : List α} (hn : (l.map f).Nodup) {a b : α} (ha : a ∈ l)
    (hb : b ∈ l) (he : f a = f b) : a = b :=
  List.inj_on_of_nodup_map hn ha hb he

/-- W8: a group is found by its name. -/
theorem lookupGroup_self (h : tableOk c = true) {g : GroupDesc} (hg : g ∈ c.groups) :
    lookupGroup c g.name = some g := by
  have h8 := (tableOk_iff.mp h).2.2.2.2.2.2.2.1
  simp only [checkNames, Bool.and_eq_true, decide_eq_true_eq] at h8
  exact find?_unique hg (by simp) fun b hb e => eq_of_map_nodup h8.1.1 hb hg (by simpa using e)

/-- W8: a function is found by its name. -/
theorem lookupFunction_self (h : tableOk c = true) {f : Nat} {d : FunctionDesc} (hf : c.funcs[f]? = some d) :
    lookupFunction c d.name = some f := by
  have h8 := (tableOk_iff.mp h).2.2.2.2.2.2.2.1
  simp only [checkNames, Bool.and_eq_true, decide_eq_true_eq] at h8
  obtain ⟨hlt, rfl⟩ := List.getElem?_eq_some_iff.mp hf
  unfold lookupFunction
  rw [List.findIdx?_eq_some_iff_getElem]
  refine ⟨hlt, by simp, fun j hj => ?_⟩
  have := List.pairwise_iff_getElem.mp h8.1.2 j f (by simp; omega) (by simpa using hlt) hj
  simpa using this

/-- W6: the pins of a group are below PINS. -/
theorem pin_lt (h : tableOk c = true) {g : GroupDesc} (hg : g ∈ c.groups) {p : Nat} (hp : p ∈ g.pins) :
    p < c.pins := by
  have h6 := (tableOk_iff.mp h).2.2.2.2.2.1
  rw [checkPins, Bool.and_eq_true] at h6
  have := List.all_eq_true.mp h6.1 g hg
  rw [Bool.and_eq_true] at this
  simpa using List.all_eq_true.mp this.2 p hp

theorem singlePins_cons (g : GroupDesc) (gs : List GroupDesc) (p : Nat) (hg : g.pins = [p])
    (hn : (((g :: gs).map GroupDesc.pins).filter fun ps => decide (ps.length = 1)).Nodup) :
    ∀ d ∈ gs, d.pins ≠ [p] := by
  intro d hd he
  rw [List.map_cons, List.filter_cons, hg] at hn
  simp only [List.length_singleton, decide_true, if_true, List.nodup_cons] at hn
  exact hn.1 (List.mem_filter.mpr ⟨he ▸ List.mem_map_of_mem hd, by simp⟩)

/-- W6: a pin's single-pin group is found. -/
theorem findSinglePinGroup_self (h : tableOk c = true) {g : GroupDesc} (hg : g ∈ c.groups) {p : Nat}
    (hp : g.pins = [p]) : findSinglePinGroup c p = some g := by
  have h6 := (tableOk_iff.mp h).2.2.2.2.2.1
  rw [checkPins, Bool.and_eq_true, decide_eq_true_eq, singlePins] at h6
  have hn := h6.2
  clear h6 h
  unfold findSinglePinGroup
  induction hgs : c.groups generalizing c with
  | nil => simp [hgs] at hg
  | cons d ds ih =>
    rw [hgs] at hg hn
    rw [List.find?_cons]
    by_cases hd : d.pins = [p]
    · rcases List.mem_cons.mp hg with rfl | hg'
      · simp [hd]
      · exact absurd hp (singlePins_cons d ds p hd hn g hg')
    · rcases List.mem_cons.mp hg with rfl | hg'
      · exact absurd hp hd
      · simp only [beq_eq_false_iff_ne.mpr hd]
        have hn' : ((ds.map GroupDesc.pins).filter fun ps => decide (ps.length = 1)).Nodup := by
          rw [List.map_cons, List.filter_cons] at hn
          split at hn
          · exact (List.nodup_cons.mp hn).2
          · exact hn
        exact ih (c := { c with groups := ds }) hg' hn' rfl

/-- What a single-pin lookup finds. -/
theorem findSinglePinGroup_some {p : Nat} {g : GroupDesc} (h : findSinglePinGroup c p = some g) :
    g ∈ c.groups ∧ g.pins = [p] :=
  ⟨List.mem_of_find?_eq_some h, by simpa using List.find?_some h⟩

/-- A pin with no single-pin group is not found. -/
theorem findSinglePinGroup_none {p : Nat} (h : ∀ g ∈ c.groups, g.pins ≠ [p]) : findSinglePinGroup c p = none :=
  List.find?_eq_none.mpr fun g hg => by simpa using h g hg

/-! ### Resolve -/

/-- What an own-register component resolves to. -/
theorem resolveOwn_field {f : RawField} {r : Resolved} (h : resolveOwn f = .field r) :
    fieldPresent f = true ∧ r = ⟨f.bank, f.reg, f.bit.toNat, f.width⟩ := by
  unfold resolveOwn at h
  split at h
  · injection h with h
    exact ⟨‹_›, h.symm⟩
  · split at h <;> cases h

/-- What a dual-location component resolves to. -/
theorem resolveDual_field {g : GroupDesc} {f : RawBit} {m : Bool} {r : Resolved}
    (h : resolveDual g f m = .field r) :
    ∃ l, (if m then muxReg g else drvReg g) = some l ∧ bitPresent f = true ∧
      r = ⟨l.bank, l.reg, f.bit.toNat, f.width⟩ := by
  unfold resolveDual at h
  split at h
  · cases h
  · rename_i l hl
    split at h
    · injection h with h
      exact ⟨l, hl, ‹_›, h.symm⟩
    · cases h

/-- A field resolved from an own-register component of a checked table is mapped and fits. -/
theorem resolveOwn_fits (h : tableOk c = true) {g : GroupDesc} (hg : g ∈ c.groups) {f : RawField}
    (hf : f ∈ rawFields g) {r : Resolved} (hr : resolveOwn f = .field r) :
    mapped c r.bank r.reg = true ∧ 1 ≤ r.width ∧ r.width ≤ 16 ∧ r.bit + r.width ≤ 32 := by
  obtain ⟨hp, rfl⟩ := resolveOwn_field hr
  have := field_position h hg hf hp
  refine ⟨field_mapped h hg hf hp, this.1, this.2.1, ?_⟩
  simp only [fieldPresent, Bool.and_eq_true, decide_eq_true_eq] at hp
  simp only
  omega

/-- A field resolved from a dual-location component of a checked table is mapped and fits. -/
theorem resolveDual_fits (h : tableOk c = true) {g : GroupDesc} (hg : g ∈ c.groups) {f : RawBit}
    (hf : f ∈ rawBits g) {m : Bool} {r : Resolved} (hr : resolveDual g f m = .field r) :
    mapped c r.bank r.reg = true ∧ 1 ≤ r.width ∧ r.width ≤ 16 ∧ r.bit + r.width ≤ 32 := by
  obtain ⟨l, hl, hp, rfl⟩ := resolveDual_field hr
  have := bit_position h hg hf hp
  refine ⟨?_, this.1, this.2.1, ?_⟩
  · cases m
    · exact drvReg_mapped h hg hl
    · exact muxReg_mapped h hg hl
  · simp only [bitPresent, decide_eq_true_eq] at hp
    simp only
    omega

/-- No component of a checked table is malformed. -/
theorem resolve_not_malformed (h : tableOk c = true) {g : GroupDesc} (hg : g ∈ c.groups) (p : Param) :
    resolve c g p ≠ .malformed := by
  have own : ∀ f, f ∈ rawFields g → resolveOwn f ≠ .malformed := by
    intro f hf
    unfold resolveOwn
    rcases field_sentinel h hg hf with ha | hp
    · split
      · simp
      · simp
    · simp [hp]
  have dual : ∀ f m, resolveDual g f m ≠ .malformed := by
    intro f m
    unfold resolveDual
    split
    · simp
    · split <;> simp
  cases p <;> simp only [resolve] <;> first
    | exact own _ (by simp [rawFields])
    | exact dual _ _
    | (split <;> simp)

/-! ### The checks and the rule's own description -/

/-- A list of pairwise distinct images, position by position. -/
theorem nodup_map_iff {α β : Type} {f : α → β} {l : List α} : (l.map f).Nodup ↔
    ∀ (i j : Nat) (a b : α), l[i]? = some a → l[j]? = some b → f a = f b → i = j := by
  rw [List.nodup_iff_injective_getElem]
  constructor
  · intro h i j a b hi hj he
    obtain ⟨li, rfl⟩ := List.getElem?_eq_some_iff.mp hi
    obtain ⟨lj, rfl⟩ := List.getElem?_eq_some_iff.mp hj
    have := @h ⟨i, (List.length_map f).symm ▸ li⟩ ⟨j, (List.length_map f).symm ▸ lj⟩ (by simpa using he)
    simpa using this
  · rintro h ⟨i, hi⟩ ⟨j, hj⟩ he
    have hi' : i < l.length := List.length_map f ▸ hi
    have hj' : j < l.length := List.length_map f ▸ hj
    exact Fin.ext (h i j _ _ (List.getElem?_eq_getElem hi') (List.getElem?_eq_getElem hj') (by simpa using he))

/-- W6: no two single-pin groups share their pin, position by position. -/
theorem singlePins_nodup_iff : (singlePins c).Nodup ↔ ∀ (p i j : Nat) (g d : GroupDesc), c.groups[i]? = some g →
    c.groups[j]? = some d → g.pins = [p] → d.pins = [p] → i = j := by
  unfold singlePins
  generalize c.groups = l
  induction l with
  | nil => simp
  | cons a l ih =>
    have apart : (∀ (p i j : Nat) (g d : GroupDesc), (a :: l)[i]? = some g → (a :: l)[j]? = some d → g.pins = [p] →
          d.pins = [p] → i = j) ↔
        (∀ p, a.pins = [p] → ∀ d ∈ l, d.pins ≠ [p]) ∧
          ∀ (p i j : Nat) (g d : GroupDesc), l[i]? = some g → l[j]? = some d → g.pins = [p] → d.pins = [p] → i = j := by
      constructor
      · intro h
        refine ⟨fun p ha d hd hp => ?_, fun p i j g d hi hj hg hd => ?_⟩
        · obtain ⟨j, hj⟩ := List.mem_iff_getElem?.mp hd
          exact absurd (h p 0 (j + 1) a d rfl hj ha hp) (by omega)
        · have := h p (i + 1) (j + 1) g d hi hj hg hd
          omega
      · rintro ⟨h0, h⟩ p (_ | i) (_ | j) g d hi hj hg hd
        · rfl
        · obtain rfl : a = g := by simpa using hi
          exact absurd hd (h0 p hg d (List.mem_of_getElem? hj))
        · obtain rfl : a = d := by simpa using hj
          exact absurd hg (h0 p hd g (List.mem_of_getElem? hi))
        · rw [h p i j g d hi hj hg hd]
    rw [apart, ← ih, List.map_cons, List.filter_cons]
    split
    · next h1 =>
      obtain ⟨p, hp⟩ := List.length_eq_one_iff.mp (by simpa using h1)
      simp [hp]
    · next h1 =>
      have : ∀ p, a.pins ≠ [p] := fun p hp => h1 (by simp [hp])
      simp [this]

/-- Of a location that is absent or present, `≠ -1` says present. -/
theorem fieldPresent_of_ne {f : RawField} (h : (f.reg = -1 ∧ f.bit = -1) ∨ fieldPresent f = true) :
    f.reg ≠ -1 ↔ fieldPresent f = true := by
  simp only [fieldPresent, Bool.and_eq_true, decide_eq_true_eq] at *
  omega

/-- The checks of INIT refuse every table that W1 to W9 do not describe. -/
theorem wellFormed_of_tableOk (h : tableOk c = true) : WellFormedTable c := by
  have present : ∀ g ∈ c.groups, ∀ f ∈ rawFields g, (f.reg = -1 ∧ f.bit = -1) ∨ fieldPresent f = true :=
    fun g hg f hf => (field_sentinel h hg hf).imp_left fun h => by simpa [fieldAbsent] using h
  have sub : ∀ g : GroupDesc, ∀ f ∈ [g.einput, g.odrain, g.lock, g.ioreset, g.rcvsel, g.padpwr], f ∈ rawFields g := by
    intro g f hf
    simp only [List.mem_cons, List.not_mem_nil, or_false, rawFields] at hf ⊢
    tauto
  obtain ⟨h1, -, -, -, h5, h6, h7, h8, h9⟩ := tableOk_iff.mp h
  simp only [checkSentinels, checkSlots, checkPins, checkParked, checkNames, checkCounts, List.all_eq_true,
    Bool.and_eq_true, Bool.or_eq_true, decide_eq_true_eq] at h1 h5 h6 h7 h8 h9
  have bits : ∀ g ∈ c.groups, ∀ f ∈ rawBits g, f.bit = -1 ∨ bitPresent f = true := fun g hg => (h1 g hg).2
  exact {
    fields := fun g hg f hf => (present g hg f hf).imp_right fun hp =>
      have hp' : 0 ≤ f.reg ∧ 0 ≤ f.bit := by simpa [fieldPresent] using hp
      ⟨hp'.1, hp'.2, field_mapped h hg hf hp, field_position h hg hf hp⟩
    drive := fun g hg => (h1 g hg).1.2.imp_right fun hp => ⟨by simpa [regPresent] using hp, drv_mapped h hg hp⟩
    bits := fun g hg f hf => (bits g hg f hf).imp_right fun hp =>
      ⟨by simpa [bitPresent] using hp, bit_position h hg hf hp⟩
    muxWidth := fun g hg hn => mux_width h hg ((fieldPresent_of_ne (present g hg _ (by simp [rawFields]))).mp hn)
    singleFields := fun g hg f hf hn =>
      single_width h hg hf ((fieldPresent_of_ne (present g hg f (sub g f hf))).mp hn)
    singleBits := fun g hg f hf hn => single_bit_width h hg hf
      ((bits g hg f (by simp only [List.mem_cons, List.not_mem_nil, or_false, rawBits] at hf ⊢; tauto)).resolve_left hn)
    slots := fun g hg f hf => by simpa using h5 g hg _ hf
    pins := fun g hg => ⟨fun he => by simpa [he] using (h6.1 g hg).1, (h6.1 g hg).2⟩
    singlePin := singlePins_nodup_iff.mp h6.2
    parked := fun g hg hz => by
      rcases h7 g hg with (hp | hp) | hp
      · exact absurd hp hz
      · exact .inl ((fieldPresent_of_ne (.inr hp)).mpr hp)
      · exact .inr (by simp only [regPresent, decide_eq_true_eq] at hp; omega)
    groupNames := nodup_map_iff.mp h8.1.1
    functionNames := nodup_map_iff.mp h8.1.2
    functionNamed := h8.2
    counts := ⟨h9.1.1.1.1.1, h9.1.1.1.1.2, h9.1.1.1.2⟩
    geometry := ⟨h9.1.1.2, h9.1.2, h9.2⟩ }

/-- The checks of INIT accept every table that W1 to W9 describe. -/
theorem tableOk_of_wellFormed (h : WellFormedTable c) : tableOk c = true := by
  have present : ∀ g ∈ c.groups, ∀ f ∈ rawFields g, fieldPresent f = true → mapped c f.bank f.reg = true ∧
      1 ≤ f.width ∧ f.width ≤ 16 ∧ f.bit + f.width ≤ 32 := by
    intro g hg f hf hp
    simp only [fieldPresent, Bool.and_eq_true, decide_eq_true_eq] at hp
    rcases h.fields g hg f hf with hn | hn
    · omega
    · exact hn.2.2
  have bits : ∀ g ∈ c.groups, ∀ f ∈ rawBits g, bitPresent f = true →
      1 ≤ f.width ∧ f.width ≤ 16 ∧ f.bit + f.width ≤ 32 := by
    intro g hg f hf hp
    simp only [bitPresent, decide_eq_true_eq] at hp
    rcases h.bits g hg f hf with hn | hn
    · omega
    · exact hn.2
  have drive : ∀ g ∈ c.groups, regPresent g.drv = true → mapped c g.drv.bank g.drv.reg = true := by
    intro g hg hp
    simp only [regPresent, decide_eq_true_eq] at hp
    rcases h.drive g hg with hn | hn
    · omega
    · exact hn.2
  have absent : ∀ g ∈ c.groups, ∀ f ∈ rawFields g, fieldAbsent f = true ∨ fieldPresent f = true := by
    intro g hg f hf
    simp only [fieldAbsent, fieldPresent, Bool.and_eq_true, decide_eq_true_eq]
    rcases h.fields g hg f hf with hn | hn
    · exact .inl hn
    · exact .inr ⟨hn.1, hn.2.1⟩
  have ofPresent : ∀ f : RawField, fieldPresent f = true → f.reg ≠ -1 := fun f hp =>
    (fieldPresent_of_ne (.inr hp)).mpr hp
  have ofBit : ∀ f : RawBit, bitPresent f = true → f.bit ≠ -1 := fun f hp => by
    simp only [bitPresent, decide_eq_true_eq] at hp
    omega
  refine tableOk_iff.mpr ⟨?_, ?_, ?_, ?_, ?_, ?_, ?_, ?_, ?_⟩
  · simp only [checkSentinels, List.all_eq_true, Bool.and_eq_true, Bool.or_eq_true, decide_eq_true_eq]
    exact fun g hg => ⟨⟨absent g hg, (h.drive g hg).imp_right fun hp => by simpa [regPresent] using hp.1⟩,
      fun f hf => (h.bits g hg f hf).imp_right fun hp => by simpa [bitPresent] using hp.1⟩
  · simp only [checkAddresses, List.all_eq_true, Bool.and_eq_true, Bool.or_eq_true, Bool.not_eq_true',
      ← Bool.not_eq_true, ← imp_iff_not_or]
    exact fun g hg => ⟨fun f hf hp => (present g hg f hf hp).1, drive g hg⟩
  · simp only [checkPositions, List.all_eq_true, Bool.and_eq_true, Bool.or_eq_true, Bool.not_eq_true',
      ← Bool.not_eq_true, ← imp_iff_not_or, positionOk_iff]
    exact fun g hg => ⟨fun f hf hp => (present g hg f hf hp).2, bits g hg⟩
  · simp only [checkWidths, List.all_eq_true, Bool.and_eq_true, Bool.or_eq_true, Bool.not_eq_true',
      ← Bool.not_eq_true, ← imp_iff_not_or, decide_eq_true_eq]
    exact fun g hg => ⟨⟨fun hp => h.muxWidth g hg (ofPresent _ hp), fun f hf hp => h.singleFields g hg f hf (ofPresent _ hp)⟩,
      fun f hf hp => h.singleBits g hg f hf (ofBit _ hp)⟩
  · simp only [checkSlots, List.all_eq_true]
    intro g hg x hx
    split
    · rfl
    · exact decide_eq_true (h.slots g hg _ hx)
  · simp only [checkPins, List.all_eq_true, Bool.and_eq_true, decide_eq_true_eq]
    exact ⟨fun g hg => ⟨List.length_pos_iff.mpr (h.pins g hg).1, (h.pins g hg).2⟩, singlePins_nodup_iff.mpr h.singlePin⟩
  · simp only [checkParked, List.all_eq_true, Bool.or_eq_true, decide_eq_true_eq]
    intro g hg
    by_cases hz : g.parked = 0
    · exact .inl (.inl hz)
    · rcases h.parked g hg hz with hp | hp
      · rcases absent g hg g.mux (by simp [rawFields]) with ha | ha
        · simp [fieldAbsent, hp] at ha
        · exact .inl (.inr ha)
      · rcases h.drive g hg with ha | ha
        · exact absurd ha hp
        · exact .inr (by simpa [regPresent] using ha.1)
  · simp only [checkNames, List.all_eq_true, Bool.and_eq_true, decide_eq_true_eq]
    exact ⟨⟨nodup_map_iff.mpr h.groupNames, nodup_map_iff.mpr h.functionNames⟩, h.functionNamed⟩
  · simp only [checkCounts, List.all_eq_true, Bool.and_eq_true, decide_eq_true_eq]
    exact ⟨⟨⟨⟨⟨h.counts.1, h.counts.2.1⟩, h.counts.2.2⟩, h.geometry.1⟩, h.geometry.2.1⟩, h.geometry.2.2⟩

/-- The checks of INIT accept exactly the tables that W1 to W9 describe (R150). -/
theorem tableOk_iff_wellFormed : tableOk c = true ↔ WellFormedTable c :=
  ⟨wellFormed_of_tableOk, tableOk_of_wellFormed⟩

end Sys2Proof.Machine
end

