-- ==== Sys2Proof/Laws/Fields.lean ====
section
/-! SUPPORT. The field arithmetic of 00_scope.md R9 bit by bit, and the words the commands write with it. -/

namespace Sys2Proof.Machine

theorem oneBit_getLsbD {n k : Nat} (hk : k < 32) : (oneBit n).getLsbD k = decide (k = n) := by
  simp only [oneBit, BitVec.getLsbD_shiftLeft, BitVec.getLsbD_one, hk, decide_true, Bool.true_and]
  by_cases h : k < n <;> simp [h] <;> omega

theorem fieldMask_toNat {w : Nat} (h : w ≤ 16) : (fieldMask w).toNat = 2 ^ w - 1 := by
  have : 2 ^ w ≤ 2 ^ 16 := Nat.pow_le_pow_right (by decide) h
  have h1 : 1 ≤ 2 ^ w := Nat.one_le_two_pow
  simp only [fieldMask, BitVec.toNat_sub, BitVec.toNat_shiftLeft, BitVec.toNat_ofNat, Nat.shiftLeft_eq]
  omega

theorem fieldMask_getLsbD {w k : Nat} (h : w ≤ 16) : (fieldMask w).getLsbD k = decide (k < w) := by
  rw [← BitVec.testBit_toNat, fieldMask_toNat h, Nat.testBit_two_pow_sub_one]

/-- FIELD_GET is the quotient and remainder the document's "shift right, mask" gives. -/
theorem fieldGet_toNat (v : Word) {b w : Nat} (h : w ≤ 16) :
    (fieldGet v b w).toNat = v.toNat / 2 ^ b % 2 ^ w := by
  simp only [fieldGet, BitVec.toNat_and, BitVec.toNat_ushiftRight, fieldMask_toNat h, Nat.and_two_pow_sub_one_eq_mod,
    Nat.shiftRight_eq_div_pow]

theorem fieldGet_getLsbD (v : Word) {b w k : Nat} (h : w ≤ 16) :
    (fieldGet v b w).getLsbD k = (decide (k < w) && v.getLsbD (b + k)) := by
  simp [fieldGet, fieldMask_getLsbD h, Bool.and_comm]

/-- A one-bit field is its bit. -/
theorem fieldGet_one (v : Word) (b : Nat) : fieldGet v b 1 = if v.getLsbD b then 1 else 0 := by
  apply BitVec.eq_of_getLsbD_eq
  intro k hk
  rw [fieldGet_getLsbD v (by decide)]
  by_cases h0 : k = 0
  · subst h0
    cases v.getLsbD b <;> simp
  · have : ¬ k < 1 := by omega
    split <;> simp [this, h0]

/-- FIELD_PUT writes the field and no other bit. -/
theorem fieldPut_getLsbD (v x : Word) {b w k : Nat} (h : w ≤ 16) (hx : x.toNat < 2 ^ w) (hk : k < 32) :
    (fieldPut v b w x).getLsbD k = if b ≤ k ∧ k < b + w then x.getLsbD (k - b) else v.getLsbD k := by
  have hb : x.getLsbD (k - b) = true → k - b < w := by
    intro ht
    rw [← BitVec.testBit_toNat] at ht
    by_contra hc
    have : x.toNat < 2 ^ (k - b) := lt_of_lt_of_le hx (Nat.pow_le_pow_right (by decide) (by omega))
    rw [Nat.testBit_lt_two_pow this] at ht
    cases ht
  simp only [fieldPut, BitVec.getLsbD_or, BitVec.getLsbD_and, BitVec.getLsbD_not, BitVec.getLsbD_shiftLeft,
    fieldMask_getLsbD h, hk, decide_true, Bool.true_and]
  by_cases h1 : b ≤ k
  · have h1' : ¬ k < b := by omega
    by_cases h2 : k < b + w
    · have : k - b < w := by omega
      simp [h1, h1', h2, this]
    · have h3 : ¬ k - b < w := by omega
      have h4 : x.getLsbD (k - b) = false := by
        cases hh : x.getLsbD (k - b)
        · rfl
        · exact absurd (hb hh) h3
      simp [h1, h1', h2, h3, h4]
  · have h1' : k < b := by omega
    simp [h1, h1']

/-- A value below 2^w has no bit at or above w. -/
theorem shift_eq_zero {v : Word} {w : Nat} (h : v.toNat < 2 ^ w) : v >>> w = 0 := by
  apply BitVec.eq_of_toNat_eq
  simp [Nat.shiftRight_eq_div_pow, Nat.div_eq_of_lt h]

theorem arg_eq_zero {a : Half} : a.setWidth 32 = (0 : Word) ↔ a = 0 := by
  rw [← BitVec.toNat_inj, ← BitVec.toNat_inj, BitVec.toNat_setWidth]
  change a.toNat % 2 ^ 32 = 0 ↔ a.toNat = 0
  have := a.isLt
  omega

/-- The number CONF_SET writes into a field: the complement for PAD_POWER, 0 or 1 for a width-1 field, else the argument
(R128, R129 steps 2 and 4). -/
theorem hardwareValue_toNat (p : Param) (width : Nat) (a : Half) :
    (hardwareValue p width (a.setWidth 32)).toNat =
      if p = .padPower then (if a = 0 then 1 else 0)
      else if width = 1 then (if a = 0 then 0 else 1)
      else a.toNat := by
  have hl := a.isLt
  unfold hardwareValue logicalNot
  by_cases hp : p = .padPower <;> by_cases ha : a = 0 <;> by_cases hw : width = 1 <;>
    simp only [hp, ha, hw, if_true, if_false, ne_eq, arg_eq_zero, not_true_eq_false, not_false_eq_true] <;>
    rfl

/-- The tag of a named parameter, and its place in the packed word (R84, R127). -/
theorem ofTag_tag {t : Half} {p : Param} (h : Param.ofTag t = some p) : p.tag = t := by
  obtain ⟨hl, he⟩ := List.getElem?_eq_some_iff.mp h
  have key : ∀ n : Fin 18, (Param.all[n.val]'(n.isLt)).tag = BitVec.ofNat 16 n.val := by decide
  rw [← he]
  exact (key ⟨t.toNat, hl⟩).trans (BitVec.eq_of_toNat_eq (by
    rw [BitVec.toNat_ofNat]
    exact Nat.mod_eq_of_lt t.isLt))

/-- A tag of 18 or more names no parameter (R84). -/
theorem ofTag_none {t : Half} (h : 18 ≤ t.toNat) : Param.ofTag t = none := List.getElem?_eq_none h

/-- PACK of a parameter's value, as a number (R85). -/
theorem packValue_toNat (p : Param) {v : Word} (h : v.toNat < 65536) :
    (packValue p v).toNat = p.tag.toNat * 65536 + v.toNat := by
  unfold packValue pack
  rw [BitVec.toNat_append, BitVec.toNat_setWidth, Nat.mod_eq_of_lt h,
    ← Nat.shiftLeft_add_eq_or_of_lt (by simpa using h), Nat.shiftLeft_eq]

/-- The word SET_MUX writes, bit by bit: R121 steps 3 and 4. -/
theorem muxWord_getLsbD (c : Chip) (g : GroupDesc) (v : Word) {slot k : Nat} (hs : slot < 4) (hk : k < 32) :
    (muxWord c g slot v).getLsbD k =
      if c.sfselInMux = true ∧ k = g.sfsel.bit.toNat then true
      else if g.mux.bit.toNat ≤ k ∧ k < g.mux.bit.toNat + 2 then slot.testBit (k - g.mux.bit.toNat)
      else v.getLsbD k := by
  have hx : (BitVec.ofNat 32 slot).toNat < 2 ^ 2 := by
    rw [BitVec.toNat_ofNat]
    omega
  have hb : ∀ j, (BitVec.ofNat 32 slot).getLsbD j = slot.testBit j := by
    intro j
    rw [← BitVec.testBit_toNat, BitVec.toNat_ofNat, Nat.mod_eq_of_lt (by omega)]
  unfold muxWord
  by_cases hc : c.sfselInMux = true
  · simp only [hc, if_true, true_and]
    rw [BitVec.getLsbD_or, oneBit_getLsbD hk, fieldPut_getLsbD v _ (by decide) hx hk, hb]
    by_cases he : k = g.sfsel.bit.toNat <;> simp [he]
  · rw [if_neg hc, fieldPut_getLsbD v _ (by decide) hx hk, hb]
    simp [hc]

end Sys2Proof.Machine
end

