-- ==== Sys2Proof/Laws/Commands.lean ====
section
/-! SUPPORT. What each body of a command does where its checks pass: the read-modify-write of one register, and the
bodies built on it. -/

namespace Sys2Proof.Machine

/-! ### One register updated -/

/-- The state after a register was read, written with `v'` and read back. -/
def State.updated (s : State) (b o : Int) (v' : Word) : State :=
  ((s.afterRead b.toNat o.toNat).afterWrite b.toNat o.toNat v').afterRead b.toNat o.toNat

section updated
variable (s : State) (b o : Int) (v' : Word)

@[simp] theorem State.updated_chip : (s.updated b o v').chip = s.chip := rfl
@[simp] theorem State.updated_rsp : (s.updated b o v').rsp = s.rsp := rfl
@[simp] theorem State.updated_lc : (s.updated b o v').lc = s.lc := rfl
@[simp] theorem State.updated_fault : (s.updated b o v').fault = s.fault := rfl
@[simp] theorem State.updated_backup : (s.updated b o v').backup = s.backup := rfl
@[simp] theorem State.updated_pinbak : (s.updated b o v').pinbak = s.pinbak := rfl
@[simp] theorem State.updated_pinsaved : (s.updated b o v').pinsaved = s.pinsaved := rfl
@[simp] theorem State.updated_fg : (s.updated b o v').fg = s.fg := rfl
@[simp] theorem State.updated_bank :
    (s.updated b o v').bank = writeWord s.bank (flatAddr b.toNat o.toNat) v' := rfl

/-- The three bus events of a read-modify-write (R56, R129). -/
theorem updated_trace : ∃ back, (s.updated b o v').trace = s.trace ++
    [.read b.toNat o.toNat (bankAnswer s b.toNat o.toNat), .write b.toNat o.toNat v',
      .read b.toNat o.toNat back] :=
  ⟨_, by simp only [State.updated, State.afterRead_trace, State.afterWrite_trace, List.append_assoc]; rfl⟩

theorem updated_wordAt (hw : Memory.wf s.bank = true) : (s.updated b o v').wordAt b o = v' :=
  readWord_writeWord_same _ _ hw

theorem updated_bytes : BytesKeptBut b o s (s.updated b o v') := fun _ ha =>
  readByte_writeWord_outside _ _ ha

theorem updated_onlyBus : OnlyBus s (s.updated b o v') := rfl

end updated

/-- What a word of the bank reads as, asked over the bus with the storage model. -/
theorem bankAnswer_wordAt {s : State} (h : s.chip.readModel = .storage) (b o : Int) :
    bankAnswer s b.toNat o.toNat = s.wordAt b o := bankAnswer_storage h _ _

/-- The word at one location after a word was written at another. -/
theorem wordAt_disjoint {s t : State} {b o b' o' : Int} (hk : BytesKeptBut b o s t)
    (hd : flatAddr b.toNat o.toNat + 4 ≤ flatAddr b'.toNat o'.toNat ∨
      flatAddr b'.toNat o'.toNat + 4 ≤ flatAddr b.toNat o.toNat) :
    t.wordAt b' o' = s.wordAt b' o' := by
  unfold State.wordAt readWord
  rw [hk _ (by omega), hk _ (by omega), hk _ (by omega), hk _ (by omega)]

/-- A response after a field update makes it a `WroteRegister`. -/
theorem wroteRegister_updated (s : State) (b o : Int) (v' : Word) (hw : Memory.wf s.bank = true) :
    WroteRegister b o (bankAnswer s b.toNat o.toNat) v' s ((s.updated b o v').replied [] []) :=
  ⟨updated_trace s b o v', updated_wordAt s b o v' hw, updated_bytes s b o v', rfl, rfl⟩

/-- Reading a mapped register and writing it back changed, as every field write does. -/
theorem modify_run {s : State} {b o : Int} (h : mapped s.chip b o = true) (f : Word → Word) :
    (memRead b o >>= fun v => regWrite b o (f v)) s =
      .ok () (s.updated b o (f (bankAnswer s b.toNat o.toNat))) := by
  rw [bind_run_ok (memRead_mapped h), regWrite_mapped (s := s.afterRead b.toNat o.toNat) h]
  rfl

/-! ### The bodies -/

variable {c : Chip} {s : State} {g : GroupDesc}

theorem groupAt_some {i : Nat} (h : c.groups[i]? = some g) : groupAt c i s = .ok g s := by
  unfold groupAt
  rw [h]
  rfl

theorem groupAt_none {i : Nat} (h : c.groups.length ≤ i) :
    groupAt c i s = .error (.raised .fatal .indexOutOfRange) s := by
  unfold groupAt
  rw [List.getElem?_eq_none h]
  rfl

theorem functionAt_some {i : Nat} {f : FunctionDesc} (h : c.funcs[i]? = some f) :
    functionAt c i s = .ok f s := by
  unfold functionAt
  rw [h]
  rfl

theorem functionAt_none {i : Nat} (h : c.funcs.length ≤ i) :
    functionAt c i s = .error (.raised .fatal .indexOutOfRange) s := by
  unfold functionAt
  rw [List.getElem?_eq_none h]
  rfl

/-- MuxBody where its checks pass (R121 steps 3 to 5). -/
theorem muxBody_run {f slot : Nat} (hp : fieldPresent g.mux = true) (hs : slotOf g.funcs f = some slot)
    (hb : c.sfselInMux = true → bitPresent g.sfsel = true) (hm : mapped s.chip g.mux.bank g.mux.reg = true) :
    muxBody c f g s = .ok ⟨[], []⟩ (s.updated g.mux.bank g.mux.reg
      (muxWord c g slot (bankAnswer s g.mux.bank.toNat g.mux.reg.toNat))) := by
  unfold muxBody
  rw [if_pos hp, hs]
  have : (c.sfselInMux && !bitPresent g.sfsel) = false := by
    cases hc : c.sfselInMux
    · rfl
    · simp [hb hc]
  simp only [this]
  rw [if_neg (by simp), bind_run_ok (memRead_mapped hm),
    bind_run_ok (regWrite_mapped (s := s.afterRead _ _) hm)]
  rfl

/-- What Resolve gives a command whose parameter has a field. -/
theorem resolveTag_field {tag : Half} {p : Param} {r : Resolved} (hp : Param.ofTag tag = some p)
    (hr : resolve c g p = .field r) : resolveTag c g tag s = .ok ⟨p, r⟩ s := by
  unfold resolveTag
  rw [hp]
  simp only [hr]
  rfl

/-- What Resolve gives a command whose parameter has no field, or whose tag names none. -/
theorem resolveTag_unsupported {tag : Half}
    (h : Param.ofTag tag = none ∨ ∃ p, Param.ofTag tag = some p ∧ resolve c g p = .unsupported) :
    resolveTag c g tag s = .error (.failed .unsupported) s := by
  unfold resolveTag
  rcases h with h | ⟨p, h, hr⟩
  · rw [h]
    rfl
  · rw [h]
    simp only [hr]
    rfl

/-- Reading a parameter of a mapped field (R127 steps 2 and 3). -/
theorem readParam_run {p : Param} {r : Resolved} (hm : mapped s.chip r.bank r.reg = true) :
    readParam p r s = .ok (softwareValue p (fieldGet (bankAnswer s r.bank.toNat r.reg.toNat) r.bit r.width))
      (s.afterRead r.bank.toNat r.reg.toNat) := by
  unfold readParam
  rw [bind_run_ok (memRead_mapped hm)]
  rfl

/-- The range check's failure (R129 step 5). -/
theorem writeField_tooWide {r : Resolved} {v : Word} (h : v >>> r.width ≠ 0) :
    writeField r v s = .error (.failed .invalidArgument) s := by
  unfold writeField
  rw [if_pos h]
  rfl

/-- A value that fits its mapped field is written (R129 step 6). -/
theorem writeField_run {r : Resolved} {v : Word} (h : v >>> r.width = 0)
    (hm : mapped s.chip r.bank r.reg = true) :
    writeField r v s = .ok () (s.updated r.bank r.reg
      (fieldPut (bankAnswer s r.bank.toNat r.reg.toNat) r.bit r.width v)) := by
  unfold writeField
  rw [if_neg (by simp [h])]
  exact modify_run hm _

/-- The lock check of any tag but LOCK does nothing (R129 step 3). -/
theorem lockGuard_other {p : Param} {r : Resolved} {v : Word} (h : p ≠ .lock) : lockGuard p r v s = .ok () s := by
  unfold lockGuard
  rw [if_neg h]
  rfl

/-- The lock check, passed: one read (R129 step 3). -/
theorem lockGuard_passes {r : Resolved} {v : Word} (hm : mapped s.chip r.bank r.reg = true)
    (h : (bankAnswer s r.bank.toNat r.reg.toNat).getLsbD r.bit = true → v ≠ 0) :
    lockGuard .lock r v s = .ok () (s.afterRead r.bank.toNat r.reg.toNat) := by
  unfold lockGuard lockCheck
  rw [if_pos rfl, bind_run_ok (memRead_mapped hm), fieldGet_one, if_neg]
  · rfl
  · rintro ⟨h1, h2⟩
    split at h1
    · exact h ‹_› h2
    · exact absurd h1 (by decide)

/-- The lock check, failed: one read, then InvalidArgument (R129 step 3). -/
theorem lockGuard_fails {r : Resolved} (hm : mapped s.chip r.bank r.reg = true)
    (h : (bankAnswer s r.bank.toNat r.reg.toNat).getLsbD r.bit = true) :
    lockGuard .lock r 0 s = .error (.failed .invalidArgument) (s.afterRead r.bank.toNat r.reg.toNat) := by
  unfold lockGuard lockCheck
  rw [if_pos rfl, bind_run_ok (memRead_mapped hm), fieldGet_one, h, if_pos ⟨rfl, rfl⟩]
  rfl

/-- One entry, its lock check passed and its value in range (R129). -/
theorem setOne_run {w : ConfWord} {p : Param} {r : Resolved} {t : State} (hp : Param.ofTag w.tag = some p)
    (hr : resolve c g p = .field r) (hl : lockGuard p r (w.arg.setWidth 32) s = .ok () t)
    (hv : hardwareValue p r.width (w.arg.setWidth 32) >>> r.width = 0) (hm : mapped t.chip r.bank r.reg = true) :
    setOne c g w s = .ok () (t.updated r.bank r.reg
      (fieldPut (bankAnswer t r.bank.toNat r.reg.toNat) r.bit r.width
        (hardwareValue p r.width (w.arg.setWidth 32)))) := by
  unfold setOne
  rw [bind_run_ok (resolveTag_field hp hr)]
  show (lockGuard p r (w.arg.setWidth 32) >>= fun _ =>
    writeField r (hardwareValue p r.width (w.arg.setWidth 32))) s = _
  rw [bind_run_ok hl, writeField_run hv hm]

/-- One entry whose parameter has no field (R129 step 1). -/
theorem setOne_unsupported {w : ConfWord}
    (h : Param.ofTag w.tag = none ∨ ∃ p, Param.ofTag w.tag = some p ∧ resolve c g p = .unsupported) :
    setOne c g w s = .error (.failed .unsupported) s := by
  unfold setOne
  exact bind_run_error (resolveTag_unsupported h)

/-- One entry whose lock check fails (R129 step 3). -/
theorem setOne_locked {w : ConfWord} {p : Param} {r : Resolved} {e : Stop} {t : State}
    (hp : Param.ofTag w.tag = some p) (hr : resolve c g p = .field r)
    (hl : lockGuard p r (w.arg.setWidth 32) s = .error e t) : setOne c g w s = .error e t := by
  unfold setOne
  rw [bind_run_ok (resolveTag_field hp hr)]
  exact bind_run_error hl

/-- One entry whose value does not fit (R129 step 5). -/
theorem setOne_tooWide {w : ConfWord} {p : Param} {r : Resolved} {t : State} (hp : Param.ofTag w.tag = some p)
    (hr : resolve c g p = .field r) (hl : lockGuard p r (w.arg.setWidth 32) s = .ok () t)
    (hv : hardwareValue p r.width (w.arg.setWidth 32) >>> r.width ≠ 0) :
    setOne c g w s = .error (.failed .invalidArgument) t := by
  unfold setOne
  rw [bind_run_ok (resolveTag_field hp hr)]
  show (lockGuard p r (w.arg.setWidth 32) >>= fun _ =>
    writeField r (hardwareValue p r.width (w.arg.setWidth 32))) s = _
  rw [bind_run_ok hl, writeField_tooWide hv]

theorem setEach_nil : setEach c g [] s = .ok () s := rfl

theorem setEach_cons_ok {w : ConfWord} {ws : List ConfWord} {t : State} (h : setOne c g w s = .ok () t) :
    setEach c g (w :: ws) s = setEach c g ws t := bind_run_ok h

theorem setEach_cons_error {w : ConfWord} {ws : List ConfWord} {e : Stop} {t : State}
    (h : setOne c g w s = .error e t) : setEach c g (w :: ws) s = .error e t := bind_run_error h

theorem confSetGroup_ok {ws : List ConfWord} {t : State} (h : setEach c g ws s = .ok () t) :
    confSetGroup c g ws s = .ok ⟨[], []⟩ t := bind_run_ok h

theorem confSetGroup_error {ws : List ConfWord} {e : Stop} {t : State} (h : setEach c g ws s = .error e t) :
    confSetGroup c g ws s = .error e t := bind_run_error h

/-- The save of a pin whose group has a mux field (R140). -/
theorem saveBody_mux {p : Nat} (hg : findSinglePinGroup c p = some g) (hp : fieldPresent g.mux = true)
    (hm : mapped s.chip g.mux.bank g.mux.reg = true) (hl : p < s.pinbak.length ∧ p < s.pinsaved.length) :
    saveBody c p s = .ok () { s.afterRead g.mux.bank.toNat g.mux.reg.toNat with
      pinbak := s.pinbak.set p (bankAnswer s g.mux.bank.toNat g.mux.reg.toNat)
      pinsaved := s.pinsaved.set p true } := by
  unfold saveBody singlePinGroup
  rw [hg]
  show (if fieldPresent g.mux then (memRead g.mux.bank g.mux.reg >>= savePin p) else pure ()) s = _
  rw [if_pos hp, bind_run_ok (memRead_mapped hm)]
  unfold savePin
  rw [if_pos (by simpa using hl)]
  rfl

/-- The save of a pin whose group has no mux field (R140). -/
theorem saveBody_noMux {p : Nat} (hg : findSinglePinGroup c p = some g) (hp : fieldPresent g.mux = false) :
    saveBody c p s = .ok () s := by
  unfold saveBody singlePinGroup
  rw [hg]
  show (if fieldPresent g.mux then (memRead g.mux.bank g.mux.reg >>= savePin p) else pure ()) s = _
  rw [if_neg (by simp [hp])]
  rfl

/-- The save of a pin no single-pin group has (R138). -/
theorem saveBody_notFound {p : Nat} (hg : findSinglePinGroup c p = none) :
    saveBody c p s = .error (.failed .notFound) s := by
  unfold saveBody singlePinGroup
  rw [hg]
  rfl

/-- The restore of a saved pin: the saved word and its readback (R141). -/
theorem restoreBody_mux {p : Nat} {v : Word} (hg : findSinglePinGroup c p = some g)
    (hp : fieldPresent g.mux = true) (hm : mapped s.chip g.mux.bank g.mux.reg = true)
    (hs : s.pinsaved[p]? = some true) (hv : s.pinbak[p]? = some v) :
    restoreBody c p s = .ok ⟨[], []⟩ ((s.afterWrite g.mux.bank.toNat g.mux.reg.toNat v).afterRead
      g.mux.bank.toNat g.mux.reg.toNat) := by
  unfold restoreBody singlePinGroup
  rw [hg]
  show (if fieldPresent g.mux then (savedPin p >>= fun v => regWrite g.mux.bank g.mux.reg v >>= fun _ =>
    respond [] []) else respond [] []) s = _
  have e : savedPin p s = .ok v s := by
    unfold savedPin
    rw [hs, hv]
  rw [if_pos hp, bind_run_ok e, bind_run_ok (regWrite_mapped hm)]
  rfl

/-- The restore of a pin whose group has no mux field (R141). -/
theorem restoreBody_noMux {p : Nat} (hg : findSinglePinGroup c p = some g) (hp : fieldPresent g.mux = false) :
    restoreBody c p s = .ok ⟨[], []⟩ s := by
  unfold restoreBody singlePinGroup
  rw [hg]
  show (if fieldPresent g.mux then (savedPin p >>= fun v => regWrite g.mux.bank g.mux.reg v >>= fun _ =>
    respond [] []) else respond [] []) s = _
  rw [if_neg (by simp [hp])]
  rfl

/-- The restore of a pin with no save since INIT (R141). -/
theorem restoreBody_unsaved {p : Nat} (hg : findSinglePinGroup c p = some g) (hp : fieldPresent g.mux = true)
    (hs : s.pinsaved[p]? = some false) (hl : p < s.pinbak.length) :
    restoreBody c p s = .error (.raised .sequenceError .sequence) s := by
  unfold restoreBody singlePinGroup
  rw [hg]
  show (if fieldPresent g.mux then (savedPin p >>= fun v => regWrite g.mux.bank g.mux.reg v >>= fun _ =>
    respond [] []) else respond [] []) s = _
  have e : savedPin p s = .error (.raised .sequenceError .sequence) s := by
    unfold savedPin
    rw [hs, List.getElem?_eq_getElem hl]
  rw [if_pos hp, bind_run_error e]

/-- The select bit of a group is cleared (R142). -/
theorem takeGpio_run (hp : fieldPresent g.mux = true) (hb : bitPresent g.sfsel = true)
    (hm : mapped s.chip g.mux.bank g.mux.reg = true) :
    takeGpio g s = .ok ⟨[], []⟩ (s.updated g.mux.bank g.mux.reg
      (bankAnswer s g.mux.bank.toNat g.mux.reg.toNat &&& ~~~(oneBit g.sfsel.bit.toNat))) := by
  unfold takeGpio
  rw [if_pos (by simp [hp, hb]), bind_run_ok (memRead_mapped hm),
    bind_run_ok (regWrite_mapped (s := s.afterRead _ _) hm)]
  rfl

/-- One group's parked bits are cleared in its register (R155). -/
theorem clearIfParked_run {r : Loc} (hz : g.parked ≠ 0) (hr : parkedReg g = some r)
    (hm : mapped s.chip r.bank r.reg = true) :
    clearIfParked g s = .ok () (s.updated r.bank r.reg
      (bankAnswer s r.bank.toNat r.reg.toNat &&& ~~~g.parked)) := by
  unfold clearIfParked
  rw [if_pos hz]
  unfold clearGroup
  simp only [hr]
  exact modify_run hm _

/-- A group without a parked mask has its register left alone (R155). -/
theorem clearIfParked_zero (hz : g.parked = 0) : clearIfParked g s = .ok () s := by
  unfold clearIfParked
  rw [if_neg (by simp [hz])]
  rfl

/-! ### From body to command -/

/-- A command accepted in READY. -/
theorem runCommand_ready {op : Op} {body : M Reply} (h : s.lc = .ready) (ha : accepts op .ready = true) :
    runCommand op body s = .next (conclude (body s)) :=
  runCommand_accepted (by simp [h]) (by rw [h]; exact ha)

/-- CONF_GET of a parameter whose field is mapped. -/
theorem exec_confGet_run {x : Half} {w : ConfWord} {p : Param} {r : Resolved} (hr : s.lc = .ready)
    (hg : s.chip.groups[x.toNat]? = some g) (hp : Param.ofTag w.tag = some p)
    (hres : resolve s.chip g p = .field r) (hm : mapped s.chip r.bank r.reg = true) :
    exec (.confGet x w) s = .next ((s.afterRead r.bank.toNat r.reg.toNat).replied
      [packValue p (softwareValue p (fieldGet (bankAnswer s r.bank.toNat r.reg.toNat) r.bit r.width))] []) := by
  show runCommand .confGet _ s = _
  rw [runCommand_ready hr rfl]
  unfold confGetBody
  rw [bind_run_ok (groupAt_some hg), bind_run_ok (resolveTag_field hp hres), bind_run_ok (readParam_run hm)]
  rfl

/-- CONF_SET of a known group runs its entries. -/
theorem exec_confSet_run {x : Half} {es : List ConfWord} (hr : s.lc = .ready)
    (hg : s.chip.groups[x.toNat]? = some g) :
    exec (.confSet x es) s = .next (conclude (confSetGroup s.chip g es s)) := by
  show runCommand .confSet _ s = _
  rw [runCommand_ready hr rfl]
  unfold confSetBody
  rw [bind_run_ok (groupAt_some hg)]

/-- APPLY_CONF_NAMED of a known name runs its entries. -/
theorem exec_applyConf_run {es : List ConfWord} (hr : s.lc = .ready) {n : Name}
    (hg : lookupGroup s.chip n = some g) :
    exec (.applyConfNamed n es) s = .next (conclude (confSetGroup s.chip g es s)) := by
  show runCommand .applyConfNamed _ s = _
  rw [runCommand_ready hr rfl]
  unfold applyConfBody namedGroup
  rw [hg]
  rfl

end Sys2Proof.Machine
end

