-- ==== Sys2Proof/Laws/PerInstr.lean ====
section
/-! SUPPORT. Lemmas per instruction as syntax. `Lengths`: a well-formed instruction encodes to as many ARG words and
NAMEARG entries as its OP and AUX alone say (30_encoding.md R89). -/

namespace Sys2Proof.Laws.Lengths

open Sys2Proof

/-- The encoding has the lengths R89 takes from OP and AUX. -/
def Statement (i : Instr) : Prop :=
  i.wellFormed true = true →
    (encode i).args.length = i.op.argCount (auxField (encode i).cmd) ∧
    (encode i).names.length = i.op.nameCount (auxField (encode i).cmd)

/-- AUX comes back from an assembled command word (R81). -/
theorem auxField_cmdWord (op : Op) (aux : Byte) (idx : Half) : auxField (cmdWord op aux idx) = aux := by
  apply BitVec.eq_of_getLsbD_eq
  intro i hi
  simp only [auxField, cmdWord, BitVec.getLsbD_extractLsb', BitVec.getLsbD_append]
  simp [hi, show ¬ 16 + i < 16 by omega]

theorem init : Statement .init := fun _ => ⟨rfl, rfl⟩
theorem clearParked : Statement .clearParked := fun _ => ⟨rfl, rfl⟩
theorem groupCount : Statement .groupCount := fun _ => ⟨rfl, rfl⟩
theorem groupName (g : Half) : Statement (.groupName g) := fun _ => ⟨rfl, rfl⟩
theorem groupPins (g : Half) : Statement (.groupPins g) := fun _ => ⟨rfl, rfl⟩
theorem functionCount : Statement .functionCount := fun _ => ⟨rfl, rfl⟩
theorem functionName (f : Half) : Statement (.functionName f) := fun _ => ⟨rfl, rfl⟩
theorem functionGroups (f : Half) : Statement (.functionGroups f) := fun _ => ⟨rfl, rfl⟩
theorem setMux (f g : Half) : Statement (.setMux f g) := fun _ => ⟨rfl, rfl⟩
theorem confGet (g : Half) (param : ConfWord) : Statement (.confGet g param) := fun _ => ⟨rfl, rfl⟩

theorem confSet (g : Half) (entries : List ConfWord) : Statement (.confSet g entries) := by
  intro h
  have hlen : entries.length ≤ 255 := by simpa [Instr.wellFormed] using h
  simp only [encode, Instr.op, auxField_cmdWord, Op.argCount, Op.nameCount, List.length_map,
    BitVec.toNat_ofNat, List.length_nil, and_true]
  omega

theorem dumpGroup (g : Half) : Statement (.dumpGroup g) := fun _ => ⟨rfl, rfl⟩

theorem applyMuxNamed (group : Name) (function : Option Name) :
    Statement (.applyMuxNamed group function) := by
  intro _
  cases function <;> simp [encode, Instr.op, auxField_cmdWord, Op.argCount, Op.nameCount]

theorem applyConfNamed (group : Name) (entries : List ConfWord) :
    Statement (.applyConfNamed group entries) := by
  intro h
  have hlen : entries.length ≤ 255 := by simpa [Instr.wellFormed] using h
  simp only [encode, Instr.op, auxField_cmdWord, Op.argCount, Op.nameCount, List.length_map,
    BitVec.toNat_ofNat, List.length_cons, List.length_nil, and_true]
  omega

theorem saveConfig (p : Half) : Statement (.saveConfig p) := fun _ => ⟨rfl, rfl⟩
theorem restoreConfig (p : Half) : Statement (.restoreConfig p) := fun _ => ⟨rfl, rfl⟩
theorem gpioRequestEnable (p : Half) : Statement (.gpioRequestEnable p) := fun _ => ⟨rfl, rfl⟩
theorem gpioDisableFree (p : Half) : Statement (.gpioDisableFree p) := fun _ => ⟨rfl, rfl⟩
theorem suspend : Statement .suspend := fun _ => ⟨rfl, rfl⟩
theorem resume : Statement .resume := fun _ => ⟨rfl, rfl⟩

end Sys2Proof.Laws.Lengths
end

