-- ==== Sys2Proof/Laws/Power.lean ====
section
/-! SUPPORT. The cursor order of SUSPEND and RESUME (45_lifecycle.md R162), what their loops do, and the bound on the
reverse index (40_resolver.md R112). -/

namespace Sys2Proof.Machine

/-! ### The cursor -/

/-- The words of banks numbered from `i` on, in cursor order. -/
def cursorFrom (ns : List Nat) (i : Nat) : List (Nat × Nat) :=
  (ns.zipIdx i).flatMap fun (n, b) => (List.range n).map fun w => (b, w)

theorem cursorWords_eq (c : Chip) : cursorWords c = cursorFrom c.words 0 := rfl

theorem cursorFrom_cons (n : Nat) (ns : List Nat) (i : Nat) :
    cursorFrom (n :: ns) i = (List.range n).map (fun w => (i, w)) ++ cursorFrom ns (i + 1) := by
  simp [cursorFrom, List.zipIdx_cons]

theorem cursorFrom_length (ns : List Nat) (i : Nat) : (cursorFrom ns i).length = ns.sum := by
  induction ns generalizing i with
  | nil => rfl
  | cons n ns ih => simp [cursorFrom_cons, ih]

theorem cursorWords_length (c : Chip) : (cursorWords c).length = c.words.sum := cursorFrom_length _ _

theorem mem_cursorFrom {ns : List Nat} {i b w : Nat} :
    (b, w) ∈ cursorFrom ns i ↔ i ≤ b ∧ ∃ n, ns[b - i]? = some n ∧ w < n := by
  induction ns generalizing i with
  | nil => simp [cursorFrom]
  | cons n ns ih =>
    rw [cursorFrom_cons, List.mem_append, ih]
    simp only [List.mem_map, List.mem_range, Prod.mk.injEq]
    constructor
    · rintro (⟨x, hx, rfl, rfl⟩ | ⟨h1, m, hm, hw⟩)
      · exact ⟨le_refl _, n, by simp, hx⟩
      · refine ⟨by omega, m, ?_, hw⟩
        have : b - i = (b - (i + 1)) + 1 := by omega
        rw [this]
        simpa using hm
    · rintro ⟨h1, m, hm, hw⟩
      by_cases hb : b = i
      · subst hb
        left
        simp only [Nat.sub_self, List.getElem?_cons_zero, Option.some.injEq] at hm
        exact ⟨w, by omega, rfl, rfl⟩
      · right
        refine ⟨by omega, m, ?_, hw⟩
        have : b - i = (b - (i + 1)) + 1 := by omega
        rw [this] at hm
        simpa using hm

/-- The cursor visits exactly the words that exist. -/
theorem mem_cursorWords {c : Chip} {b w : Nat} :
    (b, w) ∈ cursorWords c ↔ ∃ n, c.words[b]? = some n ∧ w < n := by
  rw [cursorWords_eq, mem_cursorFrom]
  simp

/-- A word the cursor visits is mapped. -/
theorem cursor_mapped {c : Chip} {b w : Nat} (h : (b, w) ∈ cursorWords c) : mapped c b (4 * w) = true := by
  obtain ⟨n, hn, hw⟩ := mem_cursorWords.mp h
  rw [mapped_iff]
  exact ⟨by omega, by omega, by omega, n, by simpa using hn, by omega⟩

/-- The cursor position of a word (R162). -/
theorem cursorFrom_getElem? {ns : List Nat} {i b w n : Nat} (hn : ns[b]? = some n) (hw : w < n) :
    (cursorFrom ns i)[(ns.take b).sum + w]? = some (i + b, w) := by
  induction ns generalizing i b with
  | nil => simp at hn
  | cons m ns ih =>
    rw [cursorFrom_cons]
    cases b with
    | zero =>
      simp only [List.getElem?_cons_zero, Option.some.injEq] at hn
      subst hn
      rw [List.getElem?_append_left (by simpa using hw)]
      simp [hw]
    | succ b =>
      rw [List.getElem?_append_right (by simp; omega)]
      have := ih (i := i + 1) (b := b) (by simpa using hn)
      simp only [List.take_succ_cons, List.sum_cons, List.length_map, List.length_range]
      rw [show m + (ns.take b).sum + w - m = (ns.take b).sum + w by omega, this]
      simp only [Option.some.injEq, Prod.mk.injEq, and_true]
      omega

theorem cursorWords_getElem? {c : Chip} {b w n : Nat} (hn : c.words[b]? = some n) (hw : w < n) :
    (cursorWords c)[(c.words.take b).sum + w]? = some (b, w) := by
  have := cursorFrom_getElem? (i := 0) hn hw
  simpa [cursorWords_eq] using this

theorem cursorFrom_nodup (ns : List Nat) (i : Nat) : (cursorFrom ns i).Nodup := by
  induction ns generalizing i with
  | nil => simp [cursorFrom]
  | cons n ns ih =>
    rw [cursorFrom_cons, List.nodup_append]
    refine ⟨?_, ih (i + 1), ?_⟩
    · exact List.Nodup.map (fun a b h => by simpa using h) List.nodup_range
    · rintro ⟨b, w⟩ h1 ⟨b', w'⟩ h2 he
      cases he
      simp only [List.mem_map, List.mem_range, Prod.mk.injEq] at h1
      obtain ⟨_, _, rfl, rfl⟩ := h1
      have := (mem_cursorFrom.mp h2).1
      omega

/-- No word is visited twice. -/
theorem cursorWords_nodup (c : Chip) : (cursorWords c).Nodup := cursorFrom_nodup _ _

/-! ### The loops -/

/-- The suspend loop over mapped words: one read each, the values in BACKUP from position `k` on (R160). -/
theorem drainWords_run (ws : List (Nat × Nat)) (k : Nat) (s : State)
    (hm : ∀ x ∈ ws, mapped s.chip x.1 (4 * x.2) = true) (hk : k + ws.length ≤ s.backup.length) :
    ∃ vs d, vs.length = ws.length ∧
      drainWords ws k s = .ok () { s with
        backup := s.backup.take k ++ vs ++ s.backup.drop (k + ws.length)
        trace := s.trace ++ ws.zipWith (fun x v => BusEvent.read x.1 (4 * x.2) v) vs
        draws := d } ∧
      (s.chip.readModel = .storage → vs = ws.map fun x => s.bankWord x.1 x.2) := by
  induction ws generalizing k s with
  | nil =>
    refine ⟨[], s.draws, rfl, ?_, fun _ => rfl⟩
    simp only [List.length_nil, Nat.add_zero, List.append_nil, List.take_append_drop, List.zipWith_nil_left]
    rfl
  | cons x ws ih =>
    obtain ⟨b, w⟩ := x
    have hmb : mapped s.chip b (4 * w) = true := hm (b, w) (by simp)
    have hlen : k < s.backup.length := by
      simp only [List.length_cons] at hk
      omega
    let a := bankAnswer s b (4 * w)
    let s1 : State := { s.afterRead b (4 * w) with backup := s.backup.set k a }
    have e1 : memRead b (4 * w) s = .ok a (s.afterRead b (4 * w)) := memRead_mapped hmb
    have e2 : writeBackup k a (s.afterRead b (4 * w)) = .ok () s1 := if_pos hlen
    obtain ⟨vs, d, hl, he, hst⟩ := ih (k + 1) s1 (fun x hx => hm x (by simp [hx]))
      (by simp only [List.length_cons] at hk; simp [s1]; omega)
    refine ⟨a :: vs, d, by simp [hl], ?_, ?_⟩
    · show (memRead b (4 * w) >>= fun v => writeBackup k v >>= fun _ => drainWords ws (k + 1)) s = _
      rw [bind_run_ok e1, bind_run_ok e2, he]
      have hb : (s.backup.set k a).take (k + 1) ++ vs ++ (s.backup.set k a).drop (k + 1 + ws.length) =
          s.backup.take k ++ (a :: vs) ++ s.backup.drop (k + (ws.length + 1)) := by
        rw [List.take_succ_eq_append_getElem (by simpa using hlen), List.drop_set_of_lt (by omega),
          List.take_set_of_le (by omega)]
        simp [show k + 1 + ws.length = k + (ws.length + 1) by omega]
      simp only [s1, State.afterRead_trace, List.length_cons, hb, List.zipWith_cons_cons, List.append_assoc,
        List.singleton_append]
      rfl
    · intro h
      have ha : a = s.bankWord b w := bankAnswer_storage h _ _
      rw [List.map_cons, hst h, ha]
      rfl

/-- The banks after the resume loop has written `vs` to the words `ws`. -/
def refillBank : List (Nat × Nat) → List Word → Memory → Memory
  | x :: ws, v :: vs, m => refillBank ws vs (writeWord m (flatAddr x.1 (4 * x.2)) v)
  | _, _, m => m

/-- The resume loop over mapped words whose values BACKUP holds from position `k` on (R161). -/
theorem refillWords_run (ws : List (Nat × Nat)) (k : Nat) (s : State)
    (hm : ∀ x ∈ ws, mapped s.chip x.1 (4 * x.2) = true) (hk : k + ws.length ≤ s.backup.length) :
    refillWords ws k s = .ok () { s with
      bank := refillBank ws (s.backup.drop k) s.bank
      trace := s.trace ++ ws.zipWith (fun x v => BusEvent.write x.1 (4 * x.2) v) (s.backup.drop k) } := by
  induction ws generalizing k s with
  | nil => simp [refillWords, refillBank]
  | cons x ws ih =>
    obtain ⟨b, w⟩ := x
    have hmb : mapped s.chip b (4 * w) = true := hm (b, w) (by simp)
    have hlen : k < s.backup.length := by
      simp only [List.length_cons] at hk
      omega
    have e1 : readBackup k s = .ok s.backup[k] s := by
      unfold readBackup
      rw [List.getElem?_eq_getElem hlen]
    have e2 : memWrite b (4 * w) s.backup[k] s = .ok () (s.afterWrite b (4 * w) s.backup[k]) := memWrite_mapped hmb
    have he := ih (k + 1) (s.afterWrite b (4 * w) s.backup[k]) (fun x hx => hm x (by simp [hx]))
      (by simp only [List.length_cons] at hk; simp; omega)
    show (readBackup k >>= fun v => memWrite b (4 * w) v >>= fun _ => refillWords ws (k + 1)) s = _
    rw [bind_run_ok e1, bind_run_ok e2, he]
    have hd : s.backup.drop k = s.backup[k] :: s.backup.drop (k + 1) := List.drop_eq_getElem_cons hlen
    simp only [State.afterWrite_trace, State.afterWrite_backup, State.afterWrite_bank, hd, refillBank,
      List.zipWith_cons_cons, List.append_assoc, List.singleton_append]
    rfl

/-- Two words that exist share no byte. -/
theorem cursor_disjoint {c : Chip} (h : tableOk c = true) {x y : Nat × Nat} (hx : x ∈ cursorWords c)
    (hy : y ∈ cursorWords c) (hne : x ≠ y) :
    flatAddr x.1 (4 * x.2) + 4 ≤ flatAddr y.1 (4 * y.2) ∨ flatAddr y.1 (4 * y.2) + 4 ≤ flatAddr x.1 (4 * x.2) := by
  have := mapped_disjoint h (cursor_mapped hx) (cursor_mapped hy) (by
    rintro ⟨h1, h2⟩
    apply hne
    ext <;> omega)
  have e : ∀ n : Nat, ((4 : Int) * n).toNat = 4 * n := by omega
  simpa only [e, Int.toNat_natCast] using this

theorem wf_refillBank (ws : List (Nat × Nat)) (vs : List Word) {m : Memory} (hm : Memory.wf m = true) :
    Memory.wf (refillBank ws vs m) = true := by
  induction ws generalizing vs m with
  | nil => exact hm
  | cons x ws ih =>
    cases vs with
    | nil => exact hm
    | cons v vs => exact ih vs (wf_writeWord _ _ hm)

/-- A byte in none of the words written reads as before. -/
theorem readByte_refillBank {ws : List (Nat × Nat)} (vs : List Word) (m : Memory) {a : Nat}
    (h : ∀ x ∈ ws, ¬ (flatAddr x.1 (4 * x.2) ≤ a ∧ a < flatAddr x.1 (4 * x.2) + 4)) :
    readByte (refillBank ws vs m) a = readByte m a := by
  induction ws generalizing vs m with
  | nil => rfl
  | cons x ws ih =>
    cases vs with
    | nil => rfl
    | cons v vs =>
      show readByte (refillBank ws vs _) a = _
      rw [ih vs _ (fun y hy => h y (by simp [hy])), readByte_writeWord_outside _ _ (h x (by simp))]

/-- A word apart from all the words written reads as before. -/
theorem readWord_refillBank_apart {ws : List (Nat × Nat)} (vs : List Word) (m : Memory) {a : Nat}
    (h : ∀ x ∈ ws, a + 4 ≤ flatAddr x.1 (4 * x.2) ∨ flatAddr x.1 (4 * x.2) + 4 ≤ a) :
    readWord (refillBank ws vs m) a = readWord m a := by
  unfold readWord
  rw [readByte_refillBank vs m fun x hx => by have := h x hx; omega,
    readByte_refillBank vs m fun x hx => by have := h x hx; omega,
    readByte_refillBank vs m fun x hx => by have := h x hx; omega,
    readByte_refillBank vs m fun x hx => by have := h x hx; omega]

/-- Each word written, apart from the others, holds its value. -/
theorem readWord_refillBank {ws : List (Nat × Nat)} {vs : List Word} {m : Memory} (hm : Memory.wf m = true)
    (hd : ws.Pairwise fun x y => flatAddr x.1 (4 * x.2) + 4 ≤ flatAddr y.1 (4 * y.2) ∨
      flatAddr y.1 (4 * y.2) + 4 ≤ flatAddr x.1 (4 * x.2)) {k : Nat} {x : Nat × Nat} {v : Word}
    (hx : ws[k]? = some x) (hv : vs[k]? = some v) :
    readWord (refillBank ws vs m) (flatAddr x.1 (4 * x.2)) = v := by
  induction ws generalizing vs m k with
  | nil => simp at hx
  | cons y ws ih =>
    cases vs with
    | nil => simp at hv
    | cons u vs =>
      rw [List.pairwise_cons] at hd
      cases k with
      | zero =>
        simp only [List.getElem?_cons_zero, Option.some.injEq] at hx hv
        subst hx hv
        show readWord (refillBank ws vs _) _ = _
        rw [readWord_refillBank_apart vs _ (fun z hz => hd.1 z hz), readWord_writeWord_same _ _ hm]
      | succ k =>
        exact ih (wf_writeWord _ _ hm) hd.2 (by simpa using hx) (by simpa using hv)

/-! ### Power loss -/

/-- A byte in none of the words drawn reads as before. -/
theorem readByte_drawBank {ds : List BankDraw} (m : Memory) {a : Nat}
    (h : ∀ d ∈ ds, ¬ (flatAddr d.bank (4 * d.word) ≤ a ∧ a < flatAddr d.bank (4 * d.word) + 4)) :
    readByte (drawBank ds m) a = readByte m a := by
  induction ds generalizing m with
  | nil => rfl
  | cons d ds ih =>
    show readByte (drawBank ds _) a = _
    rw [ih _ (fun y hy => h y (by simp [hy])), readByte_writeWord_outside _ _ (h d (by simp))]

theorem drawBank_append (a b : List BankDraw) (m : Memory) : drawBank (a ++ b) m = drawBank b (drawBank a m) := by
  induction a generalizing m with
  | nil => rfl
  | cons d ds ih => exact ih _

/-! ### The bound on the reverse index -/

theorem offers_count (g : GroupDesc) (n : Nat) :
    ((List.range n).filter fun f => offers g f).length ≤ 4 := by
  have hsub : ((List.range n).filter fun f => offers g f) ⊆ (slotList g.funcs).filterMap id := by
    intro f hf
    have := (List.mem_filter.mp hf).2
    simp only [offers, Bool.and_eq_true, List.contains_iff_mem] at this
    exact List.mem_filterMap.mpr ⟨some f, this.2, rfl⟩
  have hn : ((List.range n).filter fun f => offers g f).Nodup := List.nodup_range.filter _
  have h1 := (List.subperm_of_subset hn hsub).length_le
  have h2 := List.length_filterMap_le id (slotList g.funcs)
  have h3 : (slotList g.funcs).length = 4 := rfl
  omega

theorem sum_filter_comm {α β : Type} (p : α → β → Bool) (l : List α) (m : List β) :
    (l.map fun a => (m.filter (p a)).length).sum = (m.map fun b => (l.filter fun a => p a b).length).sum := by
  induction l with
  | nil => simp
  | cons a l ih =>
    rw [List.map_cons, List.sum_cons, ih]
    clear ih
    induction m with
    | nil => rfl
    | cons b m ih =>
      rw [List.map_cons, List.map_cons, List.sum_cons, List.sum_cons, ← ih, List.filter_cons]
      have e : ((a :: l).filter fun a => p a b).length =
          (l.filter fun a => p a b).length + if p a b then 1 else 0 := by
        rw [List.filter_cons]
        split <;> rfl
      rw [e]
      split
      · rw [List.length_cons]
        omega
      · omega

theorem sum_le_of_le {l : List Nat} {k : Nat} (h : ∀ x ∈ l, x ≤ k) : l.sum ≤ k * l.length := by
  induction l with
  | nil => simp
  | cons x l ih =>
    have h1 := h x (by simp)
    have h2 := ih fun y hy => h y (by simp [hy])
    rw [List.sum_cons, List.length_cons, Nat.mul_succ]
    omega

/-- R112: each group is in at most four lists of the reverse index. -/
theorem reverseIndex_bound (c : Chip) : ((reverseIndex c).map List.length).sum ≤ 4 * c.groups.length := by
  unfold reverseIndex offeringGroups
  rw [List.map_map]
  show ((List.range c.funcs.length).map fun f => ((List.range c.groups.length).filter fun i =>
    match c.groups[i]? with
    | some g => offers g f
    | none => false).length).sum ≤ _
  rw [sum_filter_comm fun f i => match c.groups[i]? with
    | some g => offers g f
    | none => false]
  have := sum_le_of_le (k := 4) (l := (List.range c.groups.length).map fun i =>
    ((List.range c.funcs.length).filter fun f => match c.groups[i]? with
      | some g => offers g f
      | none => false).length) (by
    intro x hx
    obtain ⟨i, -, rfl⟩ := List.mem_map.mp hx
    cases hg : c.groups[i]? with
    | none => simp
    | some g => exact offers_count g _)
  simpa using this

end Sys2Proof.Machine
end

