-- ==== Sys2Proof/Laws/Trace.lean ====
section
/-! SUPPORT. Landed writes (20_memory.md R55, R62): what `landed` says position by position, that `allLanded` is `landed` at
every write, and what the readback and the barrier land. -/

namespace Sys2Proof.Machine

/-- The two events that land a write (R55). -/
theorem lands_iff {b o : Nat} {e : BusEvent} : lands b o e = true ↔ (∃ v, e = .read b o v) ∨ e = .barrier := by
  cases e <;> simp [lands]

/-- R55, word for word: the event at `i` is a write, and at a later position stands a read of its location or a barrier. -/
theorem landed_iff {es : List BusEvent} {i : Nat} : landed es i = true ↔
    ∃ b o v, es[i]? = some (.write b o v) ∧
      ∃ j, i < j ∧ ((∃ x, es[j]? = some (.read b o x)) ∨ es[j]? = some .barrier) := by
  have key : ∀ b o, (es.drop (i + 1)).any (lands b o) = true ↔
      ∃ j, i < j ∧ ((∃ x, es[j]? = some (.read b o x)) ∨ es[j]? = some .barrier) := by
    intro b o
    simp only [List.any_eq_true, List.mem_iff_getElem?, List.getElem?_drop, lands_iff]
    constructor
    · rintro ⟨e, ⟨k, hk⟩, ⟨x, rfl⟩ | rfl⟩
      · exact ⟨_, by omega, .inl ⟨x, hk⟩⟩
      · exact ⟨_, by omega, .inr hk⟩
    · rintro ⟨j, hj, ⟨x, hx⟩ | hx⟩
      · exact ⟨_, ⟨j - (i + 1), by rw [Nat.add_sub_cancel' hj]; exact hx⟩, .inl ⟨x, rfl⟩⟩
      · exact ⟨_, ⟨j - (i + 1), by rw [Nat.add_sub_cancel' hj]; exact hx⟩, .inr rfl⟩
  unfold landed
  split
  · next b o v h => simp [h, key]
  · next h =>
    simp only [Bool.false_eq_true, false_iff]
    rintro ⟨b, o, v, hw, -⟩
    exact h b o v hw

@[simp] theorem landed_cons_zero (b o : Nat) (v : Word) (es : List BusEvent) :
    landed (.write b o v :: es) 0 = es.any (lands b o) := rfl

@[simp] theorem landed_cons_succ (e : BusEvent) (es : List BusEvent) (i : Nat) :
    landed (e :: es) (i + 1) = landed es i := by
  simp [landed]

/-- `allLanded` is `landed` at every position that holds a write. -/
theorem allLanded_iff {es : List BusEvent} :
    allLanded es = true ↔ ∀ i b o v, es[i]? = some (.write b o v) → landed es i = true := by
  induction es with
  | nil => simp [allLanded]
  | cons e es ih =>
    have split : (∀ i b o v, (e :: es)[i]? = some (.write b o v) → landed (e :: es) i = true) ↔
        (∀ b o v, e = .write b o v → es.any (lands b o) = true) ∧
          ∀ i b o v, es[i]? = some (.write b o v) → landed es i = true := by
      constructor
      · intro h
        refine ⟨fun b o v he => ?_, fun i b o v hi => by simpa using h (i + 1) b o v hi⟩
        subst he
        simpa using h 0 b o v rfl
      · rintro ⟨h0, h⟩ (_ | i) b o v hi
        · obtain rfl : e = .write b o v := by simpa using hi
          exact h0 b o v rfl
        · rw [landed_cons_succ]
          exact h i b o v hi
    rw [split, ← ih]
    cases e <;> simp [allLanded]

/-- A trace that grows keeps what has landed. -/
theorem landed_append {es : List BusEvent} {i : Nat} (h : landed es i = true) (fs : List BusEvent) :
    landed (es ++ fs) i = true := by
  obtain ⟨b, o, v, hw, j, hj, hl⟩ := landed_iff.mp h
  have grow : ∀ {k e}, es[k]? = some e → (es ++ fs)[k]? = some e := fun hk => by
    rw [List.getElem?_append_left (List.getElem?_eq_some_iff.mp hk).1]
    exact hk
  refine landed_iff.mpr ⟨b, o, v, grow hw, j, hj, ?_⟩
  rcases hl with ⟨x, hx⟩ | hx
  · exact .inl ⟨x, grow hx⟩
  · exact .inr (grow hx)

/-- Two stretches whose writes have all landed make one. -/
theorem allLanded_append {es fs : List BusEvent} (he : allLanded es = true) (hf : allLanded fs = true) :
    allLanded (es ++ fs) = true := by
  induction es with
  | nil => exact hf
  | cons e es ih =>
    cases e <;> simp only [allLanded, Bool.and_eq_true, List.cons_append, List.any_append, Bool.or_eq_true] at he ⊢
    · exact ih he
    · exact ⟨.inl he.1, ih he.2⟩
    · exact ih he

/-- The barrier lands every earlier write (R62 b). -/
theorem allLanded_barrier (es : List BusEvent) : allLanded (es ++ [.barrier]) = true := by
  induction es with
  | nil => rfl
  | cons e es ih => cases e <;> simp [allLanded, lands, ih]

/-- The readback lands the one write it follows (R56, R62 a). -/
theorem allLanded_readback {es : List BusEvent} (h : allLanded es = true) (b o : Nat) (v back : Word) :
    allLanded (es ++ [.write b o v, .read b o back]) = true :=
  allLanded_append h (by simp [allLanded, lands])

end Sys2Proof.Machine
end

