-- ==== Sys2Proof/Tests/Slice0.lean ====
section
/-! SUPPORT. The model's own tests: words written out from 30_encoding.md, vectors of 95_test_vectors.md, and for each
obligation with hypotheses a state and operands that meet them. -/

namespace Sys2Proof.Tests

-- One theorem at a time: a kernel evaluation waits for every earlier theorem, and waiting ones each hold a thread.
set_option Elab.async false

open Sys2Proof.Machine

/-! ### The example chip T0 (95_test_vectors.md section 1) -/

def noField : RawField := ⟨-1, -1, -1, 0⟩

/-- A group with nothing present. -/
def noGroup : GroupDesc where
  name := ""
  pins := []
  mux := noField
  funcs := ⟨none, none, none, none⟩
  sfsel := ⟨-1, 0⟩
  drv := ⟨-1, -1⟩
  pull := noField
  tri := noField
  einput := noField
  odrain := noField
  lock := noField
  ioreset := noField
  rcvsel := noField
  lpbk := noField
  hsm := ⟨-1, 0⟩
  schmitt := ⟨-1, 0⟩
  lpmd := noField
  drvdn := noField
  drvup := noField
  slwr := noField
  slwf := noField
  drvtype := ⟨-1, 0⟩
  padpwr := noField
  parked := 0

def g0 : GroupDesc := { noGroup with
  name := "g0"
  pins := [0]
  mux := ⟨0, 0x10, 0, 2⟩
  funcs := ⟨some 0, some 1, some 2, some 3⟩
  sfsel := ⟨10, 1⟩
  drv := ⟨1, 0⟩
  pull := ⟨0, 0x10, 2, 2⟩
  tri := ⟨0, 0x10, 4, 1⟩
  einput := ⟨0, 0x10, 6, 1⟩
  lock := ⟨0, 0x10, 7, 1⟩
  hsm := ⟨2, 1⟩
  schmitt := ⟨12, 1⟩
  drvdn := ⟨1, 0, 4, 5⟩
  drvup := ⟨1, 0, 12, 5⟩
  slwr := ⟨1, 0, 20, 2⟩
  slwf := ⟨1, 0, 24, 2⟩
  drvtype := ⟨28, 2⟩
  padpwr := ⟨1, 0, 31, 1⟩
  parked := 0x20 }

def g1 : GroupDesc := { noGroup with
  name := "g1"
  pins := [1, 2]
  mux := ⟨0, 0x14, 0, 2⟩
  funcs := ⟨some 2, none, some 4, some 0⟩
  sfsel := ⟨10, 1⟩
  pull := ⟨0, 0x14, 2, 2⟩
  tri := ⟨0, 0x14, 4, 1⟩
  drvtype := ⟨28, 2⟩ }

def g2 : GroupDesc := { noGroup with
  name := "g2"
  pins := [2]
  drv := ⟨1, 4⟩
  hsm := ⟨0, 1⟩
  schmitt := ⟨1, 1⟩
  drvdn := ⟨1, 4, 4, 3⟩
  parked := 1 }

def t0 : Chip where
  words := [8, 4]
  pins := 3
  groups := [g0, g1, g2]
  funcs := [⟨"A"⟩, ⟨"B"⟩, ⟨"C"⟩, ⟨"D"⟩, ⟨"E"⟩]
  hsmInMux := false
  schmittInMux := true
  drvtypeInMux := false
  sfselInMux := true
  readModel := .storage
  hasDumpGroup := true

/-- A chip in a lifecycle state, buffers as INIT leaves them, with the bank words listed. -/
def inState (c : Chip) (lc : Lifecycle) (x : List BankDraw) : State :=
  { State.boot c with lc := lc, fg := reverseIndex c, bank := drawBank x [] }

/-- READY(X) on T0. -/
def ready (x : List BankDraw) : State := inState t0 .ready x

/-- T0 latched with a cause. -/
def faulted : State := { inState t0 .faulted [] with fault := some .indexOutOfRange }

/-- The state after a command, if there is one. -/
def after (i : Instr) (s : State) : Option State :=
  match exec i s with
  | .next t => some t
  | .fault _ => none
  | .refused _ => none

/-- The state after a step, if there is one. -/
def afterStep (s : State) : Option State :=
  match step s with
  | .next t => some t
  | .fault _ => none
  | .refused _ => none

/-- The status and the words of MUX0, MUX1, DRV0 and DRV2 after a command. -/
def look (o : Option State) : Option (Status × Word × Word × Word × Word) :=
  o.map fun t => (t.rsp.status, t.bankWord 0 4, t.bankWord 0 5, t.bankWord 1 0, t.bankWord 1 1)

/-- The status and the bus events. -/
def events (o : Option State) : Option (Status × List BusEvent) := o.map fun t => (t.rsp.status, t.trace)

theorem inv_inState (c : Chip) (lc : Lifecycle) (x : List BankDraw) (h : tableOk c = true) (hl : lc ≠ .faulted) :
    (inState c lc x).Inv where
  bankWf := wf_drawBank _ rfl
  latch := ⟨fun h => (Bool.noConfusion h), fun h => absurd h hl⟩
  backupLength := by simp [inState, State.boot]
  pinbakLength := by simp [inState, State.boot]
  pinsavedLength := by simp [inState, State.boot]
  fgLength := by simp [inState, State.boot, reverseIndex]
  table := fun _ => h
  index := fun _ => rfl

/-- T0 passes every check of INIT (95_test_vectors.md section 1). -/
theorem test_t0_ok : tableOk t0 = true := by decide +kernel

theorem inv_ready (x : List BankDraw) : (ready x).Inv := inv_inState _ _ _ test_t0_ok (by decide)

/-! ### Well-formedness: each check refuses an ill-formed term -/

theorem test_wf_confset_256 : (Instr.confSet 0 (List.replicate 256 ⟨0, 0⟩)).wellFormed true = false := by decide +kernel
theorem test_wf_applyconf_256 : (Instr.applyConfNamed "g0" (List.replicate 256 ⟨0, 0⟩)).wellFormed true = false := by
  decide +kernel
theorem test_wf_dump_absent : (Instr.dumpGroup 0).wellFormed false = false := by decide

/-! ### Decoding: each constructor from its word by R81 to R85 and R92 -/

theorem test_decode_init : decode true ⟨0x01000000, [], []⟩ = .ok .init := by decide
theorem test_decode_clear_parked : decode true ⟨0x02000000, [], []⟩ = .ok .clearParked := by decide
theorem test_decode_group_count : decode true ⟨0x10000000, [], []⟩ = .ok .groupCount := by decide
theorem test_decode_group_name : decode true ⟨0x1100FFFF, [], []⟩ = .ok (.groupName 0xFFFF) := by decide
theorem test_decode_group_pins : decode true ⟨0x12000001, [], []⟩ = .ok (.groupPins 1) := by decide
theorem test_decode_function_count : decode true ⟨0x13000000, [], []⟩ = .ok .functionCount := by decide
theorem test_decode_function_name : decode true ⟨0x14000004, [], []⟩ = .ok (.functionName 4) := by decide
theorem test_decode_function_groups : decode true ⟨0x15008001, [], []⟩ = .ok (.functionGroups 0x8001) := by decide
theorem test_decode_set_mux : decode true ⟨0x20000005, [0x0000ABCD], []⟩ = .ok (.setMux 0xABCD 5) := by decide
theorem test_decode_conf_get : decode true ⟨0x21000000, [0x0011FFFF], []⟩ = .ok (.confGet 0 ⟨17, 0xFFFF⟩) := by decide
theorem test_decode_conf_set : decode true ⟨0x22020000, [0x00000002, 0x00010001], []⟩ =
    .ok (.confSet 0 [⟨0, 2⟩, ⟨1, 1⟩]) := by decide
theorem test_decode_dump_group : decode true ⟨0x23000002, [], []⟩ = .ok (.dumpGroup 2) := by decide
theorem test_decode_apply_mux : decode true ⟨0x28010000, [], ["g1", "E"]⟩ = .ok (.applyMuxNamed "g1" (some "E")) := by
  decide
theorem test_decode_apply_mux_none : decode true ⟨0x28000000, [], ["g1"]⟩ = .ok (.applyMuxNamed "g1" none) := by decide
theorem test_decode_apply_conf : decode true ⟨0x29010000, [0x00040001], ["g0"]⟩ =
    .ok (.applyConfNamed "g0" [⟨4, 1⟩]) := by decide
theorem test_decode_save_config : decode true ⟨0x30000003, [], []⟩ = .ok (.saveConfig 3) := by decide
theorem test_decode_restore_config : decode true ⟨0x31000002, [], []⟩ = .ok (.restoreConfig 2) := by decide
theorem test_decode_gpio_request : decode true ⟨0x32000001, [], []⟩ = .ok (.gpioRequestEnable 1) := by decide
theorem test_decode_gpio_free : decode true ⟨0x33000000, [], []⟩ = .ok (.gpioDisableFree 0) := by decide
theorem test_decode_suspend : decode true ⟨0x40000000, [], []⟩ = .ok .suspend := by decide
theorem test_decode_resume : decode true ⟨0x41000000, [], []⟩ = .ok .resume := by decide

/-- Vectors X1 to X13: each names the part of R88 it breaks. -/
theorem test_decode_illegal :
    decode true ⟨0x00000000, [], []⟩ = .error .reservedOpcode ∧
    decode true ⟨0xFF000000, [], []⟩ = .error .reservedOpcode ∧
    decode true ⟨0x03000000, [], []⟩ = .error .reservedOpcode ∧
    decode true ⟨0x10010000, [], []⟩ = .error .auxNotZero ∧
    decode true ⟨0x10000001, [], []⟩ = .error .idxNotZero ∧
    decode true ⟨0x11010000, [], []⟩ = .error .auxNotZero ∧
    decode true ⟨0x20000000, [], []⟩ = .error .wrongArgCount ∧
    decode true ⟨0x20000000, [0x00010001], []⟩ = .error .argHighNotZero ∧
    decode true ⟨0x22020000, [0x00000001], []⟩ = .error .wrongArgCount ∧
    decode true ⟨0x28020000, [], ["g0", "A", "B"]⟩ = .error .auxTooLarge ∧
    decode true ⟨0x28010000, [], ["g0"]⟩ = .error .wrongNameCount ∧
    decode true ⟨0x29000001, [], ["g0"]⟩ = .error .idxNotZero ∧
    decode true ⟨0x10000000, [0x00000000], []⟩ = .error .wrongArgCount ∧
    decode false ⟨0x23000000, [], []⟩ = .error .reservedOpcode := by decide

/-! ### Vectors of 95_test_vectors.md, at most two for an instruction -/

/-- LC1. -/
theorem test_init_lc1 : ((after .init (State.boot t0)).map fun t => (t.lc, t.backup, t.fg)) =
    some (.parkPending, List.replicate 12 0, [[0, 1], [0], [0, 1], [0], [1]]) := by decide +kernel

/-- IF3: a component below -1. -/
theorem test_init_if3 :
    ((after .init (State.boot { t0 with groups := [{ g0 with pull := ⟨0, 0x10, -2, 2⟩ }, g1, g2] })).map
      fun t => (t.rsp, t.lc, t.fault, t.trace)) = some (⟨.fatal, [], []⟩, .faulted, some .malformedTable, []) := by
  decide +kernel

/-- LC4. -/
theorem test_clear_parked_lc4 :
    events (after .clearParked (inState t0 .parkPending [⟨0, 4, 0xFFFFFFFF⟩, ⟨1, 1, 0x11⟩])) =
      some (.ok, [.read 0 0x10 0xFFFFFFFF, .write 0 0x10 0xFFFFFFDF, .read 0 0x10 0xFFFFFFDF,
        .read 1 4 0x11, .write 1 4 0x10, .read 1 4 0x10]) := by decide +kernel

/-- Q1 and Q7. -/
theorem test_group_count_q1 : (after .groupCount (ready [])).map State.rsp = some ⟨.ok, [3], []⟩ := by decide +kernel
theorem test_function_count_q7 : (after .functionCount (ready [])).map State.rsp = some ⟨.ok, [5], []⟩ := by
  decide +kernel

/-- Q3, Q11. -/
theorem test_group_name_q3 : (after (.groupName 2) (ready [])).map State.rsp = some ⟨.ok, [], ["g2"]⟩ := by decide +kernel
theorem test_group_name_q11 : (after (.groupName 3) (ready [])).map (fun t => (t.rsp, t.lc, t.fault)) =
    some (⟨.fatal, [], []⟩, .faulted, some .indexOutOfRange) := by decide +kernel

/-- Q5. -/
theorem test_group_pins_q5 : (after (.groupPins 1) (ready [])).map State.rsp = some ⟨.ok, [2, 1, 2], []⟩ := by
  decide +kernel

/-- Q9. -/
theorem test_function_name_q9 : (after (.functionName 4) (ready [])).map State.rsp = some ⟨.ok, [], ["E"]⟩ := by
  decide +kernel

/-- E8, first line. -/
theorem test_function_groups_e8 : (after (.functionGroups 0) (ready [])).map State.rsp =
    some ⟨.ok, [2], ["g0", "g1"]⟩ := by decide +kernel

/-- MX4, MX2. -/
theorem test_set_mux_mx4 : events (after (.setMux 4 1) (ready [])) =
    some (.ok, [.read 0 0x14 0, .write 0 0x14 0x402, .read 0 0x14 0x402]) := by decide +kernel
theorem test_set_mux_mx2 : look (after (.setMux 0 0) (ready [⟨0, 4, 0xFFFFFFFF⟩])) =
    some (.ok, 0xFFFFFFFC, 0, 0, 0) := by decide +kernel

/-- CG6, CG14. -/
theorem test_conf_get_cg6 : (after (.confGet 0 ⟨17, 0⟩) (ready [⟨1, 0, 0x80000000⟩])).map State.rsp =
    some ⟨.ok, [0x00110000], []⟩ := by decide +kernel
theorem test_conf_get_cg14 : (after (.confGet 0 ⟨0, 0xFFFF⟩) (ready [⟨0, 4, 0x409⟩])).map State.rsp =
    some ⟨.ok, [0x00000002], []⟩ := by decide +kernel

/-- CS24, CS19. -/
theorem test_conf_set_cs24 :
    look (after (.confSet 0 [⟨0, 1⟩, ⟨1, 1⟩, ⟨11, 40⟩, ⟨0, 3⟩]) (ready [⟨0, 4, 0x401⟩])) =
      some (.invalidArgument, 0x415, 0, 0, 0) := by decide +kernel
theorem test_conf_set_cs19 : events (after (.confSet 0 [⟨4, 1⟩]) (ready [⟨0, 4, 0x401⟩])) =
    some (.ok, [.read 0 0x10 0x401, .read 0 0x10 0x401, .write 0 0x10 0x481, .read 0 0x10 0x481]) := by decide +kernel

/-- DG1, DG2. -/
theorem test_dump_group_dg1 :
    (after (.dumpGroup 0) (ready [⟨0, 4, 0x1409⟩, ⟨1, 0, 0x80000000⟩])).map State.rsp =
      some ⟨.ok, [0x00000002, 0x00010000, 0x00020000, 0x00040000, 0x00080000, 0x00090001, 0x000B0000, 0x000C0000,
        0x000D0000, 0x000E0000, 0x000F0000, 0x00100001, 0x00110000], ["B"]⟩ := by decide +kernel
theorem test_dump_group_dg2 : (after (.dumpGroup 1) (ready [⟨0, 5, 0x401⟩])).map State.rsp =
    some ⟨.ok, [0x00000000, 0x00010000, 0x00100001], [""]⟩ := by decide +kernel

/-- NR1, NR7. -/
theorem test_apply_mux_nr1 : look (after (.applyMuxNamed "g1" (some "E")) (ready [])) = some (.ok, 0, 0x402, 0, 0) := by
  decide +kernel
theorem test_apply_mux_nr7 : events (after (.applyMuxNamed "G0" (some "A")) (ready [])) =
    some (.invalidArgument, []) := by decide +kernel

/-- NR11, NR10. -/
theorem test_apply_conf_nr11 : look (after (.applyConfNamed "g0" [⟨0, 2⟩, ⟨0, 4⟩]) (ready [⟨0, 4, 0x401⟩])) =
    some (.invalidArgument, 0x409, 0, 0, 0) := by decide +kernel
theorem test_apply_conf_nr10 : events (after (.applyConfNamed "g9" [⟨0, 1⟩]) (ready [])) =
    some (.invalidArgument, []) := by decide +kernel

/-- GH1, GH4. -/
theorem test_save_config_gh1 : (after (.saveConfig 0) (ready [⟨0, 4, 0x401⟩])).map
    (fun t => (t.rsp.status, t.pinbak, t.pinsaved, t.trace)) =
      some (.ok, [0x401, 0, 0], [true, false, false], [.read 0 0x10 0x401]) := by decide +kernel
theorem test_save_config_gh4 : events (after (.saveConfig 3) (ready [])) = some (.notFound, []) := by decide +kernel

/-- E6, second half; GH5. -/
theorem test_restore_config_e6 :
    events (((after (.saveConfig 0) (ready [⟨0, 4, 0xA5A5F7C3⟩])).map fun t => { t with trace := [] }).bind
      (after (.restoreConfig 0))) = some (.ok, [.write 0 0x10 0xA5A5F7C3, .read 0 0x10 0xA5A5F7C3]) := by decide +kernel
theorem test_restore_config_gh5 : (after (.restoreConfig 0) (ready [])).map (fun t => (t.rsp, t.lc, t.fault)) =
    some (⟨.sequenceError, [], []⟩, .faulted, some .sequence) := by decide +kernel

/-- GH7, GH12. -/
theorem test_gpio_request_gh7 : (after (.gpioRequestEnable 0) (ready [⟨0, 4, 0x401⟩])).map
    (fun t => (t.rsp.status, t.pinbak, t.bankWord 0 4)) = some (.ok, [0x401, 0, 0], 0x001) := by decide +kernel
theorem test_gpio_request_gh12 :
    (after (.gpioRequestEnable 0) (inState { t0 with groups := [{ g0 with sfsel := ⟨-1, 0⟩ }, g1, g2] } .ready
      [⟨0, 4, 0x401⟩])).map (fun t => (t.rsp.status, t.pinbak, t.bankWord 0 4)) =
        some (.invalidArgument, [0x401, 0, 0], 0x401) := by decide +kernel

/-- GH8. -/
theorem test_gpio_free_gh8 : look ((after (.gpioRequestEnable 0) (ready [⟨0, 4, 0x401⟩])).bind
    (after (.gpioDisableFree 0))) = some (.ok, 0x401, 0, 0, 0) := by decide +kernel

/-- LC8. -/
theorem test_suspend_lc8 : (after .suspend (ready [⟨0, 4, 0x401⟩, ⟨1, 3, 7⟩])).map (fun t => (t.lc, t.backup)) =
    some (.suspended, [0, 0, 0, 0, 0x401, 0, 0, 0, 0, 0, 0, 7]) := by decide +kernel

/-- LC12 on the words of two banks. -/
theorem test_resume_lc12 :
    (after .resume { inState t0 .suspended [⟨0, 4, 0xDEADBEEF⟩, ⟨1, 1, 0xDEADBEEF⟩] with
      backup := [0, 0, 0, 0, 0x401, 0, 0, 0, 0, 9, 0, 0] }).map
        (fun t => (t.lc, t.bankWord 0 4, t.bankWord 1 1, t.trace.length, t.trace.getLast?)) =
      some (.ready, 0x401, 9, 14, some .barrier) := by decide +kernel

/-- X16 and X17: an illegal word in UNINIT and in FAULTED; FL5: reset leaves FAULTED. -/
theorem test_step_x16 : (afterStep { State.boot t0 with host := [.command ⟨0, [], []⟩] }).map (fun t => (t.rsp.status, t.lc)) =
    some (.illegalCommand, .uninit) := by decide +kernel
theorem test_step_x17 : (afterStep { faulted with host := [.command ⟨0, [], []⟩] }).map (fun t => (t.rsp.status, t.fault)) =
    some (.fatal, some .indexOutOfRange) := by decide +kernel
theorem test_step_fl5 : (afterStep { faulted with host := [.reset] }).map (fun t => (t.lc, t.fault)) =
    some (.uninit, none) := by decide +kernel

/-- R55: a write alone is not landed; a read of its location after it or a barrier lands it, a read of another location or an
earlier read does not; a position that holds no write is none. -/
theorem test_landed_r55 :
    landed [.write 0 0x10 1] 0 = false ∧ landed [.write 0 0x10 1, .read 0 0x10 7] 0 = true ∧
    landed [.write 0 0x10 1, .read 0 0x14 1, .read 1 0x10 1] 0 = false ∧
    landed [.write 0 0x10 1, .write 1 0 2, .barrier] 0 = true ∧
    landed [.read 0 0x10 1, .write 0 0x10 1] 1 = false ∧ landed [.read 0 0x10 1, .read 0 0x10 1] 0 = false := by decide

/-! ### Witnesses: a state and operands that meet the hypotheses of each obligation -/

/-- T0 with what the document's edge cases change. -/
def noSelect : Chip := { t0 with sfselInMux := false }
def selectAbsent : Chip := { t0 with groups := [{ g0 with sfsel := ⟨-1, 0⟩ }, g1, g2] }
def noDump : Chip := { t0 with hasDumpGroup := false }
def oracleT0 : Chip := { t0 with readModel := .oracle }

theorem test_variants_ok : tableOk noSelect = true ∧ tableOk selectAbsent = true ∧ tableOk noDump = true ∧
    tableOk oracleT0 = true := by decide +kernel

/-- A suspended T0 satisfies the invariant. -/
theorem inv_suspended (x : List BankDraw) : (inState t0 .suspended x).Inv := inv_inState _ _ _ test_t0_ok (by decide)
theorem inv_parkPending (x : List BankDraw) : (inState t0 .parkPending x).Inv := inv_inState _ _ _ test_t0_ok (by decide)

theorem inv_faulted : faulted.Inv where
  bankWf := rfl
  latch := ⟨fun _ => rfl, fun _ => rfl⟩
  backupLength := rfl
  pinbakLength := rfl
  pinsavedLength := rfl
  fgLength := rfl
  table := fun h => by rcases h with h | h | h <;> cases h
  index := fun h => by rcases h with h | h | h <;> cases h

/-- DecodeOfEncode: the longest list; EncodeOfDecode: a list command. -/
theorem test_witness_encoding : (Instr.confSet 0xFFFF (List.replicate 255 ⟨17, 0xFFFF⟩)).wellFormed true = true ∧
    (Instr.dumpGroup 2).wellFormed true = true ∧ (∃ i, decode true ⟨0x22010000, [0x00040000], []⟩ = .ok i) ∧
    ∃ i, decode false ⟨0x41000000, [], []⟩ = .ok i := ⟨by decide +kernel, rfl, ⟨_, rfl⟩, ⟨_, rfl⟩⟩

/-- ReservedOpcodesAreIllegal: the ends of every reserved range. -/
theorem test_witness_reserved :
    (∀ op ∈ [0x00, 0x03, 0x0F, 0x16, 0x1F, 0x24, 0x27, 0x2A, 0x2F, 0x34, 0x3F, 0x42, 0xFF],
      op = ((BitVec.ofNat 32 (op * 16777216)).extractLsb' 24 8).toNat ∧
        (op = 0 ∨ (0x03 ≤ op ∧ op ≤ 0x0F) ∨ (0x16 ≤ op ∧ op ≤ 0x1F) ∨ (0x24 ≤ op ∧ op ≤ 0x27) ∨
          (0x2A ≤ op ∧ op ≤ 0x2F) ∨ (0x34 ≤ op ∧ op ≤ 0x3F) ∨ 0x42 ≤ op)) ∧
    0x23 = ((0x23000000 : Word).extractLsb' 24 8).toNat := by decide +kernel

/-- DecodesIffFormatHolds: a reserved opcode, and for each format one that is met and one that is not. -/
theorem test_witness_formats :
    Op.ofCode true (0x00#8) = none ∧ Op.ofCode false (0x23#8) = none ∧
    Op.ofCode true (0x01#8) = some .init ∧ Op.ofCode true (0x11#8) = some .groupName ∧
    Op.ofCode true (0x20#8) = some .setMux ∧ Op.ofCode true (0x22#8) = some .confSet ∧
    Op.ofCode true (0x28#8) = some .applyMuxNamed ∧ Op.ofCode true (0x29#8) = some .applyConfNamed := by decide

/-- StepRunsDecodedCommand, IllegalCommandOnlyResponds, FaultedAnswersFatalUntilReset. -/
theorem test_witness_steps :
    (∃ c rest i, ({ ready [] with host := [.command ⟨0x10000000, [], []⟩] } : State).host = .command c :: rest ∧
      decode true c = .ok i) ∧
    (∃ e, decode true ⟨0x10000001, [], []⟩ = .error e) ∧ (ready []).lc ≠ .faulted ∧
    faulted.lc = .faulted ∧ (∃ t, step { faulted with host := [.command ⟨0x01000000, [], []⟩] } = .next t) :=
  ⟨⟨_, _, _, rfl, rfl⟩, ⟨_, rfl⟩, by decide, rfl, ⟨_, rfl⟩⟩

/-- PowerLossReplacesBankWords: the last word of the last bank while SUSPENDED; the word after it, and READY; a word named
twice among others, whose last entry wins, the earlier words keeping theirs. -/
theorem test_witness_power_loss :
    admitsPowerLoss (inState t0 .suspended []) [⟨0, 0, 1⟩, ⟨1, 3, 0xDEADBEEF⟩] = true ∧
    mapped t0 1 (4 * 4) = false ∧ mapped t0 2 0 = false ∧ (ready []).lc ≠ .suspended ∧
    (afterStep { inState t0 .suspended [] with
      host := [.powerLoss [⟨0, 0, 1⟩, ⟨0, 4, 2⟩, ⟨1, 3, 3⟩, ⟨0, 4, 4⟩]] }).map
        (fun t => (t.bankWord 0 0, t.bankWord 0 4, t.bankWord 1 3)) = some (1, 4, 3) ∧
    (∀ e ∈ ([⟨1, 3, 3⟩, ⟨0, 4, 4⟩] : List BankDraw), (e.bank, e.word) ≠ (0, 0)) := by decide +kernel

/-- ResetEventRestartsBlock: both events are moves of the host, and a power-on draw of words that exist is admitted. -/
theorem test_witness_reset_event :
    (afterStep { faulted with host := [.powerOn [⟨0, 7, 0x20⟩]] }).map (fun t => (t.lc, t.fault, t.bankWord 0 7)) =
      some (.uninit, none, 0x20) ∧
    drawMapped t0 [⟨0, 7, 0x20⟩] = true := by decide +kernel

/-- LifecycleGraph, CommandsKeepConfiguration, TraceRecordsEveryBankChange, BuffersHaveTheirWriters and
LatchKeepsFirstCause: `exec` answers, for each move of the graph and for a raise. -/
theorem test_witness_lifecycle :
    ((after .init (State.boot t0)).map State.lc = some .parkPending) ∧
    ((after .clearParked (inState t0 .parkPending [])).map State.lc = some .ready) ∧
    ((after .suspend (ready [])).map State.lc = some .suspended) ∧
    ((after .resume (inState t0 .suspended [])).map State.lc = some .ready) ∧
    ((after .resume (ready [])).map (fun t => (t.lc, t.fault)) = some (.faulted, some .sequence)) ∧
    ((after .resume faulted).map (fun t => (t.lc, t.fault)) = some (.faulted, some .indexOutOfRange)) := by decide +kernel

/-- OutOfSequenceRaises: each row of the table. -/
theorem test_witness_out_of_sequence :
    (Instr.setMux 1 0).wellFormed true = true ∧ (State.boot t0).lc = .uninit ∧ Instr.setMux 1 0 ≠ .init ∧
    (inState t0 .parkPending []).lc = .parkPending ∧ Instr.setMux 1 0 ≠ .clearParked ∧ (ready []).lc = .ready ∧
    (inState t0 .suspended []).lc = .suspended ∧
    (Instr.setMux 1 0).op ∉ [Op.groupCount, .groupName, .groupPins, .functionCount, .functionName, .functionGroups,
      .resume] := by decide +kernel

/-- NonLatchingErrorsKeepLifecycle: each of the four statuses is answered. -/
theorem test_witness_non_latching :
    (after (.setMux 1 1) (ready [])).map (fun t => t.rsp.status) = some .invalidArgument ∧
    (after (.setMux 0 2) (ready [])).map (fun t => t.rsp.status) = some .unsupported ∧
    (after (.saveConfig 1) (ready [])).map (fun t => t.rsp.status) = some .notFound ∧
    (after (.dumpGroup 0) (inState noDump .ready [])).map (fun t => t.rsp.status) = some .illegalCommand := by
  decide +kernel

/-- OnlyEntryListsFailPartly: a command that fails after its save, and one-entry lists that fail. -/
theorem test_witness_fails : (ready []).Inv ∧
    (after (.gpioRequestEnable 2) (ready [])).map (fun t => t.rsp.status) = some .invalidArgument ∧
    (after (.confSet 0 [⟨0, 4⟩]) (ready [])).map (fun t => t.rsp.status) = some .invalidArgument ∧
    (after (.applyConfNamed "g1" [⟨17, 1⟩]) (ready [])).map (fun t => t.rsp.status) = some .unsupported ∧
    ([⟨0, 4⟩] : List ConfWord).length ≤ 1 :=
  ⟨inv_ready [], by decide +kernel, by decide +kernel, by decide +kernel, by decide⟩

/-- NoUnmappedAccess: an unaligned offset, a bank that is not there, and a state of the second half. -/
theorem test_witness_unmapped : mapped t0 0 0x12 = false ∧ mapped t0 2 0 = false ∧ mapped t0 0 0x20 = false ∧
    mapped t0 (-1) 0 = false ∧ (ready []).fault = none ∧ (ready []).Inv ∧ ∃ t, exec .suspend (ready []) = .next t :=
  ⟨by decide, by decide, by decide, by decide, rfl, inv_ready [], ⟨_, rfl⟩⟩

/-- StepKeepsInv and StepKeepsWritesLanded: a state that meets the invariant, its trace landed, and its step. -/
theorem test_witness_step_invariants :
    ({ ready [⟨0, 4, 0x401⟩] with host := [.command ⟨0x20000000, [1], []⟩] } : State).Inv ∧
    allLanded (ready [⟨0, 4, 0x401⟩]).trace = true ∧
    (afterStep { ready [⟨0, 4, 0x401⟩] with host := [.command ⟨0x20000000, [1], []⟩] }).map
      (fun t => (allLanded t.trace, landed t.trace 1)) = some (true, true) :=
  have h := inv_ready [⟨0, 4, 0x401⟩]
  ⟨⟨h.bankWf, h.latch, h.backupLength, h.pinbakLength, h.pinsavedLength, h.fgLength, h.table, h.index⟩,
    by decide, by decide +kernel⟩

/-- RunFaultedIffEndsFaulted: a run that ends FAULTED, and one with a power loss that does not. -/
theorem test_witness_runs :
    (observeRun { ready [] with host := [.command ⟨0x11000007, [], []⟩, .command ⟨0x10000000, [], []⟩] }).map
      (fun o => (o.faulted, o.lc)) = some (true, .faulted) ∧
    (observeRun { ready [] with host := [.command ⟨0x40000000, [], []⟩, .powerLoss [⟨0, 4, 1⟩],
      .command ⟨0x41000000, [], []⟩] }).map (fun o => (o.faulted, o.lc)) = some (false, .ready) := by decide +kernel

/-- TableQueriesAnswer and FunctionGroupsAnswers: the last ids, in both states. -/
theorem test_witness_queries :
    (ready []).lc = .ready ∧ (inState t0 .suspended []).lc = .suspended ∧ t0.groups[2]? = some g2 ∧
    t0.funcs[4]? = some ⟨"E"⟩ ∧ 4 < t0.funcs.length ∧ (ready []).Inv ∧ (inState t0 .suspended []).Inv :=
  ⟨rfl, rfl, rfl, rfl, by decide, inv_ready [], inv_suspended []⟩

/-- IndexOutOfRangeRaises: the first ids past each table, in READY and in SUSPENDED. -/
theorem test_witness_index : (ready []).lc = .ready ∧ (inState t0 .suspended []).lc = .suspended ∧ (ready []).chip.groups.length ≤ (3 : Half).toNat ∧
    (ready []).chip.funcs.length ≤ (5 : Half).toNat ∧ (ready []).chip.hasDumpGroup = true := by decide

/-- ReverseIndexIsExact and InitSucceeds: INIT of T0 succeeds. -/
theorem test_witness_init : (State.boot t0).lc = .uninit ∧ WellFormedTable (State.boot t0).chip ∧
    (∃ t, exec .init (State.boot t0) = .next t ∧ t.rsp.status = .ok) ∧ 4 < (State.boot t0).chip.funcs.length :=
  ⟨rfl, wellFormed_of_tableOk test_t0_ok, ⟨_, rfl, by decide +kernel⟩, by decide⟩

/-- T0 with group 0, 1 or 2 changed. -/
def with0 (g : GroupDesc) : Chip := { t0 with groups := [g, g1, g2] }
def with1 (g : GroupDesc) : Chip := { t0 with groups := [g0, g, g2] }
def with2 (g : GroupDesc) : Chip := { t0 with groups := [g0, g1, g] }
def withLast (n : Name) : Chip := { t0 with funcs := [⟨"A"⟩, ⟨"B"⟩, ⟨"C"⟩, ⟨"D"⟩, ⟨n⟩] }

/-- IF1 to IF10 of 95_test_vectors.md: tables that break W1, W2 or W3; the last three break W1 in drv and in a bit. -/
def badPlaces : List Chip :=
  [with0 { g0 with pull := ⟨0, 0x10, -1, 2⟩ }, with0 { g0 with tri := ⟨0, -1, 4, 1⟩ },
   with0 { g0 with pull := ⟨0, 0x10, -2, 2⟩ }, with0 { g0 with drv := ⟨2, 0⟩ },
   with0 { g0 with pull := ⟨0, 0x12, 2, 2⟩ }, with1 { g1 with mux := ⟨0, 0x20, 0, 2⟩ },
   with0 { g0 with drvdn := ⟨1, 0, 4, 17⟩ }, with0 { g0 with drvup := ⟨1, 0, 30, 5⟩ },
   with0 { g0 with drvtype := ⟨31, 2⟩ }, with0 { g0 with pull := ⟨0, 0x10, 2, 0⟩ },
   with2 { g2 with drv := ⟨1, -2⟩ }, with1 { g1 with sfsel := ⟨-2, 1⟩ }, with0 { g0 with hsm := ⟨-3, 1⟩ }]

/-- IF11 to IF21, which break W4 to W8, and two that break W9: no bank, and a bank of no words. -/
def badRest : List Chip :=
  [with0 { g0 with lock := ⟨0, 0x10, 7, 2⟩ }, with0 { g0 with mux := ⟨0, 0x10, 0, 3⟩ }, with0 { g0 with sfsel := ⟨10, 2⟩ },
   with1 { g1 with funcs := ⟨some 2, some 5, some 4, some 0⟩ }, with1 { g1 with pins := [] },
   with1 { g1 with pins := [1, 3] },
   { t0 with groups := [g0, g1, g2, { noGroup with name := "g3", pins := [0] }] },
   with2 { g2 with drv := ⟨-1, -1⟩, hsm := ⟨-1, 0⟩, schmitt := ⟨-1, 0⟩ }, with1 { g1 with name := "g0" },
   withLast "A", withLast "",
   { t0 with words := [], groups := [] }, { t0 with words := [8, 4, 0] }]

/-- InitRefusesBadTable: a table for each check that it breaks, none of them well formed, and UNINIT. -/
theorem test_witness_bad_tables : (∀ c ∈ badPlaces ++ badRest, ¬ WellFormedTable c) ∧ (State.boot t0).lc = .uninit := by
  refine ⟨fun c hc h => ?_, rfl⟩
  have bad : ∀ c ∈ badPlaces ++ badRest, tableOk c = false := by decide +kernel
  exact absurd (tableOk_of_wellFormed h) (by simp [bad c hc])

/-- ResolvedFieldsFit: an own-register field, a dual-location field and FUNCTION. -/
theorem test_witness_fields : (ready []).Inv ∧ (ready []).Initialised ∧ g0 ∈ t0.groups ∧
    resolve t0 g0 .driveUpStrength = .field ⟨1, 0, 12, 5⟩ ∧ resolve t0 g0 .schmitt = .field ⟨0, 0x10, 12, 1⟩ ∧
    resolve t0 g0 .function = .field ⟨0, 0x10, 0, 2⟩ :=
  ⟨inv_ready [], .inr (.inl rfl), by decide +kernel, by decide, by decide, by decide⟩

/-- ClearParkedClearsMasks: both parked registers set. -/
theorem test_witness_clear_parked :
    (inState t0 .parkPending [⟨0, 4, 0xFFFFFFFF⟩, ⟨1, 1, 0x11⟩]).Inv ∧ parkedReg g0 = some ⟨0, 0x10⟩ ∧
    parkedReg g2 = some ⟨1, 4⟩ ∧ parkedGroups t0 = [g0, g2] ∧ parkedMaskAt 0 0x10 t0.groups = 0x20 ∧ parkedMaskAt 1 4 t0.groups = 1 ∧
    mapped t0 1 4 = true :=
  ⟨inv_parkPending _, by decide, by decide, by decide +kernel, by decide, by decide, by decide⟩

/-- SetMuxSelectsFunction: function 4 is in slot 2 of g1 and no lower one; by name as well. -/
theorem test_witness_set_mux : (ready []).Inv ∧ t0.groups[(1 : Half).toNat]? = some g1 ∧
    t0.funcs[(4 : Half).toNat]? = some ⟨"E"⟩ ∧ fieldPresent g1.mux = true ∧ slotAt g1.funcs 2 = some (4 : Half).toNat ∧
    (∀ k, k < 2 → slotAt g1.funcs k ≠ some (4 : Half).toNat) ∧ bitPresent g1.sfsel = true :=
  ⟨inv_ready [], rfl, rfl, by decide, by decide, by decide, by decide⟩

/-- SetMuxFailures: MX9, MX7 and MX11. -/
theorem test_witness_set_mux_failures : t0.groups[(2 : Half).toNat]? = some g2 ∧ fieldPresent g2.mux = false ∧
    fieldPresent g1.mux = true ∧ (∀ k, k < 4 → slotAt g1.funcs k ≠ some (1 : Half).toNat) ∧
    selectAbsent.sfselInMux = true ∧ bitPresent ({ g0 with sfsel := ⟨-1, 0⟩ } : GroupDesc).sfsel = false ∧
    slotAt ({ g0 with sfsel := ⟨-1, 0⟩ } : GroupDesc).funcs 3 = some (3 : Half).toNat :=
  ⟨rfl, by decide, by decide, by decide, rfl, by decide, by decide⟩

/-- SetMuxIdempotent and SetMuxReadsBack: the first SET_MUX succeeds, the state after it is READY with the same word. -/
theorem test_witness_set_mux_twice : (ready []).chip.readModel = .storage ∧ t0.groups[(0 : Half).toNat]? = some g0 ∧
    (after (.setMux 1 0) (ready [])).map (fun t => (t.rsp.status, t.wordAt 0 0x10)) = some (.ok, 0x401) ∧
    (ready [⟨0, 4, 0x401⟩]).Inv ∧ (ready [⟨0, 4, 0x401⟩]).wordAt 0 0x10 = 0x401 ∧ g0.mux.bit + 2 ≤ g0.sfsel.bit :=
  ⟨rfl, rfl, by decide +kernel, inv_ready _, by decide +kernel, by decide⟩

/-- OwnershipTransitions: each of its commands succeeds on g0, from both owners. -/
theorem test_witness_owner :
    bitPresent g0.sfsel = true ∧ g0.pins = [(0 : Half).toNat] ∧
    (after (.setMux 1 0) (ready [])).map (fun t => (t.rsp.status, t.owner g0)) = some (.ok, some .sfio) ∧
    (after (.gpioRequestEnable 0) (ready [⟨0, 4, 0x401⟩])).map (fun t => (t.rsp.status, t.owner g0)) =
      some (.ok, some .gpio) ∧
    (after (.confSet 0 [⟨16, 3⟩]) (ready [⟨0, 4, 0x401⟩])).map (fun t => (t.rsp.status, t.owner g0)) =
      some (.ok, some .sfio) := by decide +kernel

/-- ConfGetReadsField: the widest field of T0 and PAD_POWER. -/
theorem test_witness_conf_get : (ready []).Inv ∧ Param.ofTag 11 = some .driveDownStrength ∧
    resolve t0 g0 .driveDownStrength = .field ⟨1, 0, 4, 5⟩ ∧ Param.ofTag 17 = some .padPower ∧
    resolve t0 g0 .padPower = .field ⟨1, 0, 31, 1⟩ := ⟨inv_ready [], by decide, by decide, by decide, by decide⟩

/-- UnsupportedParameter: the first tag past the table, an absent field, and both absent halves of a dual one. -/
theorem test_witness_unsupported : 18 ≤ (18 : Half).toNat ∧ Param.ofTag 3 = some .openDrain ∧
    resolve t0 g0 .openDrain = .unsupported ∧ resolve t0 g1 .driveType = .unsupported ∧
    resolve t0 g2 .schmitt = .unsupported := by decide

/-- ConfSetWritesField and ConfSetRangeCheck: width 1 with any argument, the largest and the first too large for width 2
and 5, LOCK with a value not 0. -/
theorem test_witness_conf_set : resolve t0 g0 .tristate = .field ⟨0, 0x10, 4, 1⟩ ∧
    resolve t0 g0 .pull = .field ⟨0, 0x10, 2, 2⟩ ∧ (3 : Half).toNat < 2 ^ 2 ∧ 2 ^ 2 ≤ (4 : Half).toNat ∧
    (31 : Half).toNat < 2 ^ 5 ∧ 2 ^ 5 ≤ (32 : Half).toNat ∧ resolve t0 g0 .lock = .field ⟨0, 0x10, 7, 1⟩ ∧
    (1 : Half) ≠ 0 := by decide

/-- LockCannotBeCleared: a lock that is set and one that is not. -/
theorem test_witness_lock : (ready [⟨0, 4, 0x481⟩]).Inv ∧ (ready [⟨0, 4, 0x401⟩]).Inv ∧
    ((ready [⟨0, 4, 0x481⟩]).wordAt 0 0x10).getLsbD 7 = true ∧
    ((ready [⟨0, 4, 0x401⟩]).wordAt 0 0x10).getLsbD 7 = false ∧ (2 : Half) ≠ 0 :=
  ⟨inv_ready _, inv_ready _, by decide +kernel, by decide +kernel, by decide⟩

/-- LockSurvivesConfSet: no other field of g0 overlaps its lock bit. -/
theorem test_witness_lock_apart : ∀ p q, p ≠ .lock → resolve t0 g0 p = .field q →
    (q.bank, q.reg) ≠ ((0 : Int), (0x10 : Int)) ∨ 7 < q.bit ∨ q.bit + q.width ≤ 7 := by
  intro p q hp hq
  cases p <;> first
    | exact absurd rfl hp
    | (injection hq with hq
       subst hq
       decide)
    | (change Resolution.unsupported = .field q at hq
       cases hq)

/-- ConfSetEntriesInOrder: a first entry that succeeds, one that fails, and a group for the empty list. -/
theorem test_witness_entries :
    (after (.confSet 0 [⟨0, 1⟩]) (ready [])).map (fun t => t.rsp.status) = some .ok ∧
    (after (.confSet 0 [⟨0, 4⟩]) (ready [])).map (fun t => t.rsp.status) = some .invalidArgument ∧
    t0.groups[(0 : Half).toNat]? = some g0 := ⟨by decide +kernel, by decide +kernel, rfl⟩

/-- PadPowerIsInverted and DumpGroupReportsParameters share the states above; a chip without the dump. -/
theorem test_witness_dump : (ready []).Inv ∧ (ready []).chip.hasDumpGroup = true ∧
    t0.groups[(2 : Half).toNat]? = some g2 ∧ (inState oracleT0 .ready []).Inv ∧
    (inState noDump .ready []).chip.hasDumpGroup = false ∧ (inState noDump .ready []).lc ≠ .faulted :=
  ⟨inv_ready [], rfl, rfl, inv_inState _ _ _ test_variants_ok.2.2.2 (by decide), rfl, by decide⟩

/-- NamedRequestsActById and NamedRequestsCheckNames: known names, an unknown function and an unknown group. -/
theorem test_witness_names : t0.groups[(1 : Half).toNat]? = some g1 ∧ t0.funcs[(4 : Half).toNat]? = some ⟨"E"⟩ ∧
    (∃ g ∈ t0.groups, g.name = "g1") ∧ (∀ f ∈ t0.funcs, f.name ≠ "Z") ∧ (∀ g ∈ t0.groups, g.name ≠ "G0") :=
  ⟨rfl, rfl, ⟨g1, by decide +kernel, rfl⟩, by decide, by decide +kernel⟩

/-- HandoffNotFound: pin 1, in a multi-pin group only, and pin 3, outside the table. -/
theorem test_witness_not_found : (∀ g ∈ t0.groups, g.pins ≠ [(1 : Half).toNat]) ∧
    (∀ g ∈ t0.groups, g.pins ≠ [(3 : Half).toNat]) ∧ (ready []).lc = .ready := by decide +kernel

/-- SaveConfigSavesWord, SaveRestoreSymmetry and GpioRequestTakesPin: pin 0 has a mux field and a select bit, pin 2 no
mux field. -/
theorem test_witness_pins : (ready []).Inv ∧ g0 ∈ t0.groups ∧ g0.pins = [(0 : Half).toNat] ∧
    fieldPresent g0.mux = true ∧ bitPresent g0.sfsel = true ∧ g2 ∈ t0.groups ∧ g2.pins = [(2 : Half).toNat] ∧
    fieldPresent g2.mux = false :=
  ⟨inv_ready [], by decide +kernel, rfl, by decide, by decide, by decide +kernel, rfl, by decide⟩

/-- RestoreWritesSavedWord: pin 0 with a save, and with none. -/
theorem test_witness_restore :
    ({ ready [] with pinbak := [0x401, 0, 0], pinsaved := [true, false, false] } : State).Inv ∧
    ({ ready [] with pinbak := [0x401, 0, 0], pinsaved := [true, false, false] } : State).pinsaved[0]? = some true ∧
    (ready []).pinsaved[0]? = some false :=
  ⟨⟨(inv_ready []).bankWf, (inv_ready []).latch, (inv_ready []).backupLength, rfl, rfl, (inv_ready []).fgLength,
    (inv_ready []).table, (inv_ready []).index⟩, rfl, rfl⟩

/-- GpioRequestWithoutSelectBit: the flag clear, and a group without the bit on a chip that drives it. -/
theorem test_witness_no_select : (inState noSelect .ready []).chip.sfselInMux = false ∧
    (inState selectAbsent .ready []).Inv ∧ selectAbsent.sfselInMux = true ∧
    bitPresent ({ g0 with sfsel := ⟨-1, 0⟩ } : GroupDesc).sfsel = false :=
  ⟨rfl, inv_inState _ _ _ test_variants_ok.2.1 (by decide), rfl, by decide⟩

/-- HandoffRoundTrip: the request succeeds, and the state after it is READY with the same chip and saved word. -/
theorem test_witness_round_trip :
    (after (.gpioRequestEnable 0) (ready [⟨0, 4, 0x401⟩])).map (fun t => (t.lc, t.pinbak[0]?, t.pinsaved[0]?)) =
      some (.ready, some 0x401, some true) ∧
    ({ ready [] with pinbak := [0x401, 0, 0], pinsaved := [true, false, false] } : State).Inv :=
  ⟨by decide +kernel, test_witness_restore.1⟩

/-- SuspendDrainsBanks, ResumeRefillsBanks and SuspendResumeRestoresBanks: READY, SUSPENDED and a draw of words that
exist. -/
theorem test_witness_suspend : (ready []).Inv ∧ (ready []).lc = .ready ∧ (inState t0 .suspended []).Inv ∧
    (inState t0 .suspended []).lc = .suspended ∧ (ready []).chip.readModel = .storage ∧
    (∀ d ∈ ([⟨0, 0, 1⟩, ⟨1, 3, 2⟩] : List BankDraw), mapped t0 d.bank (4 * d.word) = true) :=
  ⟨inv_ready [], rfl, inv_suspended [], rfl, rfl, by decide⟩

end Sys2Proof.Tests
end

section
/-! PROOFS. The state of the machine (10_state.md): what a command does to each piece of it. First one inversion lemma
for `exec` and one package that asks a relation only for the primitive steps the command at hand uses; then the
statements of the family. -/

namespace Sys2Proof.Machine

/-! ### One command, inverted -/

/-- The body that `exec` runs for an instruction, on the chip of the state it starts from. -/
def instrBody (c : Chip) : Instr → M Reply
  | .init => initBody c
  | .clearParked => clearParkedBody c
  | .groupCount => respond [BitVec.ofNat 32 c.groups.length] []
  | .groupName g => groupNameBody c g.toNat
  | .groupPins g => groupPinsBody c g.toNat
  | .functionCount => respond [BitVec.ofNat 32 c.funcs.length] []
  | .functionName f => functionNameBody c f.toNat
  | .functionGroups f => functionGroupsBody c f.toNat
  | .setMux f g => setMuxBody c f.toNat g.toNat
  | .confGet g p => confGetBody c g.toNat p.tag
  | .confSet g es => confSetBody c g.toNat es
  | .dumpGroup g => dumpGroupBody c g.toNat
  | .applyMuxNamed n f => applyMuxBody c n f
  | .applyConfNamed n es => applyConfBody c n es
  | .saveConfig p => saveConfigBody c p.toNat
  | .restoreConfig p => restoreBody c p.toNat
  | .gpioRequestEnable p => gpioRequestBody c p.toNat
  | .gpioDisableFree p => restoreBody c p.toNat
  | .suspend => suspendBody c
  | .resume => resumeBody c

/-- Every command that exists on the chip runs its body in the frame of R180. -/
theorem exec_eq_runCommand {i : Instr} {s : State} (h : i.op = .dumpGroup → s.chip.hasDumpGroup = true) :
    exec i s = runCommand i.op (instrBody s.chip i) s := by
  cases i
  case dumpGroup g => exact if_pos (h rfl)
  all_goals rfl

/-- DUMP_GROUP on a chip without it is an illegal command (R83; assumption log 18). -/
theorem exec_dumpGroup_absent {i : Instr} {s : State} (hi : i.op = .dumpGroup) (h : s.chip.hasDumpGroup = false) :
    exec i s = .next (illegalCommand s) := by
  cases i with
  | dumpGroup g => exact if_neg (by simp [h])
  | _ => cases hi

theorem illegalCommand_faulted {s : State} (h : s.lc = .faulted) : illegalCommand s = s.answer .fatal := if_pos h

theorem illegalCommand_not_faulted {s : State} (h : s.lc ≠ .faulted) :
    illegalCommand s = s.answer .illegalCommand := if_neg h

/-- Everything a command can do (R88, R177, R180, R182). -/
theorem exec_cases {i : Instr} {s t : State} (h : exec i s = .next t) :
    (s.lc = .faulted ∧ t = s.answer .fatal) ∨
    (s.lc ≠ .faulted ∧ i.op = .dumpGroup ∧ s.chip.hasDumpGroup = false ∧ t = s.answer .illegalCommand) ∨
    (s.lc ≠ .faulted ∧ accepts i.op s.lc = false ∧ t = s.raise .sequenceError .sequence) ∨
    (s.lc ≠ .faulted ∧ accepts i.op s.lc = true ∧ t = conclude (instrBody s.chip i s)) := by
  by_cases hd : i.op = .dumpGroup ∧ s.chip.hasDumpGroup = false
  · rw [exec_dumpGroup_absent hd.1 hd.2] at h
    injection h with h
    by_cases hf : s.lc = .faulted
    · exact .inl ⟨hf, by rw [← h, illegalCommand_faulted hf]⟩
    · exact .inr (.inl ⟨hf, hd.1, hd.2, by rw [← h, illegalCommand_not_faulted hf]⟩)
  · rw [exec_eq_runCommand (by simpa using hd)] at h
    rcases runCommand_cases i.op (instrBody s.chip i) s with ⟨hf, e⟩ | ⟨hf, ha, e⟩ | ⟨hf, ha, e⟩ <;>
      rw [e] at h <;> injection h with h
    · exact .inl ⟨hf, h.symm⟩
    · exact .inr (.inr (.inl ⟨hf, ha, h.symm⟩))
    · exact .inr (.inr (.inr ⟨hf, ha, h.symm⟩))

/-- A response changes the state a body ends in by `replied`, `answer` or `raise` (R11). -/
theorem conclude_cases (x : EStateM.Result Stop State Reply) :
    (∃ ws ns, conclude x = (endState x).replied ws ns) ∨ (∃ st, conclude x = (endState x).answer st) ∨
      ∃ k c, conclude x = (endState x).raise k c := by
  cases x with
  | ok r t => exact .inl ⟨r.words, r.names, rfl⟩
  | error e t =>
    cases e with
    | failed st => exact .inr (.inl ⟨st, rfl⟩)
    | raised k c => exact .inr (.inr ⟨k, c, rfl⟩)

theorem op_ne_init {i : Instr} (hi : i ≠ .init) : i.op ≠ .init := by
  cases i with
  | init => exact absurd rfl hi
  | _ => nofun

/-- Every command but INIT is accepted only once INIT has succeeded (R182). -/
theorem initialised_of_accepts {op : Op} {s : State} (hop : op ≠ .init) (ha : accepts op s.lc = true) :
    s.Initialised := by
  cases op with
  | init => exact absurd rfl hop
  | clearParked => exact .inl (of_decide_eq_true ha)
  | groupCount | groupName | groupPins | functionCount | functionName | functionGroups =>
    exact .inr (by simpa [accepts] using ha)
  | resume => exact .inr (.inr (of_decide_eq_true ha))
  | _ => exact .inr (.inl (of_decide_eq_true ha))

/-! ### INIT -/

/-- What a successful INIT leaves: zeroed buffers, the reverse index, PARK_PENDING (R110, R150). -/
def State.afterInit (s : State) : State :=
  { s with
    backup := List.replicate s.chip.words.sum 0
    pinbak := List.replicate s.chip.pins 0
    pinsaved := List.replicate s.chip.pins false
    fg := reverseIndex s.chip
    lc := .parkPending }

/-- The bound of R112 never stops BuildFG. -/
theorem buildIndex_run (c : Chip) (s : State) : buildIndex c s = .ok () { s with fg := reverseIndex c } :=
  if_neg (Nat.not_lt.mpr (reverseIndex_bound c))

theorem initBody_run_of_tableOk {s : State} (h : tableOk s.chip = true) :
    initBody s.chip s = .ok ⟨[], []⟩ s.afterInit := by
  unfold initBody
  rw [if_pos h, bind_run_ok (rfl : zeroBuffers s.chip s = .ok () _), bind_run_ok (buildIndex_run _ _)]
  rfl

theorem initBody_run_of_not_tableOk {s : State} (h : ¬ tableOk s.chip = true) :
    initBody s.chip s = .error (.raised .fatal .malformedTable) s := by
  unfold initBody
  rw [if_neg h]
  rfl

/-! ### The primitive steps of one command -/

/-- The lifecycle state that a command's body moves to, for the four that move (R183). -/
def lifecycleAfter : Instr → Option Lifecycle
  | .init => some .parkPending
  | .clearParked => some .ready
  | .suspend => some .suspended
  | .resume => some .ready
  | _ => none

/-- The relation is kept by the primitive steps that the body of instruction `i` uses: where `KeptByAll` asks for every step
of every body, this asks for the writers of a buffer only when `i` is one of them. -/
structure KeptByBody (i : Instr) (R : State → State → Prop) : Prop extends KeptByBus R where
  init : i = .init → ∀ s, R s s.afterInit
  lifecycle : ∀ lc, lifecycleAfter i = some lc → ∀ s : State, R s { s with lc := lc }
  pin : i.op = .saveConfig ∨ i.op = .gpioRequestEnable → ∀ (s : State) p v,
    R s { s with pinbak := s.pinbak.set p v, pinsaved := s.pinsaved.set p true }
  backup : i = .suspend → ∀ (s : State) k v, R s { s with backup := s.backup.set k v }
  write : i = .resume → ∀ s b o v, mapped s.chip b o = true → R s (s.afterWrite b.toNat o.toNat v)
  barrier : i = .resume → ∀ s : State, R s { s with trace := s.trace ++ [.barrier] }

section bodies
variable {i : Instr} {R : State → State → Prop} (h : KeptByBody i R)
include h

theorem KeptByBody.relates_setLifecycle {lc : Lifecycle} (hi : lifecycleAfter i = some lc) :
    Relates R (setLifecycle lc) := fun s => h.lifecycle lc hi s

/-- The last steps of a body that moves LC. -/
theorem KeptByBody.relates_moveOn {lc : Lifecycle} (hi : lifecycleAfter i = some lc) :
    Relates R (setLifecycle lc >>= fun _ => respond [] []) :=
  relates_bind h.toComposes (h.relates_setLifecycle hi) fun _ => relates_respond h.toComposes _ _

theorem KeptByBody.relates_savePin (hi : i.op = .saveConfig ∨ i.op = .gpioRequestEnable) (p : Nat) (v : Word) :
    Relates R (savePin p v) := by
  intro s
  unfold savePin
  split
  · exact h.pin hi s p v
  · exact h.refl s

theorem KeptByBody.relates_saveBody (hi : i.op = .saveConfig ∨ i.op = .gpioRequestEnable) (c : Chip) (p : Nat) :
    Relates R (saveBody c p) :=
  relates_bind h.toComposes (relates_singlePinGroup h.toComposes c p) fun _ => by
    split
    · exact relates_bind h.toComposes (relates_read h.toKeptByBus _ _) fun _ => h.relates_savePin hi p _
    · exact relates_pure h.toComposes _

theorem KeptByBody.relates_gpioRequestBody (hi : i.op = .gpioRequestEnable) (c : Chip) (p : Nat) :
    Relates R (gpioRequestBody c p) :=
  relates_bind h.toComposes (h.relates_saveBody (.inr hi) c p) fun _ => by
    split
    · exact relates_bind h.toComposes (relates_singlePinGroup h.toComposes c p) fun g =>
        relates_takeGpio h.toKeptByBus g
    · exact relates_respond h.toComposes _ _

theorem KeptByBody.relates_writeBackup (hi : i = .suspend) (k : Nat) (v : Word) : Relates R (writeBackup k v) := by
  intro s
  unfold writeBackup
  split
  · exact h.backup hi s k v
  · exact h.refl s

theorem KeptByBody.relates_drainWords (hi : i = .suspend) (ws : List (Nat × Nat)) (k : Nat) :
    Relates R (drainWords ws k) := by
  induction ws generalizing k with
  | nil => exact relates_pure h.toComposes _
  | cons w ws ih =>
    exact relates_bind h.toComposes (relates_read h.toKeptByBus _ _) fun v =>
      relates_bind h.toComposes (h.relates_writeBackup hi k v) fun _ => ih (k + 1)

theorem KeptByBody.relates_refillWords (hi : i = .resume) (ws : List (Nat × Nat)) (k : Nat) :
    Relates R (refillWords ws k) := by
  induction ws generalizing k with
  | nil => exact relates_pure h.toComposes _
  | cons w ws ih =>
    exact relates_bind h.toComposes (relates_readBackup h.toComposes k) fun v =>
      relates_bind h.toComposes (relates_memWrite h.toComposes (h.write hi) _ _ _) fun _ => ih (k + 1)

theorem KeptByBody.relates_barrier (hi : i = .resume) : Relates R Machine.barrier := fun s => h.barrier hi s

theorem KeptByBody.initBody_relates (hi : i = .init) (s : State) : R s (endState (initBody s.chip s)) := by
  by_cases ht : tableOk s.chip = true
  · rw [initBody_run_of_tableOk ht]
    exact h.init hi s
  · rw [initBody_run_of_not_tableOk ht]
    exact h.refl s

/-- A relation that the primitive steps of an instruction's body keep holds across the body. -/
theorem KeptByBody.instrBody_relates (s : State) : R s (endState (instrBody s.chip i s)) := by
  have hc := h.toComposes
  have hb := h.toKeptByBus
  cases i with
  | init => exact h.initBody_relates rfl s
  | clearParked => exact relates_bind hc (relates_clearGroups hb _) (fun _ => h.relates_moveOn rfl) s
  | groupCount => exact relates_respond hc _ _ s
  | groupName g => exact relates_groupNameBody hc _ _ s
  | groupPins g => exact relates_groupPinsBody hc _ _ s
  | functionCount => exact relates_respond hc _ _ s
  | functionName f => exact relates_functionNameBody hc _ _ s
  | functionGroups f => exact relates_functionGroupsBody hc _ _ s
  | setMux f g => exact relates_setMuxBody hb _ _ _ s
  | confGet g p => exact relates_confGetBody hb _ _ _ s
  | confSet g es => exact relates_confSetBody hb _ _ _ s
  | dumpGroup g => exact relates_dumpGroupBody hb _ _ s
  | applyMuxNamed n f => exact relates_applyMuxBody hb _ _ _ s
  | applyConfNamed n es => exact relates_applyConfBody hb _ _ _ s
  | saveConfig p =>
    exact relates_bind hc (h.relates_saveBody (.inl rfl) _ _) (fun _ => relates_respond hc _ _) s
  | restoreConfig p => exact relates_restoreBody hb _ _ s
  | gpioRequestEnable p => exact h.relates_gpioRequestBody rfl _ _ s
  | gpioDisableFree p => exact relates_restoreBody hb _ _ s
  | suspend => exact relates_bind hc (h.relates_drainWords rfl _ _) (fun _ => h.relates_moveOn rfl) s
  | resume =>
    exact relates_bind hc (h.relates_refillWords rfl _ _) (fun _ =>
      relates_bind hc (relates_read hb _ _) fun _ =>
        relates_bind hc (h.relates_barrier rfl) fun _ => h.relates_moveOn rfl) s

/-- A relation that an instruction's primitive steps and every response keep holds across the command. -/
theorem KeptByBody.exec_relates (hr : KeptByResponse R) {s t : State} (he : exec i s = .next t) : R s t := by
  rcases exec_cases he with ⟨-, rfl⟩ | ⟨-, -, -, rfl⟩ | ⟨-, -, rfl⟩ | ⟨-, -, rfl⟩
  · exact hr.answer _ _
  · exact hr.answer _ _
  · exact hr.raise _ _ _
  · exact conclude_relates h.toComposes hr (h.instrBody_relates s)

end bodies

/-! ### TRACE and BANK -/

/-- TRACE has grown by a stretch of events, and BANK is the old BANK with its write events applied. -/
def TraceExplainsBank (s t : State) : Prop := ∃ es, t.trace = s.trace ++ es ∧ t.bank = replay es s.bank

theorem replay_append (es fs : List BusEvent) (m : Memory) : replay (es ++ fs) m = replay fs (replay es m) := by
  induction es generalizing m with
  | nil => rfl
  | cons e es ih => cases e <;> exact ih _

/-- A step that leaves TRACE and BANK alone. -/
theorem traceExplainsBank_of_eq {s t : State} (ht : t.trace = s.trace) (hb : t.bank = s.bank) :
    TraceExplainsBank s t := ⟨[], by simp [ht], hb⟩

theorem TraceExplainsBank.trans {s t u : State} (h₁ : TraceExplainsBank s t) (h₂ : TraceExplainsBank t u) :
    TraceExplainsBank s u := by
  obtain ⟨es, ht, hb⟩ := h₁
  obtain ⟨fs, ht', hb'⟩ := h₂
  exact ⟨es ++ fs, by rw [ht', ht, List.append_assoc], by rw [hb', hb, replay_append]⟩

theorem traceExplainsBank_afterRead (s : State) (b o : Nat) : TraceExplainsBank s (s.afterRead b o) :=
  ⟨[_], rfl, rfl⟩

theorem traceExplainsBank_afterWrite (s : State) (b o : Nat) (v : Word) :
    TraceExplainsBank s (s.afterWrite b o v) := ⟨[_], rfl, rfl⟩

/-- Every primitive step of every body explains BANK by TRACE. -/
theorem traceExplainsBank_keptByAll : KeptByAll TraceExplainsBank where
  refl _ := traceExplainsBank_of_eq rfl rfl
  trans := TraceExplainsBank.trans
  read s _ _ _ := traceExplainsBank_afterRead s _ _
  update s _ _ v _ := (traceExplainsBank_afterWrite s _ _ v).trans (traceExplainsBank_afterRead _ _ _)
  lifecycle _ _ := traceExplainsBank_of_eq rfl rfl
  backup _ _ _ := traceExplainsBank_of_eq rfl rfl
  pin _ _ _ := traceExplainsBank_of_eq rfl rfl
  buffers _ := traceExplainsBank_of_eq rfl rfl
  index _ := traceExplainsBank_of_eq rfl rfl
  write s _ _ v _ := traceExplainsBank_afterWrite s _ _ v
  barrier _ := ⟨[.barrier], rfl, rfl⟩

theorem traceExplainsBank_keptByResponse : KeptByResponse TraceExplainsBank where
  answer _ _ := traceExplainsBank_of_eq rfl rfl
  raise _ _ _ := traceExplainsBank_of_eq rfl rfl
  replied _ _ _ := traceExplainsBank_of_eq rfl rfl

/-- Settles O19: each primitive step appends the events that explain what it did to BANK, and the explanation composes. -/
theorem traceRecordsEveryBankChange : Obligations.TraceRecordsEveryBankChange :=
  fun _ _ _ he => exec_relates traceExplainsBank_keptByAll traceExplainsBank_keptByResponse he

/-! ### The configuration -/

/-- The pieces of state that no command writes are as they were (R21, R28, R29, R65). -/
def SameConfiguration (s t : State) : Prop :=
  t.chip = s.chip ∧ t.host = s.host ∧ t.cmd = s.cmd ∧ t.arg = s.arg ∧ t.namearg = s.namearg

theorem SameConfiguration.refl (s : State) : SameConfiguration s s := ⟨rfl, rfl, rfl, rfl, rfl⟩

theorem SameConfiguration.trans {s t u : State} (h₁ : SameConfiguration s t) (h₂ : SameConfiguration t u) :
    SameConfiguration s u := by
  obtain ⟨hc, hh, hm, ha, hn⟩ := h₁
  obtain ⟨hc', hh', hm', ha', hn'⟩ := h₂
  exact ⟨hc'.trans hc, hh'.trans hh, hm'.trans hm, ha'.trans ha, hn'.trans hn⟩

theorem sameConfiguration_keptByAll : KeptByAll SameConfiguration where
  refl := SameConfiguration.refl
  trans := SameConfiguration.trans
  read s _ _ _ := .refl s
  update s _ _ _ _ := .refl s
  lifecycle s _ := .refl s
  backup s _ _ := .refl s
  pin s _ _ := .refl s
  buffers s := .refl s
  index s := .refl s
  write s _ _ _ _ := .refl s
  barrier s := .refl s

theorem sameConfiguration_keptByResponse : KeptByResponse SameConfiguration where
  answer s _ := .refl s
  raise s _ _ := .refl s
  replied s _ _ := .refl s

/-- Settles O18: no primitive step and no response writes one of these fields. -/
theorem commandsKeepConfiguration : Obligations.CommandsKeepConfiguration :=
  fun _ _ _ he => exec_relates sameConfiguration_keptByAll sameConfiguration_keptByResponse he

/-! ### The latch -/

/-- What a body does to the latch before its response: nothing, and it does not enter FAULTED by itself. -/
def LatchUntouched (s t : State) : Prop := t.fault = s.fault ∧ (s.lc ≠ .faulted → t.lc ≠ .faulted)

theorem LatchUntouched.of_eq {s t : State} (hf : t.fault = s.fault) (hl : t.lc = s.lc) : LatchUntouched s t :=
  ⟨hf, fun h => hl ▸ h⟩

theorem lifecycleAfter_ne_faulted (i : Instr) : lifecycleAfter i ≠ some .faulted := by
  cases i <;> simp [lifecycleAfter]

theorem latchUntouched_keptByBody (i : Instr) : KeptByBody i LatchUntouched where
  refl _ := .of_eq rfl rfl
  trans h₁ h₂ := ⟨h₂.1.trans h₁.1, fun h => h₂.2 (h₁.2 h)⟩
  read _ _ _ _ := .of_eq rfl rfl
  update _ _ _ _ _ := .of_eq rfl rfl
  init _ _ := ⟨rfl, fun _ => nofun⟩
  lifecycle _ hi _ := ⟨rfl, fun _ hl => lifecycleAfter_ne_faulted i (hi.trans (congrArg some hl))⟩
  pin _ _ _ _ := .of_eq rfl rfl
  backup _ _ _ _ := .of_eq rfl rfl
  write _ _ _ _ _ _ := .of_eq rfl rfl
  barrier _ _ := .of_eq rfl rfl

/-- A command leaves the latch and being FAULTED alone, or raises (R176). -/
theorem exec_latch_cases {i : Instr} {s t : State} (he : exec i s = .next t) :
    (t.fault = s.fault ∧ (t.lc = .faulted ↔ s.lc = .faulted)) ∨
      (t.lc = .faulted ∧ ∃ c, t.fault = some (s.fault.getD c)) := by
  rcases exec_cases he with ⟨-, rfl⟩ | ⟨-, -, -, rfl⟩ | ⟨-, -, rfl⟩ | ⟨hl, -, rfl⟩
  · exact .inl ⟨rfl, .rfl⟩
  · exact .inl ⟨rfl, .rfl⟩
  · exact .inr ⟨rfl, _, rfl⟩
  · obtain ⟨hf, hn⟩ := (latchUntouched_keptByBody i).instrBody_relates s
    have hl' := iff_of_false (hn hl) hl
    rcases conclude_cases (instrBody s.chip i s) with ⟨ws, ns, e⟩ | ⟨st, e⟩ | ⟨k, c, e⟩ <;> rw [e]
    · exact .inl ⟨hf, hl'⟩
    · exact .inl ⟨hf, hl'⟩
    · exact .inr ⟨rfl, c, by rw [State.raise_fault, hf]⟩

/-- Settles O17: a command touches the latch only by raising, which keeps a recorded cause and enters FAULTED. -/
theorem latchKeepsFirstCause : Obligations.LatchKeepsFirstCause := by
  intro i s t he
  rcases exec_latch_cases he with ⟨hf, hl⟩ | ⟨hl, c, hf⟩
  · exact ⟨fun _ h => hf.trans h, fun hn hne => by simp [hf, hn, hl, hne]⟩
  · exact ⟨fun d h => by simp [hf, h], fun _ _ => by simp [hf, hl]⟩

/-! ### The buffers -/

/-- The buffers that instruction `i` is no writer of are as they were (R35, R36, R37). -/
def KeepsOthersBuffers (i : Instr) (s t : State) : Prop :=
  (i ≠ .init → i ≠ .suspend → t.backup = s.backup) ∧
  (i ≠ .init → i.op ≠ .saveConfig → i.op ≠ .gpioRequestEnable → t.pinbak = s.pinbak ∧ t.pinsaved = s.pinsaved) ∧
  (i ≠ .init → t.fg = s.fg)

theorem KeepsOthersBuffers.refl (i : Instr) (s : State) : KeepsOthersBuffers i s s :=
  ⟨fun _ _ => rfl, fun _ _ _ => ⟨rfl, rfl⟩, fun _ => rfl⟩

theorem KeepsOthersBuffers.trans {i : Instr} {s t u : State} (h₁ : KeepsOthersBuffers i s t)
    (h₂ : KeepsOthersBuffers i t u) : KeepsOthersBuffers i s u := by
  obtain ⟨hb, hp, hf⟩ := h₁
  obtain ⟨hb', hp', hf'⟩ := h₂
  exact ⟨fun hi hs => (hb' hi hs).trans (hb hi hs),
    fun hi hs hg => ⟨(hp' hi hs hg).1.trans (hp hi hs hg).1, (hp' hi hs hg).2.trans (hp hi hs hg).2⟩,
    fun hi => (hf' hi).trans (hf hi)⟩

theorem keepsOthersBuffers_keptByBody (i : Instr) : KeptByBody i (KeepsOthersBuffers i) where
  refl := .refl i
  trans := .trans
  read s _ _ _ := .refl i s
  update s _ _ _ _ := .refl i s
  init hi _ := ⟨fun h => absurd hi h, fun h => absurd hi h, fun h => absurd hi h⟩
  lifecycle _ _ s := .refl i s
  pin hi _ _ _ := ⟨fun _ _ => rfl, fun _ hs hg => (hi.elim hs hg).elim, fun _ => rfl⟩
  backup hi _ _ _ := ⟨fun _ h => absurd hi h, fun _ _ _ => ⟨rfl, rfl⟩, fun _ => rfl⟩
  write _ s _ _ _ _ := .refl i s
  barrier _ s := .refl i s

theorem keepsOthersBuffers_keptByResponse (i : Instr) : KeptByResponse (KeepsOthersBuffers i) where
  answer s _ := .refl i s
  raise s _ _ := .refl i s
  replied s _ _ := .refl i s

/-- Settles O20: the steps that write a buffer are steps of its writers only. -/
theorem buffersHaveTheirWriters : Obligations.BuffersHaveTheirWriters :=
  fun i _ _ he => (keepsOthersBuffers_keptByBody i).exec_relates (keepsOthersBuffers_keptByResponse i) he

/-! ### INIT refuses a bad table -/

/-- Settles O32: the checks of INIT accept exactly the tables of W1 to W9, and a refusal only raises. -/
theorem initRefusesBadTable : Obligations.InitRefusesBadTable := by
  intro s hl hw
  have hbody := initBody_run_of_not_tableOk (mt tableOk_iff_wellFormed.mp hw)
  have hrun : exec .init s = .next (conclude (initBody s.chip s)) :=
    runCommand_accepted (by simp [hl]) (by simp [hl, accepts])
  rw [hrun, hbody]
  rfl

/-! ### Steps and reset -/

/-- Settles O7: the move is taken, the registers are loaded, and the tuple decoded is the one delivered. -/
theorem stepRunsDecodedCommand : Obligations.StepRunsDecodedCommand := by
  intro s c rest i hh hd
  have hdel : stepDelivered ((s.afterMove rest).deliver c) = exec i ((s.afterMove rest).deliver c) := by
    simp [stepDelivered, hd]
  unfold step
  rw [hh]
  exact hdel

/-- Settles O12: `State.boot` sets each of these fields, and `State.reset` the two options of the chip. -/
theorem resetValues : Obligations.ResetValues :=
  ⟨fun _ => ⟨rfl, rfl, rfl, rfl, rfl⟩, rfl, rfl, rfl, rfl, rfl, rfl⟩

/-! ### The invariant, over a command -/

/-- Each buffer is as long as the chip makes it (R35 to R37). -/
def State.Sized (s : State) : Prop :=
  s.backup.length = s.chip.words.sum ∧ s.pinbak.length = s.chip.pins ∧ s.pinsaved.length = s.chip.pins ∧
    s.fg.length = s.chip.funcs.length

theorem State.Inv.sized {s : State} (h : s.Inv) : s.Sized :=
  ⟨h.backupLength, h.pinbakLength, h.pinsavedLength, h.fgLength⟩

theorem reverseIndex_length (c : Chip) : (reverseIndex c).length = c.funcs.length := by simp [reverseIndex]

theorem sized_keptByAll : KeptByAll fun s t => s.Sized → t.Sized where
  refl _ := id
  trans h₁ h₂ h := h₂ (h₁ h)
  read _ _ _ _ := id
  update _ _ _ _ _ := id
  lifecycle _ _ := id
  backup _ _ _ := fun ⟨hb, hp, hs, hf⟩ => ⟨List.length_set.trans hb, hp, hs, hf⟩
  pin _ _ _ := fun ⟨hb, hp, hs, hf⟩ => ⟨hb, List.length_set.trans hp, List.length_set.trans hs, hf⟩
  buffers _ := fun ⟨_, _, _, hf⟩ => ⟨List.length_replicate, List.length_replicate, List.length_replicate, hf⟩
  index _ := fun ⟨hb, hp, hs, _⟩ => ⟨hb, hp, hs, reverseIndex_length _⟩
  write _ _ _ _ _ := id
  barrier _ := id

theorem sized_keptByResponse : KeptByResponse fun s t => s.Sized → t.Sized where
  answer _ _ := id
  raise _ _ _ := id
  replied _ _ _ := id

theorem exec_keeps_sized {i : Instr} {s t : State} (hs : s.Sized) (he : exec i s = .next t) : t.Sized :=
  exec_relates sized_keptByAll sized_keptByResponse he hs

theorem exec_keeps_latch {i : Instr} {s t : State} (hs : s.fault.isSome = true ↔ s.lc = .faulted)
    (he : exec i s = .next t) : t.fault.isSome = true ↔ t.lc = .faulted := by
  rcases exec_latch_cases he with ⟨hf, hl⟩ | ⟨hl, c, hf⟩
  · rw [hf, hl, hs]
  · simp [hf, hl]

theorem not_initialised_of_faulted {s : State} (h : s.lc = .faulted) : ¬ s.Initialised := by
  simp [State.Initialised, h]

/-- Every command but INIT that ends initialised began so. -/
theorem initialised_of_exec {i : Instr} {s t : State} (hi : i ≠ .init) (he : exec i s = .next t)
    (ht : t.Initialised) : s.Initialised := by
  rcases exec_cases he with ⟨-, rfl⟩ | ⟨-, -, -, rfl⟩ | ⟨-, -, rfl⟩ | ⟨-, ha, -⟩
  · exact ht
  · exact ht
  · exact absurd ht (not_initialised_of_faulted rfl)
  · exact initialised_of_accepts (op_ne_init hi) ha

/-- An INIT that ends initialised has checked the table and built its reverse index. -/
theorem exec_init_initialised {s t : State} (he : exec .init s = .next t) (ht : t.Initialised) :
    tableOk s.chip = true ∧ t.fg = reverseIndex s.chip := by
  rcases exec_cases he with ⟨hl, rfl⟩ | ⟨-, hd, -, -⟩ | ⟨-, -, rfl⟩ | ⟨-, -, rfl⟩
  · exact absurd ht (not_initialised_of_faulted hl)
  · cases hd
  · exact absurd ht (not_initialised_of_faulted rfl)
  · simp only [instrBody] at ht ⊢
    by_cases hok : tableOk s.chip = true
    · rw [initBody_run_of_tableOk hok]
      exact ⟨hok, rfl⟩
    · rw [initBody_run_of_not_tableOk hok] at ht
      exact absurd ht (not_initialised_of_faulted rfl)

/-- What the invariant says once INIT has succeeded, after a command. -/
theorem exec_keeps_table {i : Instr} {s t : State} (hs : s.Inv) (he : exec i s = .next t) (ht : t.Initialised) :
    tableOk t.chip = true ∧ t.fg = reverseIndex t.chip := by
  have hc : t.chip = s.chip := (commandsKeepConfiguration i s t he).1
  rw [hc]
  by_cases hi : i = .init
  · subst hi
    exact exec_init_initialised he ht
  · have hf : t.fg = s.fg := (buffersHaveTheirWriters i s t he).2.2 hi
    have h := initialised_of_exec hi he ht
    exact ⟨hs.table h, hf.trans (hs.index h)⟩

/-- Every command keeps the invariant. -/
theorem exec_keeps_inv {i : Instr} {s t : State} (hs : s.Inv) (he : exec i s = .next t) : t.Inv := by
  obtain ⟨es, -, hbank⟩ := traceRecordsEveryBankChange i s t he
  obtain ⟨hb, hp, hv, hf⟩ := exec_keeps_sized hs.sized he
  exact {
    bankWf := hbank ▸ wf_replay es hs.bankWf
    latch := exec_keeps_latch hs.latch he
    backupLength := hb
    pinbakLength := hp
    pinsavedLength := hv
    fgLength := hf
    table := fun h => (exec_keeps_table hs he h).1
    index := fun h => (exec_keeps_table hs he h).2 }

/-! ### The invariant, over the host's moves -/

theorem State.Inv.answer {s : State} (h : s.Inv) (st : Status) : (s.answer st).Inv := { h with }

theorem State.Inv.afterMove {s : State} (h : s.Inv) (rest : List HostMove) : (s.afterMove rest).Inv := { h with }

theorem State.Inv.deliver {s : State} (h : s.Inv) (c : Command) : (s.deliver c).Inv := { h with }

theorem State.Inv.drawBanks {s : State} (h : s.Inv) (draw : List BankDraw) : (s.drawBanks draw).Inv :=
  { h with bankWf := wf_drawBank draw h.bankWf }

/-- The reset event leaves the banks to their agent and everything else at a value that meets the invariant. -/
theorem State.Inv.resetEvent {s : State} (h : s.Inv) : s.resetEvent.Inv where
  bankWf := h.bankWf
  latch := by simp
  backupLength := List.length_replicate
  pinbakLength := List.length_replicate
  pinsavedLength := List.length_replicate
  fgLength := List.length_replicate
  table := by simp [State.Initialised]
  index := by simp [State.Initialised]

theorem State.Inv.illegalCommand {s : State} (h : s.Inv) : (illegalCommand s).Inv := by
  unfold Machine.illegalCommand
  split <;> exact h.answer _

/-- Performing the command the registers hold keeps the invariant, whether it decodes or not. -/
theorem stepDelivered_keeps_inv {s t : State} (hs : s.Inv) (h : stepDelivered s = .next t) : t.Inv := by
  unfold stepDelivered at h
  split at h
  · exact exec_keeps_inv hs h
  · injection h with h
    exact h ▸ hs.illegalCommand

/-- Everything a step can do (R30, R195, R200, R201). -/
theorem step_cases {s t : State} (h : step s = .next t) :
    (s.host = [] ∧ t = s) ∨
    (∃ c rest, s.host = .command c :: rest ∧ stepDelivered ((s.afterMove rest).deliver c) = .next t) ∨
    (∃ draw rest, s.host = .powerLoss draw :: rest ∧ admitsPowerLoss s draw = true ∧
      t = (s.afterMove rest).drawBanks draw) ∨
    (∃ rest, s.host = .reset :: rest ∧ t = (s.afterMove rest).resetEvent) ∨
    (∃ draw rest, s.host = .powerOn draw :: rest ∧ drawMapped s.chip draw = true ∧
      t = (s.afterMove rest).resetEvent.drawBanks draw) := by
  unfold step at h
  split at h
  case h_1 hh =>
    injection h with h
    exact .inl ⟨hh, h.symm⟩
  case h_2 c rest hh => exact .inr (.inl ⟨c, rest, hh, h⟩)
  case h_3 draw rest hh =>
    split at h
    · next ha =>
      injection h with h
      exact .inr (.inr (.inl ⟨draw, rest, hh, ha, h.symm⟩))
    · cases h
  case h_4 rest hh =>
    injection h with h
    exact .inr (.inr (.inr (.inl ⟨rest, hh, h.symm⟩)))
  case h_5 draw rest hh =>
    split at h
    · next ha =>
      injection h with h
      exact .inr (.inr (.inr (.inr ⟨draw, rest, hh, ha, h.symm⟩)))
    · cases h

/-- Settles O24: a command keeps the invariant, a draw keeps the banks canonical, and reset meets it anew. -/
theorem stepKeepsInv : Obligations.StepKeepsInv := by
  intro s t hs h
  rcases step_cases h with ⟨-, rfl⟩ | ⟨c, rest, -, hd⟩ | ⟨draw, rest, -, -, rfl⟩ | ⟨rest, -, rfl⟩ |
    ⟨draw, rest, -, -, rfl⟩
  · exact hs
  · exact stepDelivered_keeps_inv ((hs.afterMove rest).deliver c) hd
  · exact (hs.afterMove rest).drawBanks draw
  · exact (hs.afterMove rest).resetEvent
  · exact (hs.afterMove rest).resetEvent.drawBanks draw

end Sys2Proof.Machine
end

section
/-! PROOFS. The bus (20_memory.md): every write has landed by the time a command responds (R55, R62), and once INIT has
checked the table no command forms an access to an unmapped location (R57). -/

namespace Sys2Proof.Machine

/-! ### Landed writes -/

/-- The state after RESUME's body: each word written from BACKUP in cursor order, the dummy read, the barrier (R161). -/
theorem resumeBody_run {s : State} (ht : tableOk s.chip = true) (hb : s.backup.length = s.chip.words.sum) :
    ∃ back d, resumeBody s.chip s = .ok ⟨[], []⟩ { s with
      bank := refillBank (cursorWords s.chip) s.backup s.bank
      trace := s.trace ++ (cursorWords s.chip).zipWith (fun x v => BusEvent.write x.1 (4 * x.2) v) s.backup ++
        [.read 0 0 back] ++ [.barrier]
      draws := d
      lc := .ready } := by
  have hw := refillWords_run (cursorWords s.chip) 0 s (fun _ hx => cursor_mapped hx) (by simp [cursorWords_length, hb])
  rw [List.drop_zero] at hw
  exact ⟨_, _, (bind_run_ok hw).trans (bind_run_ok (memRead_mapped (by exact origin_mapped ht)))⟩

/-- A trace whose writes have all landed stays one. -/
def KeepsLanded (s t : State) : Prop := allLanded s.trace = true → allLanded t.trace = true

theorem KeepsLanded.of_trace_eq {s t : State} (h : t.trace = s.trace) : KeepsLanded s t := fun hs => h ▸ hs

/-- Every primitive step but RESUME's bare write keeps the writes landed: a register write goes with its readback (R56). -/
theorem keepsLanded_keptByBuffers : KeptByBuffers KeepsLanded where
  refl _ := .of_trace_eq rfl
  trans h₁ h₂ hs := h₂ (h₁ hs)
  read _ _ _ _ hs := allLanded_append hs rfl
  update s b o v _ hs := by
    simpa using allLanded_readback hs b.toNat o.toNat v (bankAnswer (s.afterWrite b.toNat o.toNat v) b.toNat o.toNat)
  lifecycle _ _ := .of_trace_eq rfl
  backup _ _ _ := .of_trace_eq rfl
  pin _ _ _ := .of_trace_eq rfl
  buffers _ := .of_trace_eq rfl
  index _ := .of_trace_eq rfl

theorem keepsLanded_keptByResponse : KeptByResponse KeepsLanded where
  answer _ _ := .of_trace_eq rfl
  raise _ _ _ := .of_trace_eq rfl
  replied _ _ _ := .of_trace_eq rfl

/-- RESUME writes without readback, and its barrier lands them all (R62 b, R161). -/
theorem exec_resume_keepsLanded {s t : State} (hs : s.Inv) (he : exec .resume s = .next t) : KeepsLanded s t := by
  rcases exec_cases he with ⟨-, rfl⟩ | ⟨-, hd, -, -⟩ | ⟨-, -, rfl⟩ | ⟨-, ha, rfl⟩
  · exact .of_trace_eq rfl
  · cases hd
  · exact .of_trace_eq rfl
  · have ht : tableOk s.chip = true := hs.table (initialised_of_accepts (op := .resume) nofun ha)
    obtain ⟨back, d, hrun⟩ := resumeBody_run ht hs.backupLength
    have hbody : instrBody s.chip .resume s = _ := hrun
    rw [hbody]
    exact fun _ => allLanded_barrier _

theorem exec_keepsLanded {i : Instr} {s t : State} (hs : s.Inv) (he : exec i s = .next t) : KeepsLanded s t := by
  by_cases hi : i = .resume
  · subst hi
    exact exec_resume_keepsLanded hs he
  · exact exec_relates_notResume keepsLanded_keptByBuffers keepsLanded_keptByResponse hi he

theorem illegalCommand_trace (s : State) : (illegalCommand s).trace = s.trace := by
  unfold illegalCommand
  split <;> rfl

theorem stepDelivered_keepsLanded {s t : State} (hs : s.Inv) (h : stepDelivered s = .next t) : KeepsLanded s t := by
  unfold stepDelivered at h
  split at h
  · exact exec_keepsLanded hs h
  · injection h with h
    exact h ▸ .of_trace_eq (illegalCommand_trace s)

/-- A command lands its own writes, a power loss makes no bus event, and a reset empties TRACE (R185, R200). -/
theorem step_keepsLanded {s t : State} (hs : s.Inv) (h : step s = .next t) : KeepsLanded s t := by
  rcases step_cases h with ⟨-, rfl⟩ | ⟨c, rest, -, hd⟩ | ⟨draw, rest, -, -, rfl⟩ | ⟨rest, -, rfl⟩ |
    ⟨draw, rest, -, -, rfl⟩
  · exact .of_trace_eq rfl
  · have hk : KeepsLanded ((s.afterMove rest).deliver c) t :=
      stepDelivered_keepsLanded ((hs.afterMove rest).deliver c) hd
    exact hk
  · exact .of_trace_eq rfl
  · exact fun _ => rfl
  · exact fun _ => rfl

/-- Settles O25: each write goes with its readback, RESUME's with its barrier; `allLanded` says it position by position. -/
theorem stepKeepsWritesLanded : Obligations.StepKeepsWritesLanded :=
  fun _ _ hs hl h => ⟨step_keepsLanded hs h hl, allLanded_iff.mp (step_keepsLanded hs h hl)⟩

/-! ### No unmapped access -/

/-- From every state of chip `c` the body ends without RegisterOutOfRange, and where it goes on it keeps the chip and gives a
value with `Q`. -/
def StaysMappedWith {α : Type} (c : Chip) (Q : α → Prop) (x : M α) : Prop :=
  ∀ s : State, s.chip = c → (∃ a t, x s = .ok a t ∧ t.chip = c ∧ Q a) ∨
    ∃ e t, x s = .error e t ∧ ∀ k, e ≠ .raised k .registerOutOfRange

/-- From every state of chip `c` the body ends without RegisterOutOfRange. -/
abbrev StaysMapped {α : Type} (c : Chip) (x : M α) : Prop := StaysMappedWith c (fun _ => True) x

section steps
variable {α β : Type} {c : Chip} {Q : α → Prop} {P : β → Prop}

theorem staysMapped_pure {a : α} (h : Q a) : StaysMappedWith c Q (pure a) := fun s hs => .inl ⟨a, s, rfl, hs, h⟩

theorem staysMapped_respond {ws : List Word} {ns : List Name} : StaysMapped c (respond ws ns) :=
  staysMapped_pure trivial

theorem staysMapped_failWith (st : Status) : StaysMappedWith c Q (failWith st) := fun s _ => .inr ⟨_, s, rfl, nofun⟩

theorem staysMapped_raiseFatal {d : FaultCause} (h : d ≠ .registerOutOfRange) : StaysMappedWith c Q (raiseFatal d) :=
  fun s _ => .inr ⟨_, s, rfl, fun _ he => h (Stop.raised.inj he).2⟩

theorem staysMapped_bind {x : M α} {f : α → M β} (hx : StaysMappedWith c Q x)
    (hf : ∀ a, Q a → StaysMappedWith c P (f a)) : StaysMappedWith c P (x >>= f) := by
  intro s hs
  rcases hx s hs with ⟨a, t, he, ht, ha⟩ | ⟨e, t, he, hne⟩
  · rw [bind_run_ok he]
    exact hf a ha t ht
  · exact .inr ⟨e, t, bind_run_error he, hne⟩

end steps

section primitives
variable {c : Chip}

theorem staysMapped_memRead {b o : Int} (h : mapped c b o = true) : StaysMapped c (memRead b o) := by
  rintro s rfl
  exact .inl ⟨_, _, memRead_mapped h, rfl, trivial⟩

theorem staysMapped_memWrite {b o : Int} (h : mapped c b o = true) (v : Word) :
    StaysMapped c (memWrite b o v) := by
  rintro s rfl
  exact .inl ⟨_, _, memWrite_mapped h, rfl, trivial⟩

theorem staysMapped_regWrite {b o : Int} (h : mapped c b o = true) (v : Word) :
    StaysMapped c (regWrite b o v) := by
  rintro s rfl
  exact .inl ⟨_, _, regWrite_mapped h, rfl, trivial⟩

theorem staysMapped_barrier : StaysMapped c barrier := fun s hs => .inl ⟨_, _, barrier_run s, hs, trivial⟩

theorem staysMapped_setLifecycle (lc : Lifecycle) : StaysMapped c (setLifecycle lc) :=
  fun s hs => .inl ⟨_, _, setLifecycle_run lc s, hs, trivial⟩

theorem staysMapped_writeBackup (k : Nat) (v : Word) : StaysMapped c (writeBackup k v) := by
  intro s hs
  unfold writeBackup
  split
  · exact .inl ⟨_, _, rfl, hs, trivial⟩
  · exact .inr ⟨_, _, rfl, nofun⟩

theorem staysMapped_readBackup (k : Nat) : StaysMapped c (readBackup k) := by
  intro s hs
  unfold readBackup
  split
  · exact .inl ⟨_, _, rfl, hs, trivial⟩
  · exact .inr ⟨_, _, rfl, nofun⟩

theorem staysMapped_savePin (p : Nat) (v : Word) : StaysMapped c (savePin p v) := by
  intro s hs
  unfold savePin
  split
  · exact .inl ⟨_, _, rfl, hs, trivial⟩
  · exact .inr ⟨_, _, rfl, nofun⟩

theorem staysMapped_savedPin (p : Nat) : StaysMapped c (savedPin p) := by
  intro s hs
  unfold savedPin
  split
  · exact .inl ⟨_, _, rfl, hs, trivial⟩
  · exact .inr ⟨_, _, rfl, nofun⟩
  · exact .inr ⟨_, _, rfl, nofun⟩

theorem staysMapped_readIndex (f : Nat) : StaysMapped c (readIndex f) := by
  intro s hs
  unfold readIndex
  split
  · exact .inl ⟨_, _, rfl, hs, trivial⟩
  · exact .inr ⟨_, _, rfl, nofun⟩

/-- The last steps of a body that moves LC. -/
theorem staysMapped_moveOn (lc : Lifecycle) : StaysMapped c (setLifecycle lc >>= fun _ => respond [] []) :=
  staysMapped_bind (staysMapped_setLifecycle lc) fun _ _ => staysMapped_respond

/-! ### Lookups stay mapped, and the group they find is in the table -/

theorem staysMapped_groupAt (i : Nat) : StaysMappedWith c (· ∈ c.groups) (groupAt c i) := by
  unfold groupAt
  split
  · next hg => exact staysMapped_pure (List.mem_of_getElem? hg)
  · exact staysMapped_raiseFatal nofun

theorem staysMapped_functionAt (i : Nat) : StaysMapped c (functionAt c i) := by
  unfold functionAt
  split
  · exact staysMapped_pure trivial
  · exact staysMapped_raiseFatal nofun

theorem staysMapped_namedGroup (n : Name) : StaysMappedWith c (· ∈ c.groups) (namedGroup c n) := by
  unfold namedGroup
  split
  · next hg => exact staysMapped_pure (List.mem_of_find?_eq_some hg)
  · exact staysMapped_failWith _

theorem staysMapped_namedFunction (n : Name) : StaysMapped c (namedFunction c n) := by
  unfold namedFunction
  split
  · exact staysMapped_pure trivial
  · exact staysMapped_failWith _

theorem staysMapped_singlePinGroup (p : Nat) : StaysMappedWith c (· ∈ c.groups) (singlePinGroup c p) := by
  unfold singlePinGroup
  split
  · next hg => exact staysMapped_pure (findSinglePinGroup_some hg).1
  · exact staysMapped_failWith _

end primitives

/-! ### Bodies that make no bus access -/

section queries
variable {c : Chip}

theorem staysMapped_groupNames (is : List Nat) : StaysMapped c (groupNames c is) := by
  induction is with
  | nil => exact staysMapped_pure trivial
  | cons i is ih =>
    exact staysMapped_bind (staysMapped_groupAt i) fun _ _ => staysMapped_bind ih fun _ _ => staysMapped_pure trivial

theorem staysMapped_groupNameBody (i : Nat) : StaysMapped c (groupNameBody c i) :=
  staysMapped_bind (staysMapped_groupAt i) fun _ _ => staysMapped_respond

theorem staysMapped_groupPinsBody (i : Nat) : StaysMapped c (groupPinsBody c i) :=
  staysMapped_bind (staysMapped_groupAt i) fun _ _ => staysMapped_respond

theorem staysMapped_functionNameBody (i : Nat) : StaysMapped c (functionNameBody c i) :=
  staysMapped_bind (staysMapped_functionAt i) fun _ _ => staysMapped_respond

theorem staysMapped_functionGroupsBody (i : Nat) : StaysMapped c (functionGroupsBody c i) :=
  staysMapped_bind (staysMapped_functionAt i) fun _ _ =>
    staysMapped_bind (staysMapped_readIndex i) fun gs _ =>
      staysMapped_bind (staysMapped_groupNames gs) fun _ _ => staysMapped_respond

theorem staysMapped_slotName (g : GroupDesc) (v : Word) : StaysMapped c (slotName c g v) := by
  unfold slotName
  split
  · exact staysMapped_pure trivial
  · exact staysMapped_bind (staysMapped_functionAt _) fun _ _ => staysMapped_pure trivial

theorem staysMapped_dumpNames (g : GroupDesc) (p : Param) (v : Word) :
    StaysMapped c (dumpNames c g p v) := by
  unfold dumpNames
  split
  · exact staysMapped_bind (staysMapped_slotName g v) fun _ _ => staysMapped_pure trivial
  · exact staysMapped_pure trivial

/-- INIT makes no bus access, whatever its checks say (R150). -/
theorem staysMapped_initBody : StaysMapped c (initBody c) := by
  rintro s rfl
  by_cases ht : tableOk s.chip = true
  · exact .inl ⟨_, _, initBody_run_of_tableOk ht, rfl, trivial⟩
  · exact .inr ⟨_, _, initBody_run_of_not_tableOk ht, nofun⟩

end queries

/-! ### Bodies that use the bus, on a checked table -/

/-- W2 for whatever Resolve finds: the field of a parameter lies in a mapped register. -/
theorem resolve_mapped {c : Chip} (h : tableOk c = true) {g : GroupDesc} (hg : g ∈ c.groups) {p : Param} {r : Resolved}
    (hr : resolve c g p = .field r) : mapped c r.bank r.reg = true := by
  cases p
  case highSpeedMode | schmitt | driveType => exact (resolveDual_fits h hg (by simp [rawBits]) hr).1
  case function =>
    simp only [resolve] at hr
    split at hr
    · next hp =>
      obtain rfl := Resolution.field.inj hr
      exact mux_mapped h hg hp
    · cases hr
  all_goals exact (resolveOwn_fits h hg (by simp [rawFields]) hr).1

section bus
variable {c : Chip}

theorem staysMapped_modify {b o : Int} (hm : mapped c b o = true) (f : Word → Word) :
    StaysMapped c (memRead b o >>= fun v => regWrite b o (f v)) :=
  staysMapped_bind (staysMapped_memRead hm) fun _ _ => staysMapped_regWrite hm _

theorem staysMapped_readParam (p : Param) {r : Resolved} (hm : mapped c r.bank r.reg = true) :
    StaysMapped c (readParam p r) :=
  staysMapped_bind (staysMapped_memRead hm) fun _ _ => staysMapped_pure trivial

theorem staysMapped_lockGuard (p : Param) {r : Resolved} (hm : mapped c r.bank r.reg = true) (v : Word) :
    StaysMapped c (lockGuard p r v) := by
  unfold lockGuard lockCheck
  split
  · refine staysMapped_bind (staysMapped_memRead hm) fun _ _ => ?_
    split
    · exact staysMapped_failWith _
    · exact staysMapped_pure trivial
  · exact staysMapped_pure trivial

theorem staysMapped_writeField {r : Resolved} (hm : mapped c r.bank r.reg = true) (v : Word) :
    StaysMapped c (writeField r v) := by
  unfold writeField
  split
  · exact staysMapped_failWith _
  · exact staysMapped_modify hm _

/-- The suspend loop over words that exist. -/
theorem staysMapped_drainWords {ws : List (Nat × Nat)} (hm : ∀ x ∈ ws, mapped c x.1 (4 * x.2) = true) (k : Nat) :
    StaysMapped c (drainWords ws k) := by
  induction ws generalizing k with
  | nil => exact staysMapped_pure trivial
  | cons x ws ih =>
    have hms := List.forall_mem_cons.mp hm
    exact staysMapped_bind (staysMapped_memRead hms.1) fun v _ =>
      staysMapped_bind (staysMapped_writeBackup k v) fun _ _ => ih hms.2 (k + 1)

/-- The resume loop over words that exist. -/
theorem staysMapped_refillWords {ws : List (Nat × Nat)} (hm : ∀ x ∈ ws, mapped c x.1 (4 * x.2) = true) (k : Nat) :
    StaysMapped c (refillWords ws k) := by
  induction ws generalizing k with
  | nil => exact staysMapped_pure trivial
  | cons x ws ih =>
    have hms := List.forall_mem_cons.mp hm
    exact staysMapped_bind (staysMapped_readBackup k) fun v _ =>
      staysMapped_bind (staysMapped_memWrite hms.1 v) fun _ _ => ih hms.2 (k + 1)

section group
variable (h : tableOk c = true) {g : GroupDesc} (hg : g ∈ c.groups)
include h hg

theorem staysMapped_resolveTag (tag : Half) :
    StaysMappedWith c (fun t => mapped c t.field.bank t.field.reg = true) (resolveTag c g tag) := by
  unfold resolveTag
  split
  · exact staysMapped_failWith _
  · split
    · next hr => exact staysMapped_pure (resolve_mapped h hg hr)
    · exact staysMapped_failWith _
    · exact staysMapped_raiseFatal nofun

theorem staysMapped_muxBody (f : Nat) : StaysMapped c (muxBody c f g) := by
  unfold muxBody
  split
  · next hp =>
    have hm := mux_mapped h hg hp
    split
    · exact staysMapped_failWith _
    · split
      · exact staysMapped_raiseFatal nofun
      · exact staysMapped_bind (staysMapped_memRead hm) fun _ _ =>
          staysMapped_bind (staysMapped_regWrite hm _) fun _ _ => staysMapped_respond
  · exact staysMapped_failWith _

theorem staysMapped_setOne (e : ConfWord) : StaysMapped c (setOne c g e) :=
  staysMapped_bind (staysMapped_resolveTag h hg e.tag) fun t hm =>
    staysMapped_bind (staysMapped_lockGuard t.param hm _) fun _ _ => staysMapped_writeField hm _

theorem staysMapped_setEach (es : List ConfWord) : StaysMapped c (setEach c g es) := by
  induction es with
  | nil => exact staysMapped_pure trivial
  | cons e es ih => exact staysMapped_bind (staysMapped_setOne h hg e) fun _ _ => ih

theorem staysMapped_confSetGroup (es : List ConfWord) : StaysMapped c (confSetGroup c g es) :=
  staysMapped_bind (staysMapped_setEach h hg es) fun _ _ => staysMapped_respond

theorem staysMapped_dumpParams (ps : List Param) : StaysMapped c (dumpParams c g ps) := by
  induction ps with
  | nil => exact staysMapped_respond
  | cons p ps ih =>
    unfold dumpParams
    split
    · exact ih
    · exact staysMapped_raiseFatal nofun
    · next hr =>
      exact staysMapped_bind (staysMapped_readParam p (resolve_mapped h hg hr)) fun v _ =>
        staysMapped_bind (staysMapped_dumpNames g p v) fun _ _ =>
          staysMapped_bind ih fun _ _ => staysMapped_respond

theorem staysMapped_takeGpio : StaysMapped c (takeGpio g) := by
  unfold takeGpio
  split
  · next hp =>
    have hm := mux_mapped h hg (Bool.and_eq_true_iff.mp hp).1
    exact staysMapped_bind (staysMapped_memRead hm) fun _ _ =>
      staysMapped_bind (staysMapped_regWrite hm _) fun _ _ => staysMapped_respond
  · exact staysMapped_failWith _

/-- W7 gives a group with a mask the register that CLEAR_PARKED asks for. -/
theorem staysMapped_clearIfParked : StaysMapped c (clearIfParked g) := by
  unfold clearIfParked
  split
  · next hz =>
    obtain ⟨r, hr⟩ := parkedReg_some h hg hz
    unfold clearGroup
    simp only [hr]
    exact staysMapped_modify (parkedReg_mapped h hg hr) _
  · exact staysMapped_pure trivial

end group

section commands
variable (h : tableOk c = true)
include h

theorem staysMapped_applyMuxBody (n : Name) (f : Option Name) : StaysMapped c (applyMuxBody c n f) :=
  staysMapped_bind (staysMapped_namedGroup n) fun _ hg => by
    split
    · exact staysMapped_respond
    · exact staysMapped_bind (staysMapped_namedFunction _) fun _ _ => staysMapped_muxBody h hg _

theorem staysMapped_confGetBody (i : Nat) (tag : Half) : StaysMapped c (confGetBody c i tag) :=
  staysMapped_bind (staysMapped_groupAt i) fun _ hg =>
    staysMapped_bind (staysMapped_resolveTag h hg tag) fun t hm =>
      staysMapped_bind (staysMapped_readParam t.param hm) fun _ _ => staysMapped_respond

theorem staysMapped_saveBody (p : Nat) : StaysMapped c (saveBody c p) :=
  staysMapped_bind (staysMapped_singlePinGroup p) fun _ hg => by
    split
    · next hp =>
      exact staysMapped_bind (staysMapped_memRead (mux_mapped h hg hp)) fun v _ => staysMapped_savePin p v
    · exact staysMapped_pure trivial

theorem staysMapped_restoreBody (p : Nat) : StaysMapped c (restoreBody c p) :=
  staysMapped_bind (staysMapped_singlePinGroup p) fun _ hg => by
    split
    · next hp =>
      exact staysMapped_bind (staysMapped_savedPin p) fun v _ =>
        staysMapped_bind (staysMapped_regWrite (mux_mapped h hg hp) v) fun _ _ => staysMapped_respond
    · exact staysMapped_respond

theorem staysMapped_gpioRequestBody (p : Nat) : StaysMapped c (gpioRequestBody c p) :=
  staysMapped_bind (staysMapped_saveBody h p) fun _ _ => by
    split
    · exact staysMapped_bind (staysMapped_singlePinGroup p) fun _ hg => staysMapped_takeGpio h hg
    · exact staysMapped_respond

theorem staysMapped_clearGroups {gs : List GroupDesc} (hgs : ∀ g ∈ gs, g ∈ c.groups) :
    StaysMapped c (clearGroups gs) := by
  induction gs with
  | nil => exact staysMapped_pure trivial
  | cons g gs ih =>
    obtain ⟨hg, hgs'⟩ := List.forall_mem_cons.mp hgs
    exact staysMapped_bind (staysMapped_clearIfParked h hg) fun _ _ => ih hgs'

theorem staysMapped_resumeBody : StaysMapped c (resumeBody c) :=
  staysMapped_bind (staysMapped_refillWords (fun _ hx => cursor_mapped hx) 0) fun _ _ =>
    staysMapped_bind (staysMapped_memRead (origin_mapped h)) fun _ _ =>
      staysMapped_bind staysMapped_barrier fun _ _ => staysMapped_moveOn _

end commands

end bus

/-- Every command's body stays mapped on a checked table; INIT's needs no check, because it makes no access. -/
theorem staysMapped_instrBody {c : Chip} {i : Instr} (h : i ≠ .init → tableOk c = true) :
    StaysMapped c (instrBody c i) := by
  by_cases hi : i = .init
  · subst hi
    exact staysMapped_initBody
  have ht := h hi
  cases i with
  | init => exact absurd rfl hi
  | clearParked =>
    exact staysMapped_bind (staysMapped_clearGroups ht fun _ hg => hg) fun _ _ => staysMapped_moveOn _
  | groupCount => exact staysMapped_respond
  | groupName g => exact staysMapped_groupNameBody _
  | groupPins g => exact staysMapped_groupPinsBody _
  | functionCount => exact staysMapped_respond
  | functionName f => exact staysMapped_functionNameBody _
  | functionGroups f => exact staysMapped_functionGroupsBody _
  | setMux f g => exact staysMapped_bind (staysMapped_groupAt _) fun _ hg => staysMapped_muxBody ht hg _
  | confGet g p => exact staysMapped_confGetBody ht _ _
  | confSet g es => exact staysMapped_bind (staysMapped_groupAt _) fun _ hg => staysMapped_confSetGroup ht hg es
  | dumpGroup g => exact staysMapped_bind (staysMapped_groupAt _) fun _ hg => staysMapped_dumpParams ht hg _
  | applyMuxNamed n f => exact staysMapped_applyMuxBody ht n f
  | applyConfNamed n es => exact staysMapped_bind (staysMapped_namedGroup n) fun _ hg => staysMapped_confSetGroup ht hg es
  | saveConfig p => exact staysMapped_bind (staysMapped_saveBody ht _) fun _ _ => staysMapped_respond
  | restoreConfig p => exact staysMapped_restoreBody ht _
  | gpioRequestEnable p => exact staysMapped_gpioRequestBody ht _
  | gpioDisableFree p => exact staysMapped_restoreBody ht _
  | suspend =>
    exact staysMapped_bind (staysMapped_drainWords (fun _ hx => cursor_mapped hx) 0) fun _ _ => staysMapped_moveOn _
  | resume => exact staysMapped_resumeBody ht

/-- A body that stays mapped and leaves the latch empty does not make its command latch RegisterOutOfRange. -/
theorem conclude_fault_ne_registerOutOfRange {s : State} {x : M Reply} (hx : StaysMapped s.chip x)
    (hf : (endState (x s)).fault = none) : (conclude (x s)).fault ≠ some .registerOutOfRange := by
  rcases hx s rfl with ⟨r, t, he, -, -⟩ | ⟨e, t, he, hne⟩ <;> rw [he] at hf ⊢ <;>
    simp only [endState] at hf
  · simp [hf]
  · cases e with
    | failed st => simp [hf]
    | raised k d => simpa [hf] using hne k

/-- The first half of R57: an access to an unmapped location raises and touches nothing. -/
theorem access_unmapped {s : State} {b o : Int} (v : Word) (h : mapped s.chip b o = false) :
    memRead b o s = .error (.raised .fatal .registerOutOfRange) s ∧
      memWrite b o v s = .error (.raised .fatal .registerOutOfRange) s :=
  ⟨memRead_unmapped (by simp [h]), memWrite_unmapped (by simp [h])⟩

/-- The second half of R57: from a good state no command latches RegisterOutOfRange. -/
theorem exec_fault_ne_registerOutOfRange {i : Instr} {s t : State} (hs : s.Inv) (hf : s.fault = none)
    (he : exec i s = .next t) : t.fault ≠ some .registerOutOfRange := by
  rcases exec_cases he with ⟨-, rfl⟩ | ⟨-, -, -, rfl⟩ | ⟨-, -, rfl⟩ | ⟨-, ha, rfl⟩
  · simp [hf]
  · simp [hf]
  · simp [hf]
  · have ht : i ≠ .init → tableOk s.chip = true := fun hi => hs.table (initialised_of_accepts (op_ne_init hi) ha)
    have hlatch := ((latchUntouched_keptByBody i).instrBody_relates s).1
    exact conclude_fault_ne_registerOutOfRange (staysMapped_instrBody ht) (hlatch.trans hf)

/-- Settles O22: the primitives check first, and every register a body names is mapped by the checks of INIT. -/
theorem noUnmappedAccess : Obligations.NoUnmappedAccess :=
  ⟨fun _ _ _ v h => access_unmapped v h, fun _ _ _ hs hf he => exec_fault_ne_registerOutOfRange hs hf he⟩

end Sys2Proof.Machine
end

section
/-! PROOFS. The command encoding (30_encoding.md): the fields of CMD and of a packed word, the opcode map inverted,
what each format decoder accepts, and from these the round trips of `decode` and `encode`. -/

namespace Sys2Proof

open Machine (find?_unique eq_of_map_nodup)
open Laws.Lengths (auxField_cmdWord)

/-! ### The fields of CMD and of a packed word (R81, R85) -/

@[simp] theorem opField_cmdWord (op : Op) (aux : Byte) (idx : Half) : opField (cmdWord op aux idx) = op.code := by
  unfold opField cmdWord
  rw [BitVec.extractLsb'_append_eq_of_le (by decide)]
  exact BitVec.extractLsb'_append_eq_left

@[simp] theorem idxField_cmdWord (op : Op) (aux : Byte) (idx : Half) : idxField (cmdWord op aux idx) = idx :=
  BitVec.extractLsb'_append_eq_right

/-- CMD is its three fields, no bit left over. -/
theorem cmdWord_of_fields {op : Op} {aux : Byte} {idx : Half} {w : Word} (ho : op.code = opField w)
    (ha : auxField w = aux) (hi : idxField w = idx) : cmdWord op aux idx = w := by
  subst ha hi
  unfold cmdWord auxField idxField
  rw [ho]
  unfold opField
  rw [BitVec.extractLsb'_append_extractLsb'_eq_extractLsb' (rfl : 24 = 16 + 8),
    BitVec.extractLsb'_append_extractLsb'_eq_extractLsb' (rfl : 16 = 0 + 16)]
  exact BitVec.extractLsb'_eq_self

@[simp] theorem unpack_pack (tag arg : Half) : unpack (pack tag arg) = ⟨tag, arg⟩ :=
  congrArg₂ ConfWord.mk BitVec.extractLsb'_append_eq_left BitVec.extractLsb'_append_eq_right

@[simp] theorem unpack_packed (p : ConfWord) : unpack p.packed = p := unpack_pack p.tag p.arg

@[simp] theorem packed_unpack (w : Word) : (unpack w).packed = w :=
  (BitVec.extractLsb'_append_extractLsb'_eq_extractLsb' rfl).trans BitVec.extractLsb'_eq_self

@[simp] theorem unpack_comp_packed : unpack ∘ ConfWord.packed = id := funext unpack_packed

@[simp] theorem packed_comp_unpack : ConfWord.packed ∘ unpack = id := funext packed_unpack

/-- The tag is the high half, as a number. -/
theorem pack_toNat (tag arg : Half) : (pack tag arg).toNat = tag.toNat * 65536 + arg.toNat := by
  unfold pack
  rw [BitVec.toNat_append, ← Nat.shiftLeft_add_eq_or_of_lt arg.isLt, Nat.shiftLeft_eq]

/-- Settles O6: PACK is the concatenation of two halves, which UNPACK extracts. -/
theorem packUnpackRoundTrip : Obligations.PackUnpackRoundTrip :=
  ⟨fun tag arg => ⟨unpack_pack tag arg, pack_toNat tag arg⟩, packed_unpack⟩

/-- Settles O1: the decoder evaluates on the fourteen literal tuples. -/
theorem specExampleWordsDecode : Obligations.SpecExampleWordsDecode := by
  unfold Obligations.SpecExampleWordsDecode
  decide

/-! ### The opcode map (R83) -/

theorem Op.mem_all (op : Op) : op ∈ Op.all := by cases op <;> decide

theorem Op.code_injective {op op' : Op} (h : op.code = op'.code) : op = op' :=
  eq_of_map_nodup (f := Op.code) (by decide) op.mem_all op'.mem_all h

/-- The map read backwards: an OP value names the opcode that has it as its code, when the chip has that opcode. -/
theorem Op.ofCode_eq_some_iff {d : Bool} {b : Byte} {op : Op} :
    Op.ofCode d b = some op ↔ op.code = b ∧ op.available d = true := by
  unfold Op.ofCode
  constructor
  · intro h
    simpa using List.find?_some h
  · rintro ⟨rfl, ha⟩
    exact find?_unique op.mem_all (by simp [ha]) fun op' _ h =>
      Op.code_injective (beq_iff_eq.mp (Bool.and_eq_true_iff.mp h).1)

theorem decode_of_ofCode {d : Bool} {c : Command} {op : Op} (h : Op.ofCode d (opField c.cmd) = some op) :
    decode d c = decodeOp op c := by
  unfold decode
  rw [h]

theorem decode_of_reserved {d : Bool} {c : Command} (h : Op.ofCode d (opField c.cmd) = none) :
    decode d c = .error .reservedOpcode := by
  unfold decode
  rw [h]

/-- A term has an encoding when its lists fit AUX and the chip has its opcode. -/
theorem wellFormed_iff {d : Bool} {i : Instr} :
    i.wellFormed d = true ↔ i.wellFormed true = true ∧ i.op.available d = true := by
  cases i <;> simp [Instr.wellFormed, Instr.op, Op.available]

/-! ### What each format accepts (R82, R90) -/

section formats
variable {c : Command} {j : Instr}

theorem decodeN_eq_ok_iff {i : Instr} : decodeN i c = .ok j ↔
    auxField c.cmd = 0#8 ∧ idxField c.cmd = 0#16 ∧ c.args = [] ∧ c.names = [] ∧ i = j := by
  simp [decodeN, ite_eq_iff]

theorem decodeI_eq_ok_iff {mk : Half → Instr} : decodeI mk c = .ok j ↔
    auxField c.cmd = 0#8 ∧ c.args = [] ∧ c.names = [] ∧ mk (idxField c.cmd) = j := by
  simp [decodeI, ite_eq_iff]

theorem decodeIA_eq_ok_iff {mk : Half → Word → Except DecodeError Instr} : decodeIA mk c = .ok j ↔
    auxField c.cmd = 0#8 ∧ c.names = [] ∧ ∃ w, c.args = [w] ∧ mk (idxField c.cmd) w = .ok j := by
  by_cases ha : auxField c.cmd = 0#8
  · rcases hw : c.args with _ | ⟨w, _ | ⟨w', ws⟩⟩ <;> simp [decodeIA, ha, hw, ite_eq_iff]
  · simp [decodeIA, ha]

theorem decodeSetMux_eq_ok_iff {g : Half} {w : Word} : decodeSetMux g w = .ok j ↔
    (unpack w).tag = 0 ∧ .setMux (unpack w).arg g = j := by
  simp [decodeSetMux, ite_eq_iff]

theorem decodeIL_eq_ok_iff {mk : Half → List ConfWord → Instr} : decodeIL mk c = .ok j ↔
    c.args.length = (auxField c.cmd).toNat ∧ c.names = [] ∧ mk (idxField c.cmd) (c.args.map unpack) = j := by
  simp [decodeIL, ite_eq_iff]

theorem decodeApplyMux_eq_ok_iff : decodeApplyMux c = .ok j ↔ idxField c.cmd = 0#16 ∧ c.args = [] ∧
    ((auxField c.cmd = 0#8 ∧ ∃ g, c.names = [g] ∧ .applyMuxNamed g none = j) ∨
      (auxField c.cmd = 1#8 ∧ ∃ g f, c.names = [g, f] ∧ .applyMuxNamed g (some f) = j)) := by
  by_cases h0 : auxField c.cmd = 0#8
  · rcases hn : c.names with _ | ⟨g, _ | ⟨f, _ | ⟨n, ns⟩⟩⟩ <;> simp [decodeApplyMux, h0, hn, ite_eq_iff]
  by_cases h1 : auxField c.cmd = 1#8
  · rcases hn : c.names with _ | ⟨g, _ | ⟨f, _ | ⟨n, ns⟩⟩⟩ <;> simp [decodeApplyMux, h1, hn, ite_eq_iff]
  · have hlt : 1 < (auxField c.cmd).toNat := by
      simp only [← BitVec.toNat_inj, BitVec.toNat_ofNat] at h0 h1
      omega
    simp [decodeApplyMux, h0, h1, hlt, ite_eq_iff]

theorem decodeApplyConf_eq_ok_iff : decodeApplyConf c = .ok j ↔ idxField c.cmd = 0#16 ∧
    c.args.length = (auxField c.cmd).toNat ∧
    ∃ g, c.names = [g] ∧ .applyConfNamed g (c.args.map unpack) = j := by
  rcases hn : c.names with _ | ⟨g, _ | ⟨n, ns⟩⟩ <;> simp [decodeApplyConf, hn, ite_eq_iff]

end formats

/-! ### The round trips (R82, R88, R90, R91) -/

theorem opField_encode (i : Instr) : opField (encode i).cmd = i.op.code := by
  cases i with
  | applyMuxNamed g f => cases f <;> exact opField_cmdWord ..
  | _ => exact opField_cmdWord ..

/-- AUX holds the length of a list that fits it (D16). -/
theorem auxField_listLength {es : List ConfWord} (h : es.length ≤ 255) (op : Op) (idx : Half) :
    (auxField (cmdWord op (BitVec.ofNat 8 es.length) idx)).toNat = es.length := by
  rw [auxField_cmdWord, BitVec.toNat_ofNat]
  omega

/-- An opcode's decoder reads back what the encoder placed. -/
theorem decodeOp_encode {i : Instr} (h : i.wellFormed true = true) : decodeOp i.op (encode i) = .ok i := by
  cases i with
  | init | clearParked | groupCount | functionCount | suspend | resume =>
    exact decodeN_eq_ok_iff.mpr ⟨auxField_cmdWord .., idxField_cmdWord .., rfl, rfl, rfl⟩
  | groupName n | groupPins n | functionName n | functionGroups n | dumpGroup n
  | saveConfig n | restoreConfig n | gpioRequestEnable n | gpioDisableFree n =>
    exact decodeI_eq_ok_iff.mpr ⟨auxField_cmdWord .., rfl, rfl, by simp [encode, Instr.op]⟩
  | setMux f g =>
    exact decodeIA_eq_ok_iff.mpr ⟨auxField_cmdWord .., rfl, _, rfl,
      decodeSetMux_eq_ok_iff.mpr (by simp [encode])⟩
  | confGet g p =>
    exact decodeIA_eq_ok_iff.mpr ⟨auxField_cmdWord .., rfl, _, rfl, by simp [encode, decodeConfGet]⟩
  | confSet g es =>
    have hl := auxField_listLength (of_decide_eq_true h) .confSet g
    exact decodeIL_eq_ok_iff.mpr ⟨by simp [encode, hl], rfl, by simp [encode]⟩
  | applyMuxNamed g f =>
    refine decodeApplyMux_eq_ok_iff.mpr ?_
    cases f <;> simp [encode, auxField_cmdWord]
  | applyConfNamed g es =>
    have hl := auxField_listLength (of_decide_eq_true h) .applyConfNamed 0#16
    exact decodeApplyConf_eq_ok_iff.mpr ⟨idxField_cmdWord .., by simp [encode, hl], g, rfl, by simp [encode]⟩

/-- Settles O2: OP selects the decoder of the instruction's own opcode, which reads each operand back. -/
theorem decodeOfEncode : Obligations.DecodeOfEncode := by
  intro d i h
  obtain ⟨hfit, havail⟩ := wellFormed_iff.mp h
  rw [decode_of_ofCode (Op.ofCode_eq_some_iff.mpr ⟨(opField_encode i).symm, havail⟩)]
  exact decodeOp_encode hfit

/-- What an opcode's decoder gives is an instruction of that opcode, and its encoding is the command read. -/
theorem encode_of_decodeOp {op : Op} {c : Command} {i : Instr} (hc : op.code = opField c.cmd)
    (h : decodeOp op c = .ok i) : i.op = op ∧ encode i = c ∧ i.wellFormed true = true := by
  obtain ⟨cmd, args, names⟩ := c
  have hcmd {aux idx} := cmdWord_of_fields (aux := aux) (idx := idx) hc
  have hlen : args.length = (auxField cmd).toNat →
      BitVec.ofNat 8 args.length = auxField cmd ∧ args.length ≤ 255 := fun hl => by
    have := (auxField cmd).isLt
    exact ⟨by simp [hl], by omega⟩
  cases op with
  | init | clearParked | groupCount | functionCount | suspend | resume =>
    obtain ⟨ha, hi, rfl, rfl, rfl⟩ := decodeN_eq_ok_iff.mp h
    exact ⟨rfl, congrArg (Command.mk · [] []) (hcmd ha hi), rfl⟩
  | groupName | groupPins | functionName | functionGroups | dumpGroup
  | saveConfig | restoreConfig | gpioRequestEnable | gpioDisableFree =>
    obtain ⟨ha, rfl, rfl, rfl⟩ := decodeI_eq_ok_iff.mp h
    exact ⟨rfl, congrArg (Command.mk · [] []) (hcmd ha rfl), rfl⟩
  | setMux =>
    obtain ⟨ha, rfl, w, rfl, hw⟩ := decodeIA_eq_ok_iff.mp h
    obtain ⟨ht, rfl⟩ := decodeSetMux_eq_ok_iff.mp hw
    have hpack : pack 0 (unpack w).arg = w := ht ▸ packed_unpack w
    exact ⟨rfl, congrArg₂ (Command.mk · [·] []) (hcmd ha rfl) hpack, rfl⟩
  | confGet =>
    obtain ⟨ha, rfl, w, rfl, hw⟩ := decodeIA_eq_ok_iff.mp h
    cases hw
    exact ⟨rfl, congrArg₂ (Command.mk · [·] []) (hcmd ha rfl) (packed_unpack w), rfl⟩
  | confSet =>
    obtain ⟨hl, rfl, rfl⟩ := decodeIL_eq_ok_iff.mp h
    obtain ⟨haux, hle⟩ := hlen hl
    exact ⟨rfl, by simp [encode, hcmd haux.symm rfl], by simp [Instr.wellFormed, hle]⟩
  | applyMuxNamed =>
    obtain ⟨hi, rfl, ⟨ha, g, rfl, rfl⟩ | ⟨ha, g, f, rfl, rfl⟩⟩ := decodeApplyMux_eq_ok_iff.mp h
    · exact ⟨rfl, congrArg (Command.mk · [] [g]) (hcmd ha hi), rfl⟩
    · exact ⟨rfl, congrArg (Command.mk · [] [g, f]) (hcmd ha hi), rfl⟩
  | applyConfNamed =>
    obtain ⟨hi, hl, g, rfl, rfl⟩ := decodeApplyConf_eq_ok_iff.mp h
    obtain ⟨haux, hle⟩ := hlen hl
    exact ⟨rfl, by simp [encode, hcmd haux.symm hi], by simp [Instr.wellFormed, hle]⟩

/-- Settles O3: OP names one opcode, and each field its decoder reads is where the encoder places it. -/
theorem encodeOfDecode : Obligations.EncodeOfDecode := by
  intro d c i h
  cases hop : Op.ofCode d (opField c.cmd) with
  | none => cases (decode_of_reserved hop).symm.trans h
  | some op =>
    obtain ⟨hc, havail⟩ := Op.ofCode_eq_some_iff.mp hop
    obtain ⟨rfl, henc, hfit⟩ := encode_of_decodeOp hc ((decode_of_ofCode hop).symm.trans h)
    exact ⟨henc, wellFormed_iff.mpr ⟨hfit, havail⟩⟩

/-! ### The decoder is total (R83, R88, R90) -/

/-- Settles O4: an OP value that named an opcode would be that opcode's code, and none lies in a reserved range. -/
theorem reservedOpcodesAreIllegal : Obligations.ReservedOpcodesAreIllegal := by
  intro d c n hn hres
  cases hop : Op.ofCode d (opField c.cmd) with
  | none => exact decode_of_reserved hop
  | some op =>
    obtain ⟨hc, havail⟩ := Op.ofCode_eq_some_iff.mp hop
    obtain rfl : n = op.code.toNat := by
      rw [hn, hc]
      rfl
    refine absurd hres ?_
    cases op with
    | dumpGroup =>
      cases d
      · cases havail
      · decide
    | _ => simp [Op.code]

/-- What R82 and R90 require of AUX, IDX, ARG and NAMEARG for an opcode of each format. -/
def FormatHolds (op : Op) (c : Command) : Prop :=
  match op.format with
  | .n => (auxField c.cmd).toNat = 0 ∧ (idxField c.cmd).toNat = 0 ∧ c.args.length = 0 ∧ c.names.length = 0
  | .i => (auxField c.cmd).toNat = 0 ∧ c.args.length = 0 ∧ c.names.length = 0
  | .ia => (auxField c.cmd).toNat = 0 ∧ c.args.length = 1 ∧ c.names.length = 0 ∧
      (op = .setMux → ∀ w ∈ c.args, (unpack w).tag = 0)
  | .il => c.args.length = (auxField c.cmd).toNat ∧ c.names.length = 0
  | .nm => (idxField c.cmd).toNat = 0 ∧
      (op = .applyMuxNamed → (auxField c.cmd).toNat ≤ 1 ∧ c.args.length = 0 ∧
        c.names.length = 1 + (auxField c.cmd).toNat) ∧
      (op = .applyConfNamed → c.args.length = (auxField c.cmd).toNat ∧ c.names.length = 1)

theorem decodeN_isOk_iff {i : Instr} {c : Command} : (∃ j, decodeN i c = .ok j) ↔
    (auxField c.cmd).toNat = 0 ∧ (idxField c.cmd).toNat = 0 ∧ c.args.length = 0 ∧ c.names.length = 0 := by
  simp [decodeN_eq_ok_iff, ← BitVec.toNat_inj]

theorem decodeI_isOk_iff {mk : Half → Instr} {c : Command} : (∃ j, decodeI mk c = .ok j) ↔
    (auxField c.cmd).toNat = 0 ∧ c.args.length = 0 ∧ c.names.length = 0 := by
  simp [decodeI_eq_ok_iff, ← BitVec.toNat_inj]

/-- AUX of APPLY_MUX_NAMED is the number of function names, at most one (R82). -/
theorem decodeApplyMux_isOk_iff {c : Command} : (∃ j, decodeApplyMux c = .ok j) ↔
    (idxField c.cmd).toNat = 0 ∧ (auxField c.cmd).toNat ≤ 1 ∧ c.args.length = 0 ∧
      c.names.length = 1 + (auxField c.cmd).toNat := by
  have haux : (auxField c.cmd).toNat ≤ 1 ↔ auxField c.cmd = 0#8 ∨ auxField c.cmd = 1#8 := by
    simp only [← BitVec.toNat_inj, BitVec.toNat_ofNat]
    omega
  rw [haux]
  by_cases h0 : auxField c.cmd = 0#8
  · simp [decodeApplyMux_eq_ok_iff, h0, ← BitVec.toNat_inj, List.length_eq_one_iff]
  · by_cases h1 : auxField c.cmd = 1#8
    · simp [decodeApplyMux_eq_ok_iff, h1, ← BitVec.toNat_inj, List.length_eq_two]
    · simp [decodeApplyMux_eq_ok_iff, h0, h1]

/-- The decoder of an opcode accepts exactly the commands for which its format holds. -/
theorem decodeOp_isOk_iff {op : Op} {c : Command} : (∃ i, decodeOp op c = .ok i) ↔ FormatHolds op c := by
  cases op with
  | init | clearParked | groupCount | functionCount | suspend | resume => exact decodeN_isOk_iff
  | groupName | groupPins | functionName | functionGroups | dumpGroup
  | saveConfig | restoreConfig | gpioRequestEnable | gpioDisableFree => exact decodeI_isOk_iff
  | setMux =>
    have haux : (auxField c.cmd).toNat = 0 ↔ auxField c.cmd = 0#8 := BitVec.toNat_inj (y := 0#8)
    rcases ha : c.args with _ | ⟨w, _ | ⟨w', ws⟩⟩ <;>
      simp [FormatHolds, Op.format, decodeOp, decodeIA_eq_ok_iff, decodeSetMux_eq_ok_iff, haux, ha]
  | confGet =>
    simp [FormatHolds, Op.format, decodeOp, decodeIA_eq_ok_iff, decodeConfGet, ← BitVec.toNat_inj,
      List.length_eq_one_iff, and_comm]
  | confSet => simp [FormatHolds, Op.format, decodeOp, decodeIL_eq_ok_iff]
  | applyMuxNamed => simp [FormatHolds, Op.format, decodeOp, decodeApplyMux_isOk_iff]
  | applyConfNamed =>
    simp [FormatHolds, Op.format, decodeOp, decodeApplyConf_eq_ok_iff, ← BitVec.toNat_inj, List.length_eq_one_iff]

/-- Settles O5: the opcode's decoder accepts exactly what its format requires, and what it gives encodes back. -/
theorem decodesIffFormatHolds : Obligations.DecodesIffFormatHolds := by
  rintro d cmd args names aux idx rfl rfl
  refine ⟨fun hop => ⟨_, decode_of_reserved (c := ⟨cmd, args, names⟩) hop⟩, fun op hop => ?_⟩
  change (FormatHolds op ⟨cmd, args, names⟩ → _) ∧ (¬ FormatHolds op ⟨cmd, args, names⟩ → _)
  rw [decode_of_ofCode (c := ⟨cmd, args, names⟩) hop, ← decodeOp_isOk_iff]
  refine ⟨fun ⟨i, hi⟩ => ?_, fun hno => ?_⟩
  · have hc : op.code = opField cmd := (Op.ofCode_eq_some_iff.mp hop).1
    obtain ⟨hio, henc, -⟩ := encode_of_decodeOp (c := ⟨cmd, args, names⟩) hc hi
    exact ⟨i, hi, hio, henc⟩
  · cases h : decodeOp op ⟨cmd, args, names⟩ with
    | ok i => exact absurd ⟨i, h⟩ hno
    | error e => exact ⟨e, rfl⟩

end Sys2Proof
end

section
/-! PROOFS. The responses 30_encoding.md asks for: every command has one, with lists only when it is OK (R86),
an illegal command's (R88), and that of a parameter the group does not have (R84, R125). -/

namespace Sys2Proof.Machine

/-- Every command ends in a next state (R206). -/
theorem exec_next (i : Instr) (s : State) : ∃ t, exec i s = .next t := by
  by_cases hd : i.op = .dumpGroup ∧ s.chip.hasDumpGroup = false
  · exact ⟨_, exec_dumpGroup_absent hd.1 hd.2⟩
  · rw [exec_eq_runCommand (by simpa using hd)]
    exact ⟨_, rfl⟩

/-- Of the responses a body can end in, only OK carries lists (R86). -/
theorem conclude_rsp_lists (x : EStateM.Result Stop State Reply) (h : (conclude x).rsp.status ≠ .ok) :
    (conclude x).rsp.words = [] ∧ (conclude x).rsp.names = [] := by
  rcases conclude_cases x with ⟨ws, ns, e⟩ | ⟨st, e⟩ | ⟨k, c, e⟩
  · exact absurd (by rw [e]; rfl) h
  · simp [e]
  · simp [e]

/-- Settles O13: a refused command is answered with empty lists, and an accepted one by what its body ends in. -/
theorem everyCommandResponds : Obligations.EveryCommandResponds := by
  intro i s
  obtain ⟨t, ht⟩ := exec_next i s
  refine ⟨t, ht, fun hst => ?_⟩
  rcases exec_cases ht with ⟨-, rfl⟩ | ⟨-, -, -, rfl⟩ | ⟨-, -, rfl⟩ | ⟨-, -, rfl⟩
  · exact ⟨rfl, rfl⟩
  · exact ⟨rfl, rfl⟩
  · exact ⟨rfl, rfl⟩
  · exact conclude_rsp_lists _ hst

section unsupported
variable {s : State} {g : GroupDesc} {w : ConfWord}
variable (h : Param.ofTag w.tag = none ∨ ∃ p, Param.ofTag w.tag = some p ∧ resolve s.chip g p = .unsupported)
include h

theorem exec_confGet_unsupported {x : Half} (hr : s.lc = .ready) (hg : s.chip.groups[x.toNat]? = some g) :
    exec (.confGet x w) s = .next (s.answer .unsupported) := by
  show runCommand .confGet _ s = _
  rw [runCommand_ready hr rfl]
  unfold confGetBody
  rw [bind_run_ok (groupAt_some hg), bind_run_error (resolveTag_unsupported h)]
  rfl

theorem confSetGroup_unsupported (es : List ConfWord) :
    confSetGroup s.chip g (w :: es) s = .error (.failed .unsupported) s :=
  confSetGroup_error (setEach_cons_error (setOne_unsupported h))

end unsupported

/-- Settles O41: Resolve stops each of the three commands at the entry's tag, before any bus access. -/
theorem unsupportedParameter : Obligations.UnsupportedParameter := by
  intro s x w es g i hs hr hg htag hi
  have h := htag.imp_left ofTag_none
  rcases hi with rfl | rfl | rfl
  · exact exec_confGet_unsupported h hr hg
  · rw [exec_confSet_run hr hg, confSetGroup_unsupported h]
    rfl
  · have hname := lookupGroup_self (hs.table (.inr (.inl hr))) (List.mem_of_getElem? hg)
    rw [exec_applyConf_run hr hname, confSetGroup_unsupported h]
    rfl

/-- Settles O8: outside FAULTED an illegal command loads the command registers and answers, nothing more. -/
theorem illegalCommandOnlyResponds : Obligations.IllegalCommandOnlyResponds := by
  intro s c rest e hh hd hf
  have hdel : stepDelivered ((s.afterMove rest).deliver c) = .next (illegalCommand ((s.afterMove rest).deliver c)) := by
    simp [stepDelivered, hd]
  unfold step
  rw [hh]
  exact hdel.trans (congrArg _ (illegalCommand_not_faulted hf))

end Sys2Proof.Machine
end

section
/-! PROOFS. The resolver (40_resolver.md): how an accepted command runs, the reverse index of R110 as a list of groups, and
the statements of the family, INIT's success (R112, R150) among them. -/

namespace Sys2Proof.Machine

/-! ### Accepted commands -/

theorem accepts_faulted (op : Op) : accepts op .faulted = false := by cases op <;> rfl

/-- A command that exists on the chip and is accepted runs its body (R180, R182). -/
theorem exec_accepted {i : Instr} {s : State} (hd : i.op = .dumpGroup → s.chip.hasDumpGroup = true)
    (ha : accepts i.op s.lc = true) : exec i s = .next (conclude (instrBody s.chip i s)) := by
  have hf : s.lc ≠ .faulted := fun h => by simp [h, accepts_faulted] at ha
  rw [exec_eq_runCommand hd, runCommand_accepted hf ha]

/-- A command that R182 accepts in READY and in SUSPENDED, as it does the table queries, runs its body in both. -/
theorem exec_query {i : Instr} {s : State} (hr : accepts i.op .ready = true) (hs : accepts i.op .suspended = true)
    (hl : s.lc = .ready ∨ s.lc = .suspended) : exec i s = .next (conclude (instrBody s.chip i s)) := by
  refine exec_accepted (fun hd => ?_) ?_
  · rw [hd] at hs
    cases hs
  · rcases hl with hl | hl <;> rwa [hl]

/-! ### The table queries -/

section queries
variable {c : Chip} {s : State} {i : Nat}

theorem groupNameBody_run {g : GroupDesc} (h : c.groups[i]? = some g) :
    groupNameBody c i s = .ok ⟨[], [g.name]⟩ s := bind_run_ok (groupAt_some h)

theorem groupPinsBody_run {g : GroupDesc} (h : c.groups[i]? = some g) :
    groupPinsBody c i s = .ok ⟨BitVec.ofNat 32 g.pins.length :: g.pins.map (BitVec.ofNat 32), []⟩ s :=
  bind_run_ok (groupAt_some h)

theorem functionNameBody_run {f : FunctionDesc} (h : c.funcs[i]? = some f) :
    functionNameBody c i s = .ok ⟨[], [f.name]⟩ s := bind_run_ok (functionAt_some h)

end queries

/-- Settles O27: each query is accepted in both states, and its body only looks the answer up. -/
theorem tableQueriesAnswer : Obligations.TableQueriesAnswer := by
  intro s x hl
  refine ⟨exec_query rfl rfl hl, exec_query rfl rfl hl, fun g hg => ⟨?_, ?_⟩, fun f hf => ?_⟩
  · rw [exec_query rfl rfl hl, instrBody, groupNameBody_run hg]
    rfl
  · rw [exec_query rfl rfl hl, instrBody, groupPinsBody_run hg]
    rfl
  · rw [exec_query rfl rfl hl, instrBody, functionNameBody_run hf]
    rfl

/-- Settles O29: the command is accepted, and the lookup that its body starts with raises. -/
theorem indexOutOfRangeRaises : Obligations.IndexOutOfRangeRaises := by
  intro s x i h
  suffices hi : exec i s = .next (conclude (instrBody s.chip i s)) ∧
      instrBody s.chip i s = .error (.raised .fatal .indexOutOfRange) s by
    obtain ⟨hrun, hbody⟩ := hi
    rw [hrun, hbody]
    rfl
  rcases h with ⟨hl, hg, ⟨f, rfl⟩ | ⟨p, rfl⟩ | ⟨es, rfl⟩ | ⟨rfl, hd⟩⟩ |
    ⟨hl, ⟨hg, rfl | rfl⟩ | ⟨hf, rfl | rfl⟩⟩
  · exact ⟨exec_accepted nofun (by rw [hl]; rfl), bind_run_error (groupAt_none hg)⟩
  · exact ⟨exec_accepted nofun (by rw [hl]; rfl), bind_run_error (groupAt_none hg)⟩
  · exact ⟨exec_accepted nofun (by rw [hl]; rfl), bind_run_error (groupAt_none hg)⟩
  · exact ⟨exec_accepted (fun _ => hd) (by rw [hl]; rfl), bind_run_error (groupAt_none hg)⟩
  · exact ⟨exec_query rfl rfl hl, bind_run_error (groupAt_none hg)⟩
  · exact ⟨exec_query rfl rfl hl, bind_run_error (groupAt_none hg)⟩
  · exact ⟨exec_query rfl rfl hl, bind_run_error (functionAt_none hf)⟩
  · exact ⟨exec_query rfl rfl hl, bind_run_error (functionAt_none hf)⟩

/-! ### The reverse index -/

section index
variable {c : Chip} {f : Nat}

theorem offers_iff {g : GroupDesc} : offers g f = true ↔ fieldPresent g.mux = true ∧
    (g.funcs.slot0 = some f ∨ g.funcs.slot1 = some f ∨ g.funcs.slot2 = some f ∨ g.funcs.slot3 = some f) := by
  simp [offers, slotList, eq_comm (a := some f)]

/-- The index asks of an id whether there is a group with it that offers the function (R110). -/
theorem offeringGroups_eq_filter (c : Chip) (f : Nat) : offeringGroups c f =
    (List.range c.groups.length).filter ((Option.any fun g => offers g f) ∘ fun i => c.groups[i]?) :=
  List.filter_congr fun i _ => by cases h : c.groups[i]? <;> simp [h]

theorem mem_offeringGroups_iff {i : Nat} :
    i ∈ offeringGroups c f ↔ ∃ g, c.groups[i]? = some g ∧ offers g f = true := by
  simp only [offeringGroups_eq_filter, List.mem_filter, List.mem_range, Function.comp_apply, Option.any_eq_true,
    and_iff_right_iff_imp]
  rintro ⟨g, hg, -⟩
  exact (List.getElem?_eq_some_iff.mp hg).1

theorem offeringGroups_pairwise (c : Chip) (f : Nat) : (offeringGroups c f).Pairwise (· < ·) :=
  List.pairwise_lt_range.filter _

/-- Looked up in the table, the ids of the index are the groups that offer the function, in table order. -/
theorem offeringGroups_map_getElem? (c : Chip) (f : Nat) :
    (offeringGroups c f).map (fun i => c.groups[i]?) = (c.groups.filter fun g => offers g f).map some := by
  have hrange : (List.range c.groups.length).map (fun i => c.groups[i]?) = c.groups.map some :=
    List.ext_getElem (by simp) (by simp)
  rw [offeringGroups_eq_filter, ← List.filter_map, hrange, List.filter_map]
  rfl

theorem reverseIndex_getElem? (h : f < c.funcs.length) : (reverseIndex c)[f]? = some (offeringGroups c f) := by
  simp [reverseIndex, h]

theorem readIndex_some {s : State} {gs : List Nat} (h : s.fg[f]? = some gs) : readIndex f s = .ok gs s := by
  unfold readIndex
  rw [h]

/-- Ids that the table resolves to the groups `gs` give the names of `gs`. -/
theorem groupNames_run {s : State} {is : List Nat} {gs : List GroupDesc}
    (h : is.map (fun i => c.groups[i]?) = gs.map some) : groupNames c is s = .ok (gs.map GroupDesc.name) s := by
  induction is generalizing gs with
  | nil =>
    cases gs with
    | nil => rfl
    | cons g gs => cases h
  | cons i is ih =>
    cases gs with
    | nil => cases h
    | cons g gs =>
      obtain ⟨hi, his⟩ := List.cons_eq_cons.mp h
      unfold groupNames
      rw [bind_run_ok (groupAt_some hi), bind_run_ok (ih his)]
      rfl

/-- FUNCTION_GROUPS on the reverse index of the table (R106). -/
theorem functionGroupsBody_run {s : State} (hfg : s.fg = reverseIndex c) (hf : f < c.funcs.length) :
    functionGroupsBody c f s = .ok ⟨[BitVec.ofNat 32 (c.groups.filter fun g => offers g f).length],
      (c.groups.filter fun g => offers g f).map GroupDesc.name⟩ s := by
  have hgroups := offeringGroups_map_getElem? c f
  have hlength : (offeringGroups c f).length = (c.groups.filter fun g => offers g f).length := by
    simpa using congrArg List.length hgroups
  have hindex : readIndex f s = .ok (offeringGroups c f) s := readIndex_some (hfg ▸ reverseIndex_getElem? hf)
  unfold functionGroupsBody
  rw [bind_run_ok (functionAt_some (List.getElem?_eq_getElem hf)), bind_run_ok hindex,
    bind_run_ok (groupNames_run hgroups), hlength]
  rfl

end index

/-- Settles O28: the invariant gives the reverse index, whose ids resolve to the groups that offer the function. -/
theorem functionGroupsAnswers : Obligations.FunctionGroupsAnswers := by
  intro s x hs hl hx
  refine ⟨_, rfl, ?_⟩
  rw [exec_query rfl rfl hl, instrBody, functionGroupsBody_run (hs.index (.inr hl)) hx]
  rfl

/-! ### INIT -/

/-- Settles O31: a table of W1 to W9 passes the checks, and BuildFG cannot break the bound of R112. -/
theorem initSucceeds : Obligations.InitSucceeds := by
  intro s hl hw
  rw [exec_accepted (i := .init) nofun (by rw [hl]; rfl), instrBody,
    initBody_run_of_tableOk (tableOk_iff_wellFormed.mpr hw)]
  rfl

/-- An INIT that answers OK has checked the table and completed (R150). -/
theorem exec_init_ok {s t : State} (he : exec .init s = .next t) (hok : t.rsp.status = .ok) :
    t = s.afterInit.replied [] [] := by
  rcases exec_cases he with ⟨-, rfl⟩ | ⟨-, hd, -, -⟩ | ⟨-, -, rfl⟩ | ⟨-, -, rfl⟩
  · cases hok
  · cases hd
  · cases hok
  · rw [instrBody] at hok ⊢
    by_cases ht : tableOk s.chip = true
    · rw [initBody_run_of_tableOk ht]
      rfl
    · rw [initBody_run_of_not_tableOk ht] at hok
      cases hok

/-- Settles O30: FG is the reverse index of the table, an ascending filter of the group ids. -/
theorem reverseIndexIsExact : Obligations.ReverseIndexIsExact := by
  intro s t he hok f hf
  rw [exec_init_ok he hok]
  refine ⟨offeringGroups s.chip f, reverseIndex_getElem? hf, offeringGroups_pairwise _ _, fun g => ?_⟩
  simp only [mem_offeringGroups_iff, offers_iff]

end Sys2Proof.Machine
end

section
/-! PROOFS. The mux selector (41_mux.md): which slot holds a function, the state a SET_MUX that passes its checks
ends in, its failures, the word read back, and the statements of the family. -/

namespace Sys2Proof.Machine

/-! ### Function slots -/

section slots
variable {s : Slots} {f k : Nat}

theorem slotAt_eq_some_iff : slotAt s k = some f ↔ (slotList s)[k]? = some (some f) := by
  simp [slotAt, List.getD_eq_getElem?_getD, Option.getD_eq_iff]

theorem slotAt_lt (h : slotAt s k = some f) : k < 4 :=
  (List.getElem?_eq_some_iff.mp (slotAt_eq_some_iff.mp h)).1

/-- R121 step 2 and D23, in the statements' words: the slot holds the function and no lower one does. -/
theorem slotOf_eq_some_iff :
    slotOf s f = some k ↔ slotAt s k = some f ∧ ∀ j, j < k → slotAt s j ≠ some f := by
  simp only [slotOf, List.findIdx?_eq_some_iff_getElem, beq_iff_eq, slotAt_eq_some_iff, List.getElem?_eq_some_iff,
    ne_eq]
  constructor
  · rintro ⟨hk, he, hlow⟩
    exact ⟨⟨hk, he⟩, fun j hj ⟨_, hj'⟩ => hlow j hj hj'⟩
  · rintro ⟨⟨hk, he⟩, hlow⟩
    exact ⟨hk, he, fun j hj hj' => hlow j hj ⟨_, hj'⟩⟩

theorem slotOf_eq_none_iff : slotOf s f = none ↔ ∀ j, j < 4 → slotAt s j ≠ some f := by
  simp only [slotOf, List.findIdx?_eq_none_iff, ne_eq, slotAt_eq_some_iff]
  constructor
  · intro h j _ hj
    simpa using h _ (List.mem_of_getElem? hj)
  · intro h a ha
    obtain ⟨j, hj, rfl⟩ := List.getElem_of_mem ha
    simpa [List.getElem?_eq_getElem hj] using h j hj

end slots

/-! ### MuxBody -/

/-- What MuxBody checks before it touches the bus: a mux field, the lowest slot holding the function, and a select bit
where the chip drives it (R121, R123). -/
structure Selectable (c : Chip) (g : GroupDesc) (f slot : Nat) : Prop where
  mux : fieldPresent g.mux = true
  slot : slotOf g.funcs f = some slot
  select : c.sfselInMux = true → bitPresent g.sfsel = true

/-- The state MuxBody ends in: the mux register updated with R121's word. -/
def State.selected (s : State) (g : GroupDesc) (slot : Nat) : State :=
  s.updated g.mux.bank g.mux.reg (muxWord s.chip g slot (bankAnswer s g.mux.bank.toNat g.mux.reg.toNat))

section muxBody
variable {c : Chip} {s : State} {g : GroupDesc} {f slot : Nat}

theorem Selectable.slot_lt (h : Selectable c g f slot) : slot < 4 := slotAt_lt (slotOf_eq_some_iff.mp h.slot).1

theorem muxBody_selected (h : Selectable s.chip g f slot) (hm : mapped s.chip g.mux.bank g.mux.reg = true) :
    muxBody s.chip f g s = .ok ⟨[], []⟩ (s.selected g slot) :=
  muxBody_run h.mux h.slot h.select hm

theorem muxBody_noMux (hp : fieldPresent g.mux = false) : muxBody c f g s = .error (.failed .unsupported) s := by
  unfold muxBody
  rw [if_neg (by simp [hp])]
  rfl

theorem muxBody_noSlot (hp : fieldPresent g.mux = true) (hs : slotOf g.funcs f = none) :
    muxBody c f g s = .error (.failed .invalidArgument) s := by
  unfold muxBody
  rw [if_pos hp, hs]
  rfl

theorem muxBody_noSelect (hp : fieldPresent g.mux = true) (hs : slotOf g.funcs f = some slot)
    (hc : c.sfselInMux = true) (hb : bitPresent g.sfsel = false) :
    muxBody c f g s = .error (.raised .fatal .malformedTable) s := by
  unfold muxBody
  rw [if_pos hp, hs]
  simp [hc, hb]

/-- A MuxBody that answers OK has passed its checks. -/
theorem selectable_of_muxBody_ok (hok : (conclude (muxBody c f g s)).rsp.status = .ok) :
    ∃ slot, Selectable c g f slot := by
  cases hp : fieldPresent g.mux with
  | false =>
    rw [muxBody_noMux hp] at hok
    cases hok
  | true =>
    cases hs : slotOf g.funcs f with
    | none =>
      rw [muxBody_noSlot hp hs] at hok
      cases hok
    | some slot =>
      refine ⟨slot, hp, hs, fun hc => ?_⟩
      by_contra hb
      rw [muxBody_noSelect hp hs hc (by simpa using hb)] at hok
      cases hok

end muxBody

/-! ### The commands -/

section commands
variable {s t : State} {g : GroupDesc} {f x : Half}

theorem mux_mapped_of_inv (hs : s.Inv) (hl : s.lc = .ready) (hg : s.chip.groups[x.toNat]? = some g)
    (hp : fieldPresent g.mux = true) : mapped s.chip g.mux.bank g.mux.reg = true :=
  mux_mapped (hs.table (.inr (.inl hl))) (List.mem_of_getElem? hg) hp

/-- SET_MUX of a known group runs MuxBody. -/
theorem exec_setMux_ready (hl : s.lc = .ready) (hg : s.chip.groups[x.toNat]? = some g) :
    exec (.setMux f x) s = .next (conclude (muxBody s.chip f.toNat g s)) := by
  rw [exec_accepted (i := .setMux f x) nofun (by rw [hl]; rfl), instrBody, setMuxBody, bind_run_ok (groupAt_some hg)]

/-- APPLY_MUX_NAMED of known names runs MuxBody (R134). -/
theorem exec_applyMux_ready {n m : Name} {i : Nat} (hl : s.lc = .ready) (hn : lookupGroup s.chip n = some g)
    (hm : lookupFunction s.chip m = some i) :
    exec (.applyMuxNamed n (some m)) s = .next (conclude (muxBody s.chip i g s)) := by
  rw [exec_accepted (i := .applyMuxNamed n (some m)) nofun (by rw [hl]; rfl), instrBody, applyMuxBody, namedGroup, hn]
  show Host.Outcome.next (conclude ((namedFunction s.chip m >>= fun f => muxBody s.chip f g) s)) = _
  rw [namedFunction, hm]
  rfl

/-- SET_MUX where its checks pass (R121). -/
theorem exec_setMux_selected {slot : Nat} (hs : s.Inv) (hl : s.lc = .ready)
    (hg : s.chip.groups[x.toNat]? = some g) (h : Selectable s.chip g f.toNat slot) :
    exec (.setMux f x) s = .next ((s.selected g slot).replied [] []) := by
  rw [exec_setMux_ready hl hg, muxBody_selected h (mux_mapped_of_inv hs hl hg h.mux)]
  rfl

/-- A SET_MUX that answers OK was accepted in READY and passed its checks. -/
theorem exec_setMux_ok (hs : s.Inv) (hg : s.chip.groups[x.toNat]? = some g) (he : exec (.setMux f x) s = .next t)
    (hok : t.rsp.status = .ok) :
    s.lc = .ready ∧ ∃ slot, Selectable s.chip g f.toNat slot ∧ t = (s.selected g slot).replied [] [] := by
  have hl : s.lc = .ready := by
    rcases exec_cases he with ⟨-, rfl⟩ | ⟨-, hd, -, -⟩ | ⟨-, -, rfl⟩ | ⟨-, ha, -⟩
    · cases hok
    · cases hd
    · cases hok
    · exact of_decide_eq_true ha
  have ht : conclude (muxBody s.chip f.toNat g s) = t := by
    rw [exec_setMux_ready hl hg] at he
    injection he
  obtain ⟨slot, hsel⟩ := selectable_of_muxBody_ok (ht ▸ hok)
  refine ⟨hl, slot, hsel, ?_⟩
  rw [exec_setMux_selected hs hl hg hsel] at he
  injection he with he
  exact he.symm

end commands

/-- Settles O35: both commands run MuxBody on the group, which updates one register with a word known bit by bit. -/
theorem setMuxSelectsFunction : Obligations.SetMuxSelectsFunction := by
  intro s f x g slot i hs hl hg hi hp hslot hlow hsel
  have htable := hs.table (.inr (.inl hl))
  have hrun : exec i s = .next (conclude (muxBody s.chip f.toNat g s)) := by
    rcases hi with rfl | ⟨d, hd, rfl⟩
    · exact exec_setMux_ready hl hg
    · exact exec_applyMux_ready hl (lookupGroup_self htable (List.mem_of_getElem? hg)) (lookupFunction_self htable hd)
  have h : Selectable s.chip g f.toNat slot := ⟨hp, slotOf_eq_some_iff.mpr ⟨hslot, hlow⟩, hsel⟩
  rw [muxBody_selected h (mux_mapped_of_inv hs hl hg hp)] at hrun
  exact ⟨_, _, _, hrun, wroteRegister_updated _ _ _ _ hs.bankWf, fun hst => bankAnswer_wordAt hst _ _,
    fun k hk => muxWord_getLsbD _ _ _ h.slot_lt hk⟩

/-- Settles O36: each failing check ends MuxBody before its first bus access. -/
theorem setMuxFailures : Obligations.SetMuxFailures := by
  intro s f x g hl hg
  refine ⟨fun hp => ?_, fun hp hnone => ?_, fun hp ⟨k, hk, hslot⟩ hc hb => ?_⟩
  · rw [exec_setMux_ready hl hg, muxBody_noMux hp]
    rfl
  · rw [exec_setMux_ready hl hg, muxBody_noSlot hp (slotOf_eq_none_iff.mpr hnone)]
    rfl
  · have hsome : slotOf g.funcs f.toNat ≠ none := fun h => slotOf_eq_none_iff.mp h k hk hslot
    obtain ⟨slot, hs⟩ := Option.ne_none_iff_exists'.mp hsome
    rw [exec_setMux_ready hl hg, muxBody_noSelect hp hs hc hb]
    rfl

/-! ### The word written, read again -/

section word
variable {c : Chip} {g : GroupDesc} {slot : Nat} (v : Word)

theorem muxWord_idem (h : slot < 4) : muxWord c g slot (muxWord c g slot v) = muxWord c g slot v := by
  apply BitVec.eq_of_getLsbD_eq
  intro k hk
  rw [muxWord_getLsbD c g _ h hk, muxWord_getLsbD c g v h hk]
  split
  · rfl
  · split <;> rfl

/-- The mux field of the word SET_MUX writes is the slot, unless the select bit is laid over the field (R124). -/
theorem fieldGet_muxWord (h : slot < 4) (hpos : g.mux.bit.toNat + 2 ≤ 32)
    (hout : c.sfselInMux = true → g.sfsel.bit.toNat < g.mux.bit.toNat ∨ g.mux.bit.toNat + 2 ≤ g.sfsel.bit.toNat) :
    (fieldGet (muxWord c g slot v) g.mux.bit.toNat 2).toNat = slot := by
  apply Nat.eq_of_testBit_eq
  intro k
  rw [BitVec.testBit_toNat, fieldGet_getLsbD _ (by decide)]
  by_cases hk : k < 2
  · have hne : ¬ (c.sfselInMux = true ∧ g.mux.bit.toNat + k = g.sfsel.bit.toNat) := fun ⟨hc, he⟩ => by
      have := hout hc
      omega
    rw [muxWord_getLsbD c g v h (by omega), if_neg hne, if_pos (by omega)]
    simp [hk]
  · have : slot < 2 ^ k := lt_of_lt_of_le h (Nat.pow_le_pow_right (n := 2) (by decide) (show 2 ≤ k by omega))
    simp [hk, Nat.testBit_lt_two_pow this]

end word

/-- The mux field of a table that passes W3 and W4 lies within its word. -/
theorem mux_position {c : Chip} {g : GroupDesc} (h : tableOk c = true) (hg : g ∈ c.groups)
    (hp : fieldPresent g.mux = true) : 0 ≤ g.mux.bit ∧ g.mux.bit.toNat + 2 ≤ 32 := by
  have hw := mux_width h hg hp
  obtain ⟨-, -, hpos⟩ := field_position h hg (f := g.mux) (by simp [rawFields]) hp
  have hbit : 0 ≤ g.mux.bit := of_decide_eq_true (Bool.and_eq_true_iff.mp hp).2
  omega

@[simp] theorem replied_wordAt (s : State) (ws : List Word) (ns : List Name) (b o : Int) :
    (s.replied ws ns).wordAt b o = s.wordAt b o := rfl

@[simp] theorem replied_currentSlot (s : State) (ws : List Word) (ns : List Name) (g : GroupDesc) :
    (s.replied ws ns).currentSlot g = s.currentSlot g := rfl

theorem selected_wordAt {s : State} {g : GroupDesc} {slot : Nat} (hs : s.Inv) :
    (s.selected g slot).wordAt g.mux.bank g.mux.reg =
      muxWord s.chip g slot (bankAnswer s g.mux.bank.toNat g.mux.reg.toNat) :=
  updated_wordAt _ _ _ _ hs.bankWf

theorem selected_trace (s : State) (g : GroupDesc) (slot : Nat) : ∃ v v' back, (s.selected g slot).trace = s.trace ++
    [.read g.mux.bank.toNat g.mux.reg.toNat v, .write g.mux.bank.toNat g.mux.reg.toNat v',
      .read g.mux.bank.toNat g.mux.reg.toNat back] :=
  ⟨_, _, updated_trace s g.mux.bank g.mux.reg _⟩

/-- Settles O37: the checks depend on the table alone, and R121's word put on itself is itself. -/
theorem setMuxIdempotent : Obligations.SetMuxIdempotent := by
  intro s t m f x g hs hm hst hg he hok hchip hl hword
  obtain ⟨-, slot, hsel, rfl⟩ := exec_setMux_ok hs hg he hok
  rw [replied_wordAt, selected_wordAt hs] at hword ⊢
  have hrun := exec_setMux_selected hm hl (hchip ▸ hg) (hchip ▸ hsel)
  have hread : bankAnswer m g.mux.bank.toNat g.mux.reg.toNat =
      muxWord s.chip g slot (bankAnswer s g.mux.bank.toNat g.mux.reg.toNat) :=
    (bankAnswer_wordAt (hchip ▸ hst) _ _).trans hword
  refine ⟨_, hrun, rfl, ?_, selected_trace m g slot⟩
  rw [replied_wordAt, selected_wordAt hm, hread, hchip, muxWord_idem _ hsel.slot_lt]

/-! ### The slot, read back -/

section function
variable {c : Chip} {s : State} {g : GroupDesc} {slot : Nat}

theorem resolve_function (hp : fieldPresent g.mux = true) :
    resolve c g .function = .field ⟨g.mux.bank, g.mux.reg, g.mux.bit.toNat, 2⟩ := if_pos hp

theorem selected_currentSlot (hs : s.Inv) (h : slot < 4) (hpos : g.mux.bit.toNat + 2 ≤ 32)
    (hout : s.chip.sfselInMux = true →
      g.sfsel.bit.toNat < g.mux.bit.toNat ∨ g.mux.bit.toNat + 2 ≤ g.sfsel.bit.toNat) :
    ((s.selected g slot).currentSlot g).toNat = slot := by
  rw [State.currentSlot, selected_wordAt hs, fieldGet_muxWord _ h hpos hout]

/-- CONF_GET of FUNCTION answers the current slot (R116, R127). -/
theorem exec_confGet_function {x : Half} (hst : s.chip.readModel = .storage) (hl : s.lc = .ready)
    (hg : s.chip.groups[x.toNat]? = some g) (hp : fieldPresent g.mux = true)
    (hm : mapped s.chip g.mux.bank g.mux.reg = true) :
    ∃ t, exec (.confGet x ⟨16, 0⟩) s = .next t ∧ t.rsp = ⟨.ok, [packValue .function (s.currentSlot g)], []⟩ := by
  refine ⟨_, exec_confGet_run hl hg (p := .function) rfl (resolve_function hp) hm, ?_⟩
  rw [bankAnswer_wordAt hst]
  rfl

end function

/-- Settles O38: the field of the word left in the register is the slot, which CONF_GET packs and the table maps to the
function. -/
theorem setMuxReadsBack : Obligations.SetMuxReadsBack := by
  intro s t f x g hs hst hg he hok hout
  obtain ⟨hl, slot, hsel, rfl⟩ := exec_setMux_ok hs hg he hok
  have hslot := slotOf_eq_some_iff.mp hsel.slot
  obtain ⟨hbit, hpos⟩ := mux_position (hs.table (.inr (.inl hl))) (List.mem_of_getElem? hg) hsel.mux
  have hcur : ((s.selected g slot).currentSlot g).toNat = slot :=
    selected_currentSlot hs hsel.slot_lt hpos fun hc => by
      have hsfsel : 0 ≤ g.sfsel.bit := of_decide_eq_true (hsel.select hc)
      have := hout hc
      omega
  have hpack : packValue .function ((s.selected g slot).currentSlot g) = BitVec.ofNat 32 (16 * 65536 + slot) := by
    have hlt := hsel.slot_lt
    apply BitVec.eq_of_toNat_eq
    rw [packValue_toNat _ (by omega), hcur, BitVec.toNat_ofNat, Nat.mod_eq_of_lt (by omega)]
    rfl
  obtain ⟨u, hu, hrsp⟩ := exec_confGet_function (s := (s.selected g slot).replied [] []) hst hl hg hsel.mux
    (mux_mapped_of_inv hs hl hg hsel.mux :)
  rw [replied_currentSlot, hpack] at hrsp
  exact ⟨(congrArg (slotAt g.funcs) hcur).trans hslot.1, u, slot, hslot.1, hslot.2, hu, hrsp⟩

/-! ### The owner -/

section owner
variable {s : State} {g : GroupDesc} {p : Nat}

/-- A pin's owner on a chip that drives the select bit is that bit of the mux word (R118). -/
theorem owner_of_select (hc : s.chip.sfselInMux = true) (hp : fieldPresent g.mux = true)
    (hb : bitPresent g.sfsel = true) :
    s.owner g = some (if (s.wordAt g.mux.bank g.mux.reg).getLsbD g.sfsel.bit.toNat then .sfio else .gpio) := by
  simp [State.owner, hc, hp, hb]

/-- A mux word put into the register decides the owner by its select bit (R117, R118). -/
theorem owner_updated (hw : Memory.wf s.bank = true) (w : Word) (hc : s.chip.sfselInMux = true)
    (hp : fieldPresent g.mux = true) (hb : bitPresent g.sfsel = true) :
    ((s.updated g.mux.bank g.mux.reg w).replied [] []).owner g =
      some (if w.getLsbD g.sfsel.bit.toNat then .sfio else .gpio) := by
  rw [owner_of_select (s := (s.updated g.mux.bank g.mux.reg w).replied [] []) hc hp hb, replied_wordAt,
    updated_wordAt _ _ _ _ hw]

/-- A select bit of a checked table is one of the 32 bits of a word (W3). -/
theorem select_lt {c : Chip} (h : tableOk c = true) (hg : g ∈ c.groups) (hb : bitPresent g.sfsel = true) :
    0 ≤ g.sfsel.bit ∧ g.sfsel.bit.toNat < 32 := by
  obtain ⟨h1, -, hpos⟩ := bit_position h hg (f := g.sfsel) (by simp [rawBits]) hb
  have hbit : 0 ≤ g.sfsel.bit := of_decide_eq_true hb
  omega

/-- The state after the mux word of a pin's group was saved (R140). -/
def State.muxSaved (s : State) (g : GroupDesc) (p : Nat) : State :=
  { s.afterRead g.mux.bank.toNat g.mux.reg.toNat with
    pinbak := s.pinbak.set p (bankAnswer s g.mux.bank.toNat g.mux.reg.toNat)
    pinsaved := s.pinsaved.set p true }

/-- The state GPIO_REQUEST_ENABLE ends in: the word saved, then the select bit cleared in the register (R142). -/
def State.gpioTaken (s : State) (g : GroupDesc) (p : Nat) : State :=
  (s.muxSaved g p).updated g.mux.bank g.mux.reg
    (bankAnswer (s.muxSaved g p) g.mux.bank.toNat g.mux.reg.toNat &&& ~~~(oneBit g.sfsel.bit.toNat))

theorem singlePinGroup_some {c : Chip} (h : findSinglePinGroup c p = some g) : singlePinGroup c p s = .ok g s := by
  unfold singlePinGroup
  rw [h]
  rfl

theorem gpioRequestBody_run (hf : findSinglePinGroup s.chip p = some g) (hc : s.chip.sfselInMux = true)
    (hp : fieldPresent g.mux = true) (hb : bitPresent g.sfsel = true)
    (hm : mapped s.chip g.mux.bank g.mux.reg = true) (hl : p < s.pinbak.length ∧ p < s.pinsaved.length) :
    gpioRequestBody s.chip p s = .ok ⟨[], []⟩ (s.gpioTaken g p) := by
  have hsave : saveBody s.chip p s = .ok () (s.muxSaved g p) := saveBody_mux hf hp hm hl
  unfold gpioRequestBody
  rw [bind_run_ok hsave, if_pos hc, bind_run_ok (singlePinGroup_some hf)]
  exact takeGpio_run (s := s.muxSaved g p) hp hb hm

/-- GPIO_REQUEST_ENABLE of the pin of a group with a select bit, on a chip that drives it (R142). -/
theorem exec_gpioRequest_taken {q : Half} (hs : s.Inv) (hl : s.lc = .ready) (hc : s.chip.sfselInMux = true)
    (hg : g ∈ s.chip.groups) (hp : fieldPresent g.mux = true) (hb : bitPresent g.sfsel = true)
    (hq : g.pins = [q.toNat]) :
    exec (.gpioRequestEnable q) s = .next ((s.gpioTaken g q.toNat).replied [] []) := by
  have htable := hs.table (.inr (.inl hl))
  have hpin : q.toNat < s.chip.pins := pin_lt htable hg (by simp [hq])
  rw [exec_accepted (i := .gpioRequestEnable q) nofun (by rw [hl]; rfl), instrBody,
    gpioRequestBody_run (findSinglePinGroup_self htable hg hq) hc hp hb (mux_mapped htable hg hp)
      ⟨hs.pinbakLength ▸ hpin, hs.pinsavedLength ▸ hpin⟩]
  rfl

/-- The state CONF_SET of FUNCTION ends in: the value put into the mux field (R129 step 6). -/
def State.functionPut (s : State) (g : GroupDesc) (v : Half) : State :=
  s.updated g.mux.bank g.mux.reg
    (fieldPut (bankAnswer s g.mux.bank.toNat g.mux.reg.toNat) g.mux.bit.toNat 2 (v.setWidth 32))

/-- FUNCTION's value goes to its 2-bit field as it is (R129 steps 2 and 4). -/
theorem hardwareValue_function (a : Word) : hardwareValue .function 2 a = a := by simp [hardwareValue]

/-- One CONF_SET entry for FUNCTION: its value is put into the mux field, or is too wide for it (R129). -/
theorem setOne_function (c : Chip) (v : Half) (hp : fieldPresent g.mux = true)
    (hm : mapped s.chip g.mux.bank g.mux.reg = true) :
    ((v.setWidth 32 : Word).toNat < 2 ^ 2 ∧ setOne c g ⟨16, v⟩ s = .ok () (s.functionPut g v)) ∨
      setOne c g ⟨16, v⟩ s = .error (.failed .invalidArgument) s := by
  have hval := hardwareValue_function (v.setWidth 32)
  have hres : resolve c g .function = .field ⟨g.mux.bank, g.mux.reg, g.mux.bit.toNat, 2⟩ := resolve_function hp
  have htag : Param.ofTag (⟨16, v⟩ : ConfWord).tag = some .function := rfl
  by_cases hv : (v.setWidth 32 : Word) >>> 2 = 0
  · have hlt : (v.setWidth 32 : Word).toNat < 2 ^ 2 := by
      have h := congrArg BitVec.toNat hv
      rw [BitVec.toNat_ushiftRight, Nat.shiftRight_eq_div_pow] at h
      exact Nat.lt_of_div_eq_zero (by decide) h
    have hrun := setOne_run htag hres (s := s) (lockGuard_other nofun) (hval.symm ▸ hv) hm
    rw [hval] at hrun
    exact .inl ⟨hlt, hrun⟩
  · exact .inr (setOne_tooWide htag hres (lockGuard_other nofun) (hval.symm ▸ hv))

/-- A CONF_SET of FUNCTION that answers OK has put a slot number into the mux field. -/
theorem exec_confSet_function_ok {t : State} {x v : Half} (hl : s.lc = .ready)
    (hg : s.chip.groups[x.toNat]? = some g) (hp : fieldPresent g.mux = true)
    (hm : mapped s.chip g.mux.bank g.mux.reg = true) (he : exec (.confSet x [⟨16, v⟩]) s = .next t)
    (hok : t.rsp.status = .ok) :
    (v.setWidth 32 : Word).toNat < 2 ^ 2 ∧ t = (s.functionPut g v).replied [] [] := by
  rw [exec_confSet_run hl hg] at he
  rcases setOne_function s.chip v hp hm with ⟨hv, hrun⟩ | hrun
  · rw [confSetGroup_ok ((setEach_cons_ok hrun).trans setEach_nil)] at he
    injection he with he
    exact ⟨hv, he.symm⟩
  · rw [confSetGroup_error (setEach_cons_error hrun)] at he
    injection he with he
    rw [← he] at hok
    cases hok

end owner

/-- Settles O39: each command writes the mux word with the select bit set, cleared, or outside the field it puts. -/
theorem ownershipTransitions : Obligations.OwnershipTransitions := by
  intro s t g x hs hl hst hc hg hp hb hok
  have htable := hs.table (.inr (.inl hl))
  have hmem := List.mem_of_getElem? hg
  obtain ⟨hbit, hlt⟩ := select_lt htable hmem hb
  refine ⟨fun f he => ?_, fun p hpin he => ?_, fun v hout he => ?_⟩
  · obtain ⟨-, slot, hsel, rfl⟩ := exec_setMux_ok hs hg he hok
    rw [State.selected, owner_updated hs.bankWf _ hc hp hb, muxWord_getLsbD _ _ _ hsel.slot_lt hlt]
    simp [hc]
  · rw [exec_gpioRequest_taken hs hl hc hmem hp hb hpin] at he
    injection he with he
    rw [← he, State.gpioTaken, owner_updated (s := s.muxSaved g p.toNat) hs.bankWf _ hc hp hb]
    simp [oneBit_getLsbD hlt]
  · obtain ⟨hv, rfl⟩ := exec_confSet_function_ok hl hg hp (mux_mapped htable hmem hp) he hok
    obtain ⟨hmux, -⟩ := mux_position htable hmem hp
    have hapart : ¬ (g.mux.bit.toNat ≤ g.sfsel.bit.toNat ∧ g.sfsel.bit.toNat < g.mux.bit.toNat + 2) := by omega
    rw [State.functionPut, owner_updated hs.bankWf _ hc hp hb, fieldPut_getLsbD _ _ (by decide) hv hlt, if_neg hapart,
      bankAnswer_wordAt hst, owner_of_select hc hp hb]

end Sys2Proof.Machine
end

section
/-! PROOFS. The parameter engine (42_config.md): where a resolved field lies, the value CONF_GET reads from it, the state one
entry of CONF_SET ends in, what a list of entries keeps, and the loop of DUMP_GROUP. -/

namespace Sys2Proof.Machine

/-! ### Resolved fields -/

section resolved
variable {c : Chip} {g : GroupDesc} {r : Resolved} (h : tableOk c = true) (hg : g ∈ c.groups)
include h hg

/-- W2 and W3 for whatever Resolve finds (R126). -/
theorem resolve_fits {p : Param} (hr : resolve c g p = .field r) :
    mapped c r.bank r.reg = true ∧ 1 ≤ r.width ∧ r.width ≤ 16 ∧ r.bit + r.width ≤ 32 := by
  cases p
  case highSpeedMode | schmitt | driveType => exact resolveDual_fits h hg (by simp [rawBits]) hr
  case function =>
    by_cases hp : fieldPresent g.mux = true
    · obtain rfl := Resolution.field.inj ((resolve_function hp).symm.trans hr)
      exact ⟨mux_mapped h hg hp, by simp, by simp, (mux_position h hg hp).2⟩
    · simp [resolve, hp] at hr
  all_goals exact resolveOwn_fits h hg (by simp [rawFields]) hr

/-- W4 for a single-bit component with its own register. -/
theorem resolveOwn_width_one {f : RawField} (hf : f ∈ [g.einput, g.odrain, g.lock, g.ioreset, g.rcvsel, g.padpwr])
    (hr : resolveOwn f = .field r) : r.width = 1 := by
  obtain ⟨hp, rfl⟩ := resolveOwn_field hr
  exact single_width h hg hf hp

/-- W4 for a single-bit dual-location component. -/
theorem resolveDual_width_one {f : RawBit} {m : Bool} (hf : f ∈ [g.sfsel, g.hsm, g.schmitt])
    (hr : resolveDual g f m = .field r) : r.width = 1 := by
  obtain ⟨l, -, hp, rfl⟩ := resolveDual_field hr
  exact single_bit_width h hg hf hp

/-- W4 for the parameters of one bit (R126). -/
theorem resolve_width_one {p : Param}
    (hp : p ∈ [Param.enableInput, .openDrain, .lock, .ioreset, .rcvSel, .highSpeedMode, .schmitt, .padPower])
    (hr : resolve c g p = .field r) : r.width = 1 := by
  cases p
  case highSpeedMode | schmitt => exact resolveDual_width_one h hg (by simp) hr
  case enableInput | openDrain | lock | ioreset | rcvSel | padPower => exact resolveOwn_width_one h hg (by simp) hr
  all_goals simp at hp

end resolved

/-- FUNCTION's field is two bits wide, in any table (R125). -/
theorem resolve_function_width {c : Chip} {g : GroupDesc} {r : Resolved} (hr : resolve c g .function = .field r) :
    r.width = 2 := by
  by_cases hp : fieldPresent g.mux = true
  · obtain rfl := Resolution.field.inj ((resolve_function hp).symm.trans hr)
    rfl
  · simp [resolve, hp] at hr

/-- Settles O33: the invariant gives the checked table, whose checks W2 to W4 Resolve carries to the field. -/
theorem resolvedFieldsFit : Obligations.ResolvedFieldsFit := by
  intro s g p r hs hi hg hr
  have htable := hs.table hi
  obtain ⟨hm, hlow, hhigh, hin⟩ := resolve_fits htable hg hr
  exact ⟨hm, hlow, hhigh, hin, fun hp => resolve_width_one htable hg hp hr,
    fun hp => resolve_function_width (hp ▸ hr)⟩

/-! ### CONF_GET -/

/-- What a parameter reads as in the word of its register (R127 steps 2 and 3). -/
def paramValue (p : Param) (r : Resolved) (v : Word) : Word := softwareValue p (fieldGet v r.bit r.width)

theorem paramValue_toNat {p : Param} {r : Resolved} (v : Word) (hp : p ≠ .padPower) (hw : r.width ≤ 16) :
    (paramValue p r v).toNat = v.toNat / 2 ^ r.bit % 2 ^ r.width := by
  rw [paramValue, softwareValue, if_neg hp, fieldGet_toNat v hw]

theorem paramValue_padPower {r : Resolved} (v : Word) (hw : r.width = 1) :
    paramValue .padPower r v = if v.getLsbD r.bit then 0 else 1 := by
  rw [paramValue, hw, fieldGet_one]
  cases v.getLsbD r.bit <;> rfl

/-- A value read fits the argument half of a packed word (R127). -/
theorem paramValue_lt {p : Param} {r : Resolved} (v : Word) (hw : r.width ≤ 16) :
    (paramValue p r v).toNat < 65536 := by
  by_cases hp : p = .padPower
  · rw [paramValue, softwareValue, if_pos hp, logicalNot]
    split <;> decide
  · rw [paramValue_toNat v hp hw]
    exact lt_of_lt_of_le (Nat.mod_lt _ (Nat.two_pow_pos _)) (Nat.pow_le_pow_right (n := 2) (by decide) hw)

/-- PACK of a value that fits, as the word with that number (R85). -/
theorem packValue_eq_ofNat {p : Param} {t : Half} {v : Word} (hp : Param.ofTag t = some p) (hv : v.toNat < 65536) :
    packValue p v = BitVec.ofNat 32 (t.toNat * 65536 + v.toNat) := by
  rw [← ofTag_tag hp, ← packValue_toNat p hv, BitVec.ofNat_toNat, BitVec.setWidth_eq]

/-- The group a command in READY names is one of a checked table (R126). -/
theorem State.Inv.checkedGroup {s : State} {g : GroupDesc} {x : Half} (hs : s.Inv) (hl : s.lc = .ready)
    (hg : s.chip.groups[x.toNat]? = some g) : tableOk s.chip = true ∧ g ∈ s.chip.groups :=
  ⟨hs.table (.inr (.inl hl)), List.mem_of_getElem? hg⟩

/-- Settles O40: the body reads the field's register once and packs the value, which fits its half. -/
theorem confGetReadsField : Obligations.ConfGetReadsField := by
  intro s x w g p r hs hl hg hp hr
  obtain ⟨htable, hmem⟩ := hs.checkedGroup hl hg
  obtain ⟨hm, -, hw, -⟩ := resolve_fits htable hmem hr
  refine ⟨_, bankAnswer s r.bank.toNat r.reg.toNat, (paramValue p r (bankAnswer s r.bank.toNat r.reg.toNat)).toNat,
    exec_confGet_run hl hg hp hr hm, ?_, fun hst => bankAnswer_wordAt hst _ _, fun hne => paramValue_toNat _ hne hw,
    fun he => ?_⟩
  · rw [← packValue_eq_ofNat hp (paramValue_lt _ hw)]
    rfl
  · subst he
    rw [paramValue_padPower _ (resolve_width_one htable hmem (by simp) hr)]
    split <;> rfl

/-! ### One entry of CONF_SET -/

/-- The state after the lock check of an entry for `p`: LOCK reads its register once more (R129 step 3). -/
def State.guarded (s : State) (p : Param) (r : Resolved) : State :=
  if p = .lock then s.afterRead r.bank.toNat r.reg.toNat else s

/-- The word an entry puts its field into, read in the state its lock check leaves (R129 step 6). -/
def State.entryRead (s : State) (p : Param) (r : Resolved) : Word :=
  bankAnswer (s.guarded p r) r.bank.toNat r.reg.toNat

/-- The word an entry writes (R129 step 6). -/
def State.entryWord (s : State) (p : Param) (r : Resolved) (a : Half) : Word :=
  fieldPut (s.entryRead p r) r.bit r.width (hardwareValue p r.width (a.setWidth 32))

/-- The state an entry ends in when its checks pass (R129). -/
def State.entryPut (s : State) (p : Param) (r : Resolved) (a : Half) : State :=
  (s.guarded p r).updated r.bank r.reg (s.entryWord p r a)

/-- What SetOne checks of an entry whose parameter has a field: a set lock is not cleared, the value fits (R129
steps 3 and 5). -/
structure EntryPasses (s : State) (p : Param) (r : Resolved) (a : Half) : Prop where
  lock : p = .lock → (bankAnswer s r.bank.toNat r.reg.toNat).getLsbD r.bit = true → a ≠ 0
  fits : (hardwareValue p r.width (a.setWidth 32)).toNat < 2 ^ r.width

theorem OnlyBus.chip {s t : State} (h : OnlyBus s t) : t.chip = s.chip := by rw [h]

theorem OnlyBus.lc {s t : State} (h : OnlyBus s t) : t.lc = s.lc := by rw [h]

theorem OnlyBus.replied {s t : State} {ws : List Word} {ns : List Name} (h : OnlyBus s t) :
    OnlyBus s (t.replied ws ns) := congrArg (State.replied · ws ns) h

section guarded
variable (s : State) (p : Param) (r : Resolved)

theorem guarded_other {s : State} {p : Param} {r : Resolved} (hp : p ≠ .lock) : s.guarded p r = s := if_neg hp

theorem guarded_onlyBus : OnlyBus s (s.guarded p r) := by
  unfold State.guarded
  split <;> rfl

@[simp] theorem guarded_chip : (s.guarded p r).chip = s.chip := (guarded_onlyBus s p r).chip

@[simp] theorem guarded_bank : (s.guarded p r).bank = s.bank := by
  unfold State.guarded
  split <;> rfl

theorem entryRead_storage {s : State} (hst : s.chip.readModel = .storage) :
    s.entryRead p r = s.wordAt r.bank r.reg := by
  rw [State.entryRead, bankAnswer_wordAt (by rwa [guarded_chip]), State.wordAt, guarded_bank, State.wordAt]

end guarded

section entry
variable {s : State} {p : Param} {r : Resolved} {a : Half}

theorem hardwareValue_lt (hw : 1 ≤ r.width) (ha : r.width = 1 ∨ a.toNat < 2 ^ r.width) :
    (hardwareValue p r.width (a.setWidth 32)).toNat < 2 ^ r.width := by
  have htwo : 2 ^ 1 ≤ 2 ^ r.width := Nat.pow_le_pow_right (by decide) hw
  rw [hardwareValue_toNat]
  split
  · split <;> omega
  · split
    · split <;> omega
    · next hne => exact ha.resolve_left hne

theorem shift_eq_zero_iff {v : Word} {w : Nat} : v >>> w = 0 ↔ v.toNat < 2 ^ w := by
  refine ⟨fun h => ?_, shift_eq_zero⟩
  have hdiv := congrArg BitVec.toNat h
  rw [BitVec.toNat_ushiftRight, Nat.shiftRight_eq_div_pow] at hdiv
  exact Nat.lt_of_div_eq_zero (Nat.two_pow_pos w) hdiv

/-- The word written, bit by bit: the hardware value in the field, every other bit as read (R129 step 6). -/
theorem entryWord_getLsbD {k : Nat} (h : EntryPasses s p r a) (hw : r.width ≤ 16) (hk : k < 32) :
    (s.entryWord p r a).getLsbD k = if r.bit ≤ k ∧ k < r.bit + r.width then
        (if p = .padPower then (if a = 0 then 1 else 0)
          else if r.width = 1 then (if a = 0 then 0 else 1)
          else a.toNat).testBit (k - r.bit)
      else (s.entryRead p r).getLsbD k := by
  rw [State.entryWord, fieldPut_getLsbD _ _ hw h.fits hk, ← BitVec.testBit_toNat, hardwareValue_toNat]

/-- The bit a one-bit field takes (R131). -/
theorem entryWord_bit (h : EntryPasses s p r a) (hw : r.width = 1) (hb : r.bit < 32) :
    (s.entryWord p r a).getLsbD r.bit = if p = .padPower then decide (a = 0) else decide (a ≠ 0) := by
  rw [entryWord_getLsbD h (by omega) hb, if_pos (by omega), if_pos hw, Nat.sub_self]
  by_cases ha : a = 0#16 <;> by_cases hp : p = .padPower <;> simp [hp, ha]

theorem entryPut_wordAt (hwf : Memory.wf s.bank = true) :
    (s.entryPut p r a).wordAt r.bank r.reg = s.entryWord p r a :=
  updated_wordAt _ _ _ _ (by rwa [guarded_bank])

theorem entryPut_bytes : BytesKeptBut r.bank r.reg s (s.entryPut p r a) := by
  intro b hb
  rw [State.entryPut, updated_bytes _ _ _ _ b hb, guarded_bank]

theorem entryPut_onlyBus : OnlyBus s (s.entryPut p r a) := by
  unfold State.entryPut State.guarded
  split <;> rfl

@[simp] theorem entryPut_chip (s : State) (p : Param) (r : Resolved) (a : Half) : (s.entryPut p r a).chip = s.chip :=
  entryPut_onlyBus.chip

@[simp] theorem entryPut_lc (s : State) (p : Param) (r : Resolved) (a : Half) : (s.entryPut p r a).lc = s.lc :=
  entryPut_onlyBus.lc

theorem entryPut_wf (hwf : Memory.wf s.bank = true) : Memory.wf (s.entryPut p r a).bank = true := by
  rw [State.entryPut, State.updated_bank, guarded_bank]
  exact wf_writeWord _ _ hwf

/-- The lock check that passes, for any parameter (R129 step 3). -/
theorem lockGuard_run (hm : mapped s.chip r.bank r.reg = true)
    (h : p = .lock → (bankAnswer s r.bank.toNat r.reg.toNat).getLsbD r.bit = true → a ≠ 0) :
    lockGuard p r (a.setWidth 32) s = .ok () (s.guarded p r) := by
  by_cases hp : p = .lock
  · subst hp
    exact lockGuard_passes hm fun hb => mt arg_eq_zero.mp (h rfl hb)
  · rw [lockGuard_other hp, guarded_other hp]

section named
variable {c : Chip} {g : GroupDesc} {w : ConfWord} (hp : Param.ofTag w.tag = some p) (hr : resolve c g p = .field r)
include hp hr

/-- An entry whose checks pass writes its field (R129). -/
theorem setOne_put (hm : mapped s.chip r.bank r.reg = true) (h : EntryPasses s p r w.arg) :
    setOne c g w s = .ok () (s.entryPut p r w.arg) :=
  setOne_run hp hr (lockGuard_run hm h.lock) (shift_eq_zero h.fits) (by rwa [guarded_chip])

/-- An entry whose checks do not pass fails, and leaves BANK alone (R129). -/
theorem setOne_refused (hm : mapped s.chip r.bank r.reg = true) (h : ¬ EntryPasses s p r w.arg) :
    ∃ t, setOne c g w s = .error (.failed .invalidArgument) t ∧ t.bank = s.bank ∧ t.chip = s.chip := by
  by_cases hl : p = .lock → (bankAnswer s r.bank.toNat r.reg.toNat).getLsbD r.bit = true → w.arg ≠ 0
  · have hfits : ¬ (hardwareValue p r.width (w.arg.setWidth 32)).toNat < 2 ^ r.width := fun hf => h ⟨hl, hf⟩
    refine ⟨_, setOne_tooWide hp hr (lockGuard_run hm hl) (mt shift_eq_zero_iff.mp hfits), ?_, ?_⟩
    · exact guarded_bank s p r
    · exact guarded_chip s p r
  · push Not at hl
    obtain ⟨rfl, hbit, ha⟩ := hl
    have hguard := lockGuard_fails hm hbit
    rw [← arg_eq_zero.mpr ha] at hguard
    exact ⟨_, setOne_locked hp hr hguard, rfl, rfl⟩

end named

/-- Everything an entry can do to BANK on a checked table: stop without a write, or put its value into its field. -/
theorem setOne_cases {g : GroupDesc} (h : tableOk s.chip = true) (hg : g ∈ s.chip.groups) (w : ConfWord) :
    (∃ e t, setOne s.chip g w s = .error e t ∧ t.bank = s.bank ∧ t.chip = s.chip) ∨
      ∃ p r, resolve s.chip g p = .field r ∧ EntryPasses s p r w.arg ∧
        setOne s.chip g w s = .ok () (s.entryPut p r w.arg) := by
  cases hp : Param.ofTag w.tag with
  | none => exact .inl ⟨_, s, setOne_unsupported (.inl hp), rfl, rfl⟩
  | some p =>
    cases hr : resolve s.chip g p with
    | unsupported => exact .inl ⟨_, s, setOne_unsupported (.inr ⟨p, hp, hr⟩), rfl, rfl⟩
    | malformed => exact absurd hr (resolve_not_malformed h hg p)
    | field r =>
      have hm := resolve_mapped h hg hr
      by_cases hpass : EntryPasses s p r w.arg
      · exact .inr ⟨p, r, hr, hpass, setOne_put hp hr hm hpass⟩
      · exact .inl ⟨_, setOne_refused hp hr hm hpass⟩

end entry

/-! ### The commands that set -/

section commands
variable {s : State} {x : Half} {g : GroupDesc} {i : Instr}

/-- CONF_SET and APPLY_CONF_NAMED run the same entries (R129, R135). -/
theorem exec_conf_run {es : List ConfWord} (hs : s.Inv) (hl : s.lc = .ready) (hg : s.chip.groups[x.toNat]? = some g)
    (hi : i = .confSet x es ∨ i = .applyConfNamed g.name es) :
    exec i s = .next (conclude (confSetGroup s.chip g es s)) := by
  obtain ⟨htable, hmem⟩ := hs.checkedGroup hl hg
  rcases hi with rfl | rfl
  · exact exec_confSet_run hl hg
  · exact exec_applyConf_run hl (lookupGroup_self htable hmem)

/-- One entry whose checks pass, as the whole command (R129). -/
theorem exec_conf_put {w : ConfWord} {p : Param} {r : Resolved} (hs : s.Inv) (hl : s.lc = .ready)
    (hg : s.chip.groups[x.toNat]? = some g) (hi : i = .confSet x [w] ∨ i = .applyConfNamed g.name [w])
    (hp : Param.ofTag w.tag = some p) (hr : resolve s.chip g p = .field r) (h : EntryPasses s p r w.arg) :
    exec i s = .next ((s.entryPut p r w.arg).replied [] []) := by
  obtain ⟨htable, hmem⟩ := hs.checkedGroup hl hg
  have hone := setOne_put hp hr (resolve_mapped htable hmem hr) h
  rw [exec_conf_run hs hl hg hi, confSetGroup_ok ((setEach_cons_ok hone).trans setEach_nil)]
  rfl

/-- The first entry's failure is the command's (R129, R173). -/
theorem exec_conf_failed {w : ConfWord} {es : List ConfWord} {st : Status} {t : State} (hs : s.Inv) (hl : s.lc = .ready)
    (hg : s.chip.groups[x.toNat]? = some g) (hi : i = .confSet x (w :: es) ∨ i = .applyConfNamed g.name (w :: es))
    (h : setOne s.chip g w s = .error (.failed st) t) : exec i s = .next (t.answer st) := by
  rw [exec_conf_run hs hl hg hi, confSetGroup_error (setEach_cons_error h)]
  rfl

end commands

/-- The events of an entry: the lock's read, then R, W, R (R129). -/
theorem entryPut_trace (s : State) (p : Param) (r : Resolved) (a : Half) :
    ∃ pre, (∃ back, (s.entryPut p r a).trace = s.trace ++ pre ++ [.read r.bank.toNat r.reg.toNat (s.entryRead p r),
        .write r.bank.toNat r.reg.toNat (s.entryWord p r a), .read r.bank.toNat r.reg.toNat back]) ∧
      (p ≠ .lock → pre = []) ∧ (p = .lock → ∃ cur, pre = [.read r.bank.toNat r.reg.toNat cur]) := by
  obtain ⟨back, htrace⟩ := updated_trace (s.guarded p r) r.bank r.reg (s.entryWord p r a)
  by_cases hp : p = .lock
  · subst hp
    exact ⟨_, ⟨back, htrace⟩, fun h => absurd rfl h, fun _ => ⟨_, rfl⟩⟩
  · refine ⟨[], ⟨back, ?_⟩, fun _ => rfl, fun h => absurd h hp⟩
    rw [guarded_other hp] at htrace
    simpa [State.entryPut, State.entryRead, guarded_other hp] using htrace

/-- Settles O42: the entry passes its checks, and the word it writes is known bit by bit. -/
theorem confSetWritesField : Obligations.ConfSetWritesField := by
  intro s x w g p r i hs hl hg hi hp hr hfit hlock
  obtain ⟨htable, hmem⟩ := hs.checkedGroup hl hg
  obtain ⟨-, hlow, hw, -⟩ := resolve_fits htable hmem hr
  have hpass : EntryPasses s p r w.arg := ⟨fun he _ => hlock he, hardwareValue_lt hlow hfit⟩
  obtain ⟨pre, htrace, hnone, hone⟩ := entryPut_trace s p r w.arg
  exact ⟨_, _, _, pre, exec_conf_put hs hl hg hi hp hr hpass, htrace, hnone, hone, entryPut_wordAt hs.bankWf,
    entryPut_bytes, entryPut_onlyBus.replied, rfl, entryRead_storage p r,
    fun k hk => entryWord_getLsbD hpass hw hk⟩

/-- Settles O43: a field of two bits is neither LOCK nor PAD_POWER, so the argument reaches the range check as it is. -/
theorem confSetRangeCheck : Obligations.ConfSetRangeCheck := by
  intro s x w es g p r hs hl hg hp hr hw hbig
  obtain ⟨htable, hmem⟩ := hs.checkedGroup hl hg
  have hlock : p ≠ .lock := by
    rintro rfl
    have := resolve_width_one htable hmem (by simp) hr
    omega
  have hpad : p ≠ .padPower := by
    rintro rfl
    have := resolve_width_one htable hmem (by simp) hr
    omega
  have hvalue : hardwareValue p r.width (w.arg.setWidth 32) >>> r.width ≠ 0 := by
    rw [ne_eq, shift_eq_zero_iff, hardwareValue_toNat, if_neg hpad, if_neg (by omega)]
    omega
  have hone := setOne_tooWide (s := s) hp hr (lockGuard_other hlock) hvalue
  exact ⟨exec_conf_failed hs hl hg (.inl rfl) hone, exec_conf_failed hs hl hg (.inr rfl) hone⟩

/-! ### The lock -/

theorem afterRead_storage {s : State} (hst : s.chip.readModel = .storage) (b o : Int) :
    s.afterRead b.toNat o.toNat = { s with trace := s.trace ++ [.read b.toNat o.toNat (s.wordAt b o)] } := by
  have hdraws : drawsAfterRead s = s.draws := by
    unfold drawsAfterRead
    rw [hst]
  rw [State.afterRead, hdraws, bankAnswer_wordAt hst]

/-- Settles O44: the lock check stops (LOCK, 0) on a set bit and lets every other entry write its own bit. -/
theorem lockCannotBeCleared : Obligations.LockCannotBeCleared := by
  intro s x g r hs hl hst hg hr
  obtain ⟨htable, hmem⟩ := hs.checkedGroup hl hg
  obtain ⟨hm, -, -, hin⟩ := resolve_fits htable hmem hr
  have hw : r.width = 1 := resolve_width_one htable hmem (by simp) hr
  have hread : bankAnswer s r.bank.toNat r.reg.toNat = s.wordAt r.bank r.reg := bankAnswer_wordAt hst _ _
  have hfits (v : Half) : (hardwareValue .lock r.width (v.setWidth 32)).toNat < 2 ^ r.width :=
    hardwareValue_lt (by omega) (.inl hw)
  refine ⟨fun hbit => ⟨?_, fun v hv => ?_⟩, fun hbit => ?_⟩
  · have hfail : setOne s.chip g ⟨4, 0⟩ s = .error (.failed .invalidArgument) (s.afterRead r.bank.toNat r.reg.toNat) :=
      setOne_locked rfl hr (lockGuard_fails hm (hread ▸ hbit))
    rw [exec_conf_failed hs hl hg (.inl rfl) hfail, afterRead_storage hst]
    rfl
  · have hpass : EntryPasses s .lock r v := ⟨fun _ _ => hv, hfits v⟩
    refine ⟨_, exec_conf_put hs hl hg (.inl rfl) rfl hr hpass, rfl, ?_⟩
    rw [replied_wordAt, entryPut_wordAt hs.bankWf, entryWord_bit hpass hw (by omega)]
    simpa using hv
  · have hpass : EntryPasses s .lock r 0 := ⟨fun _ h => by simp [hread, hbit] at h, hfits 0⟩
    refine ⟨_, exec_conf_put hs hl hg (.inl rfl) rfl hr hpass, rfl, ?_⟩
    rw [replied_wordAt, entryPut_wordAt hs.bankWf]
    apply BitVec.eq_of_getLsbD_eq
    intro k hk
    by_cases hkb : k = r.bit
    · rw [hkb, entryWord_bit hpass hw (by omega), hbit]
      rfl
    · rw [entryWord_getLsbD hpass (by omega) hk, if_neg (by omega), entryRead_storage _ _ hst]

/-- The lock bit at `r` is set, in a state of chip `c` with canonical banks. -/
def LockSet (c : Chip) (r : Resolved) (s : State) : Prop :=
  s.chip = c ∧ Memory.wf s.bank = true ∧ (s.wordAt r.bank r.reg).getLsbD r.bit = true

/-- No field of the group but LOCK's lies over the lock bit at `r`. -/
def LockApart (c : Chip) (g : GroupDesc) (r : Resolved) : Prop :=
  ∀ p q, p ≠ .lock → resolve c g p = .field q →
    (q.bank, q.reg) ≠ (r.bank, r.reg) ∨ r.bit < q.bit ∨ q.bit + q.width ≤ r.bit

theorem lockSet_composes (c : Chip) (r : Resolved) : Composes fun s t => LockSet c r s → LockSet c r t where
  refl _ := id
  trans h₁ h₂ h := h₂ (h₁ h)

theorem lockSet_keptByResponse (c : Chip) (r : Resolved) : KeptByResponse fun s t => LockSet c r s → LockSet c r t where
  answer _ _ := id
  raise _ _ _ := id
  replied _ _ _ := id

section lock
variable {c : Chip} {g : GroupDesc} {r : Resolved} (hst : c.readModel = .storage) (h : tableOk c = true)
  (hg : g ∈ c.groups) (hr : resolve c g .lock = .field r)
include hst h hg hr

/-- A LOCK entry that passes its check on a set lock writes the bit again (R130). -/
theorem entryPut_lock_keeps_lock {s : State} {a : Half} (hs : LockSet c r s) (hpass : EntryPasses s .lock r a) :
    LockSet c r (s.entryPut .lock r a) := by
  obtain ⟨rfl, hwf, hbit⟩ := hs
  obtain ⟨-, -, -, hin⟩ := resolve_fits h hg hr
  have hw : r.width = 1 := resolve_width_one h hg (by simp) hr
  have ha : a ≠ 0 := hpass.lock rfl ((bankAnswer_wordAt hst r.bank r.reg).symm ▸ hbit)
  refine ⟨entryPut_chip _ _ _ _, entryPut_wf hwf, ?_⟩
  rw [entryPut_wordAt hwf, entryWord_bit hpass hw (by omega)]
  simpa using ha

/-- An entry for a field that does not lie over the lock bit leaves the bit alone. -/
theorem entryPut_other_keeps_lock {s : State} {a : Half} {p : Param} {q : Resolved} (hs : LockSet c r s)
    (hpass : EntryPasses s p q a) (hq : resolve c g p = .field q)
    (hapart : (q.bank, q.reg) ≠ (r.bank, r.reg) ∨ r.bit < q.bit ∨ q.bit + q.width ≤ r.bit) :
    LockSet c r (s.entryPut p q a) := by
  obtain ⟨rfl, hwf, hbit⟩ := hs
  obtain ⟨hm, hlow, -, hin⟩ := resolve_fits h hg hr
  obtain ⟨hmq, -, hw, -⟩ := resolve_fits h hg hq
  refine ⟨entryPut_chip _ _ _ _, entryPut_wf hwf, ?_⟩
  by_cases hreg : q.bank = r.bank ∧ q.reg = r.reg
  · obtain ⟨hb, ho⟩ := hreg
    have hout : ¬ (q.bit ≤ r.bit ∧ r.bit < q.bit + q.width) := by
      have := hapart.resolve_left (by simp [hb, ho])
      omega
    rw [← hb, ← ho] at hbit ⊢
    rw [entryPut_wordAt hwf, entryWord_getLsbD hpass hw (by omega), if_neg hout, entryRead_storage _ _ hst, hbit]
  · rw [wordAt_disjoint entryPut_bytes (mapped_disjoint h hmq hm hreg), hbit]

theorem setOne_keeps_lock (hapart : LockApart c g r) (w : ConfWord) :
    Relates (fun s t => LockSet c r s → LockSet c r t) (setOne c g w) := by
  intro s hs
  obtain ⟨rfl, hwf, hbit⟩ := hs
  rcases setOne_cases h hg w with ⟨e, t, he, hbank, hchip⟩ | ⟨p, q, hq, hpass, he⟩ <;> rw [he]
  · refine ⟨hchip, hbank ▸ hwf, ?_⟩
    simpa [endState, State.wordAt, hbank] using hbit
  · by_cases hp : p = .lock
    · subst hp
      obtain rfl := Resolution.field.inj (hr.symm.trans hq)
      exact entryPut_lock_keeps_lock hst h hg hr ⟨rfl, hwf, hbit⟩ hpass
    · exact entryPut_other_keeps_lock hst h hg hr ⟨rfl, hwf, hbit⟩ hpass hq (hapart p q hp hq)

theorem setEach_keeps_lock (hapart : LockApart c g r) (es : List ConfWord) :
    Relates (fun s t => LockSet c r s → LockSet c r t) (setEach c g es) := by
  induction es with
  | nil => exact relates_pure (lockSet_composes c r) _
  | cons w ws ih =>
    exact relates_bind (lockSet_composes c r) (setOne_keeps_lock hst h hg hr hapart w) fun _ => ih

end lock

/-- Settles O45: each entry keeps the bit set, the list by induction, and the response does not touch the banks. -/
theorem lockSurvivesConfSet : Obligations.LockSurvivesConfSet := by
  intro s t x g r es hs hst hg hr hapart hl hbit he
  obtain ⟨htable, hmem⟩ := hs.checkedGroup hl hg
  have hbody := relates_bind (lockSet_composes s.chip r) (setEach_keeps_lock hst htable hmem hr hapart es)
    fun _ => relates_respond (lockSet_composes s.chip r) [] []
  rw [exec_confSet_run hl hg] at he
  injection he with he
  subst he
  obtain ⟨-, -, hkept⟩ := conclude_relates (lockSet_composes s.chip r) (lockSet_keptByResponse s.chip r) (hbody s)
    ⟨rfl, hs.bankWf, hbit⟩
  exact hkept

/-! ### PAD_POWER -/

/-- CONF_GET of PAD_POWER answers the complement of the field's one bit (R127, R128). -/
theorem exec_confGet_padPower {s : State} {x : Half} {g : GroupDesc} {r : Resolved} (hl : s.lc = .ready)
    (hst : s.chip.readModel = .storage) (hg : s.chip.groups[x.toNat]? = some g)
    (hr : resolve s.chip g .padPower = .field r) (hm : mapped s.chip r.bank r.reg = true) (hw : r.width = 1) :
    ∃ t, exec (.confGet x ⟨17, 0⟩) s = .next t ∧
      t.rsp = ⟨.ok, [if (s.wordAt r.bank r.reg).getLsbD r.bit then 0x00110000 else 0x00110001], []⟩ := by
  refine ⟨_, exec_confGet_run hl hg (p := .padPower) rfl hr hm, ?_⟩
  rw [bankAnswer_wordAt hst, ← paramValue, paramValue_padPower _ hw]
  split <;> rfl

/-- Settles O47: the complement is stored in the field's one bit, and CONF_GET complements it again. -/
theorem padPowerIsInverted : Obligations.PadPowerIsInverted := by
  intro s x v g r hs hl hst hg hr
  obtain ⟨htable, hmem⟩ := hs.checkedGroup hl hg
  obtain ⟨hm, -, -, hin⟩ := resolve_fits htable hmem hr
  have hw : r.width = 1 := resolve_width_one htable hmem (by simp) hr
  have hpass : EntryPasses s .padPower r v := ⟨nofun, hardwareValue_lt (by omega) (.inl hw)⟩
  have hchip : ((s.entryPut .padPower r v).replied [] []).chip = s.chip := entryPut_chip s .padPower r v
  have hbit : (((s.entryPut .padPower r v).replied [] []).wordAt r.bank r.reg).getLsbD r.bit = decide (v = 0) := by
    rw [replied_wordAt, entryPut_wordAt hs.bankWf, entryWord_bit hpass hw (by omega), if_pos rfl]
  obtain ⟨u, hget, hrsp⟩ := exec_confGet_padPower
    (s := (s.entryPut .padPower r v).replied [] []) ((entryPut_lc s .padPower r v).trans hl) (hchip ▸ hst)
    (hchip ▸ hg) (hchip ▸ hr) (hchip ▸ hm) hw
  refine ⟨_, u, exec_conf_put hs hl hg (.inl rfl) rfl hr hpass, rfl, hbit, hget, ?_⟩
  simpa only [hbit, decide_eq_true_eq] using hrsp

/-! ### A list of entries -/

/-- A body's result with the state it ends in changed by `f`. -/
def mapState {α : Type} (f : State → State) : EStateM.Result Stop State α → EStateM.Result Stop State α
  | .ok a t => .ok a (f t)
  | .error e t => .error e (f t)

/-- The body acts the same whatever the last response was. -/
def IgnoresResponse {α : Type} (x : M α) : Prop :=
  ∀ (s : State) (ws : List Word) (ns : List Name), x (s.replied ws ns) = mapState (State.replied · ws ns) (x s)

/-- The body does not fail with the status of success. -/
def NeverFailsOk {α : Type} (x : M α) : Prop := ∀ s t, x s ≠ .error (.failed .ok) t

/-- What lets a body be cut off from the entries after it: its steps ignore the last response, and only a success is OK. -/
def Separable {α : Type} (x : M α) : Prop := IgnoresResponse x ∧ NeverFailsOk x

section separable
variable {α β : Type}

theorem separable_pure (a : α) : Separable (pure a : M α) := by
  refine ⟨fun _ _ _ => rfl, fun s t he => ?_⟩
  rw [pure_run] at he
  cases he

theorem separable_failWith {st : Status} (h : st ≠ .ok) : Separable (failWith st : M α) := by
  refine ⟨fun _ _ _ => rfl, fun s t he => ?_⟩
  rw [failWith_run] at he
  cases he
  exact h rfl

theorem separable_raiseFatal (c : FaultCause) : Separable (raiseFatal c : M α) := by
  refine ⟨fun _ _ _ => rfl, fun s t he => ?_⟩
  rw [raiseFatal_run] at he
  cases he

theorem separable_bind {x : M α} {f : α → M β} (hx : Separable x) (hf : ∀ a, Separable (f a)) :
    Separable (x >>= f) := by
  obtain ⟨hxi, hxf⟩ := hx
  refine ⟨fun s ws ns => ?_, fun s u hu => ?_⟩
  · have hrun := hxi s ws ns
    rcases bind_run_cases x f s with ⟨a, t, h, e⟩ | ⟨er, t, h, e⟩ <;> rw [h] at hrun <;> rw [e]
    · exact (bind_run_ok hrun).trans ((hf a).1 t ws ns)
    · exact bind_run_error hrun
  · rcases bind_run_cases x f s with ⟨a, t, -, e⟩ | ⟨er, t, h, e⟩ <;> rw [e] at hu
    · exact (hf a).2 t u hu
    · cases hu
      exact hxf s u h

theorem separable_memRead (b o : Int) : Separable (memRead b o) := by
  refine ⟨fun s ws ns => ?_, fun s t => ?_⟩
  · by_cases h : mapped s.chip b o = true
    · rw [memRead_mapped h, memRead_mapped (s := s.replied ws ns) h]
      rfl
    · rw [memRead_unmapped h, memRead_unmapped (s := s.replied ws ns) h]
      rfl
  · unfold memRead
    split <;> nofun

theorem separable_memWrite (b o : Int) (v : Word) : Separable (memWrite b o v) := by
  refine ⟨fun s ws ns => ?_, fun s t => ?_⟩
  · by_cases h : mapped s.chip b o = true
    · rw [memWrite_mapped h, memWrite_mapped (s := s.replied ws ns) h]
      rfl
    · rw [memWrite_unmapped h, memWrite_unmapped (s := s.replied ws ns) h]
      rfl
  · unfold memWrite
    split <;> nofun

theorem separable_regWrite (b o : Int) (v : Word) : Separable (regWrite b o v) :=
  separable_bind (separable_memWrite b o v) fun _ => separable_bind (separable_memRead b o) fun _ => separable_pure _

theorem separable_resolveTag (c : Chip) (g : GroupDesc) (tag : Half) : Separable (resolveTag c g tag) := by
  unfold resolveTag
  split
  · exact separable_failWith nofun
  · split
    · exact separable_pure _
    · exact separable_failWith nofun
    · exact separable_raiseFatal _

theorem separable_lockGuard (p : Param) (r : Resolved) (v : Word) : Separable (lockGuard p r v) := by
  unfold lockGuard lockCheck
  split
  · refine separable_bind (separable_memRead _ _) fun _ => ?_
    split
    · exact separable_failWith nofun
    · exact separable_pure _
  · exact separable_pure _

theorem separable_writeField (r : Resolved) (v : Word) : Separable (writeField r v) := by
  unfold writeField
  split
  · exact separable_failWith nofun
  · exact separable_bind (separable_memRead _ _) fun _ => separable_regWrite _ _ _

theorem separable_setOne (c : Chip) (g : GroupDesc) (w : ConfWord) : Separable (setOne c g w) :=
  separable_bind (separable_resolveTag c g w.tag) fun t =>
    separable_bind (separable_lockGuard t.param t.field _) fun _ => separable_writeField t.field _

theorem separable_setEach (c : Chip) (g : GroupDesc) (ws : List ConfWord) : Separable (setEach c g ws) := by
  induction ws with
  | nil => exact separable_pure _
  | cons w ws ih => exact separable_bind (separable_setOne c g w) fun _ => ih

theorem separable_confSetGroup (c : Chip) (g : GroupDesc) (ws : List ConfWord) : Separable (confSetGroup c g ws) :=
  separable_bind (separable_setEach c g ws) fun _ => separable_pure _

end separable

/-- Bodies that run alike go on alike. -/
theorem bind_run_congr {α β : Type} {x y : M α} {f : α → M β} {s t : State} (h : x s = y t) :
    (x >>= f) s = (y >>= f) t := by
  show EStateM.bind x f s = EStateM.bind y f t
  unfold EStateM.bind
  rw [h]

/-- The response overwrites the last one. -/
theorem conclude_mapState_replied (x : EStateM.Result Stop State Reply) (ws : List Word) (ns : List Name) :
    conclude (mapState (State.replied · ws ns) x) = conclude x := by
  cases x with
  | ok r t => rfl
  | error e t => cases e <;> rfl

/-- A stop other than a failure with OK is not answered OK. -/
theorem conclude_error_status {e : Stop} {t : State} (h : e ≠ .failed .ok) :
    (conclude (.error e t)).rsp.status ≠ .ok := by
  cases e with
  | failed st => exact fun hst => h (congrArg Stop.failed hst)
  | raised k c => cases k <;> simp [LatchKind.status]

/-- An entry leaves the chip and LC alone. -/
theorem setOne_keeps (c : Chip) (g : GroupDesc) (w : ConfWord) :
    Relates (fun s t => t.chip = s.chip ∧ t.lc = s.lc) (setOne c g w) :=
  relates_setOne {
    refl := fun _ => ⟨rfl, rfl⟩
    trans := fun h₁ h₂ => ⟨h₂.1.trans h₁.1, h₂.2.trans h₁.2⟩
    read := fun _ _ _ _ => ⟨rfl, rfl⟩
    update := fun _ _ _ _ _ => ⟨rfl, rfl⟩ } c g w

/-- A CONF_SET runs its entries on a group in READY, or ends badly before it looks at them. -/
theorem exec_confSet_cases (s : State) (x : Half) :
    (s.lc = .ready ∧ ∃ g, s.chip.groups[x.toNat]? = some g) ∨
      ∃ t, t.rsp.status ≠ .ok ∧ ∀ es, exec (.confSet x es) s = .next t := by
  by_cases hl : s.lc = .ready
  · cases hg : s.chip.groups[x.toNat]? with
    | some g => exact .inl ⟨hl, g, rfl⟩
    | none =>
      have hlen : s.chip.groups.length ≤ x.toNat := List.getElem?_eq_none_iff.mp hg
      exact .inr ⟨s.raise .fatal .indexOutOfRange, nofun, fun es =>
         indexOutOfRangeRaises s x _ (.inl ⟨hl, hlen, .inr (.inr (.inl ⟨es, rfl⟩))⟩)⟩
  · by_cases hf : s.lc = .faulted
    · exact .inr ⟨s.answer .fatal, nofun, fun _ => runCommand_faulted hf⟩
    · exact .inr ⟨s.raise .sequenceError .sequence, nofun, fun _ => runCommand_notAccepted hf (decide_eq_false hl)⟩

/-- Settles O46: the entries after the first run on the state it leaves, whose response they ignore. -/
theorem confSetEntriesInOrder : Obligations.ConfSetEntriesInOrder := by
  refine ⟨fun x w ws s t he => ?_, fun x g s hl hg => exec_confSet_run hl hg⟩
  rcases exec_confSet_cases s x with ⟨hl, g, hg⟩ | ⟨u, hu, hall⟩
  · rw [exec_confSet_run hl hg] at he ⊢
    injection he with he
    subst he
    cases hone : setOne s.chip g w s with
    | ok a u =>
      obtain ⟨hchip, hlc⟩ : u.chip = s.chip ∧ u.lc = s.lc := by
        have hkeeps := setOne_keeps s.chip g w s
        rwa [hone] at hkeeps
      have hlast : confSetGroup s.chip g [w] s = .ok ⟨[], []⟩ u :=
        confSetGroup_ok ((setEach_cons_ok hone).trans setEach_nil)
      have hrest : confSetGroup s.chip g (w :: ws) s = confSetGroup s.chip g ws u := by
        exact bind_run_congr (setEach_cons_ok hone)
      rw [hlast, hrest]
      refine ⟨fun _ => ?_, fun h => absurd rfl h⟩
      have hrun := exec_confSet_run (s := u.replied [] []) (x := x) (es := ws) (hlc.trans hl) (hchip ▸ hg)
      have hignore := (separable_confSetGroup s.chip g ws).1 u [] []
      rw [State.replied_chip, hchip, hignore, conclude_mapState_replied] at hrun
      exact hrun.symm
    | error e u =>
      have hne : e ≠ .failed .ok := by
        rintro rfl
        exact (separable_setOne s.chip g w).2 s u hone
      rw [confSetGroup_error (setEach_cons_error hone), confSetGroup_error (setEach_cons_error hone)]
      exact ⟨fun h => absurd h (conclude_error_status hne), fun _ => rfl⟩
  · rw [hall] at he
    injection he with he
    subst he
    exact ⟨fun h => absurd h hu, fun _ => hall _⟩

/-! ### DUMP_GROUP -/

/-- The field a parameter resolves to, if it has one (R125). -/
def resolvedField (c : Chip) (g : GroupDesc) (p : Param) : Option Resolved :=
  match resolve c g p with
  | .field r => some r
  | .unsupported => none
  | .malformed => none

theorem resolvedField_of_field {c : Chip} {g : GroupDesc} {p : Param} {r : Resolved} (h : resolve c g p = .field r) :
    resolvedField c g p = some r := by
  unfold resolvedField
  rw [h]

theorem resolvedField_of_unsupported {c : Chip} {g : GroupDesc} {p : Param} (h : resolve c g p = .unsupported) :
    resolvedField c g p = none := by
  unfold resolvedField
  rw [h]

theorem supportedFields_eq (c : Chip) (g : GroupDesc) :
    supportedFields c g = Param.all.filterMap (resolvedField c g) := rfl

/-- The word that reports a parameter of the banks as they are, if the group has it (R127, R132). -/
def State.reported (s : State) (g : GroupDesc) (p : Param) : Option Word :=
  (resolvedField s.chip g p).map fun r => packValue p (paramValue p r (s.wordAt r.bank r.reg))

/-- The name of the function in a slot, "" for an empty slot (R132). -/
def slotFunctionName (c : Chip) (g : GroupDesc) (slot : Nat) : Name :=
  ((slotAt g.funcs slot).bind fun f => c.funcs[f]?.map FunctionDesc.name).getD ""

/-- W5: the function in a slot is one of the table. -/
theorem slotAt_lt_funcs {c : Chip} {g : GroupDesc} (h : tableOk c = true) (hg : g ∈ c.groups) {k f : Nat}
    (hf : slotAt g.funcs k = some f) : f < c.funcs.length :=
  (wellFormed_of_tableOk h).slots g hg f (List.mem_of_getElem? (slotAt_eq_some_iff.mp hf))

section names
variable {c : Chip} {g : GroupDesc} (h : tableOk c = true) (hg : g ∈ c.groups) (s : State)
include h hg

theorem slotName_run (v : Word) : slotName c g v s = .ok (slotFunctionName c g v.toNat) s := by
  unfold slotName slotFunctionName
  cases hf : slotAt g.funcs v.toNat with
  | none => rfl
  | some f =>
    have hd := List.getElem?_eq_getElem (slotAt_lt_funcs h hg hf)
    simp only [hd, Option.bind_some, Option.map_some, Option.getD_some]
    exact bind_run_ok (functionAt_some hd)

theorem dumpNames_run (p : Param) (v : Word) :
    dumpNames c g p v s = .ok (if p = .function then [slotFunctionName c g v.toNat] else []) s := by
  unfold dumpNames
  split
  · exact bind_run_ok (slotName_run h hg s v)
  · rfl

end names

/-- The names that report a parameter of the banks as they are: one for FUNCTION (R132). -/
def State.reportedNames (s : State) (g : GroupDesc) (p : Param) : List Name :=
  if p = .function ∧ fieldPresent g.mux = true then [slotFunctionName s.chip g (s.currentSlot g).toNat] else []

/-- What the dump of the parameters `ps` does: from `s`, reading the words `vs`, it answers `a` in state `t` (R132). -/
structure Dumped (g : GroupDesc) (ps : List Param) (s t : State) (a : Reply) (vs : List Word) : Prop where
  reads : vs.length = (ps.filterMap (resolvedField s.chip g)).length
  words : a.words.length = (ps.filterMap (resolvedField s.chip g)).length
  state : t = { s with
    trace := s.trace ++ (ps.filterMap (resolvedField s.chip g)).zipWith
      (fun r v => BusEvent.read r.bank.toNat r.reg.toNat v) vs
    draws := t.draws }
  reported : s.chip.readModel = .storage →
    a.words = ps.filterMap (s.reported g) ∧ a.names = ps.flatMap (s.reportedNames g)

section dump
variable {s : State} {g : GroupDesc} {p : Param} {ps : List Param} {t : State} {a : Reply} {vs : List Word}

theorem Dumped.nil : Dumped g [] s s ⟨[], []⟩ [] where
  reads := rfl
  words := rfl
  state := by simp
  reported _ := ⟨rfl, rfl⟩

/-- A parameter the group does not have adds nothing. -/
theorem Dumped.skip (hr : resolve s.chip g p = .unsupported) (h : Dumped g ps s t a vs) : Dumped g (p :: ps) s t a vs := by
  have hnone := resolvedField_of_unsupported hr
  have hword : s.reported g p = none := by rw [State.reported, hnone, Option.map_none]
  have hname : s.reportedNames g p = [] := by
    refine if_neg fun ⟨hp, hmux⟩ => ?_
    rw [hp, resolve_function hmux] at hr
    cases hr
  obtain ⟨hreads, hwords, hstate, hreported⟩ := h
  refine ⟨?_, ?_, ?_, fun hst => ?_⟩
  · rwa [List.filterMap_cons_none hnone]
  · rwa [List.filterMap_cons_none hnone]
  · rwa [List.filterMap_cons_none hnone]
  · rw [List.filterMap_cons_none hword, List.flatMap_cons, hname, List.nil_append]
    exact hreported hst

/-- The value of FUNCTION's field is the current slot (R116). -/
theorem reportedNames_of_field {r : Resolved} (hr : resolve s.chip g p = .field r) :
    s.reportedNames g p = if p = .function then
      [slotFunctionName s.chip g (paramValue p r (s.wordAt r.bank r.reg)).toNat] else [] := by
  by_cases hp : p = .function
  · subst hp
    by_cases hmux : fieldPresent g.mux = true
    · obtain rfl := Resolution.field.inj ((resolve_function hmux).symm.trans hr)
      simp only [State.reportedNames, hmux, and_self, if_true]
      rfl
    · simp [resolve, hmux] at hr
  · simp [State.reportedNames, hp]

/-- A parameter the group has adds one read, one word, and FUNCTION one name. -/
theorem Dumped.field {r : Resolved} (hr : resolve s.chip g p = .field r)
    (h : Dumped g ps (s.afterRead r.bank.toNat r.reg.toNat) t a vs) :
    Dumped g (p :: ps) s t
      ⟨packValue p (paramValue p r (bankAnswer s r.bank.toNat r.reg.toNat)) :: a.words,
        (if p = .function then
          [slotFunctionName s.chip g (paramValue p r (bankAnswer s r.bank.toNat r.reg.toNat)).toNat] else []) ++ a.names⟩
      (bankAnswer s r.bank.toNat r.reg.toNat :: vs) := by
  have hsome := resolvedField_of_field hr
  obtain ⟨hreads, hwords, hstate, hreported⟩ := h
  refine ⟨?_, ?_, ?_, fun hst => ?_⟩
  · rw [List.filterMap_cons_some hsome]
    exact congrArg (· + 1) hreads
  · rw [List.filterMap_cons_some hsome]
    exact congrArg (· + 1) hwords
  · rw [List.filterMap_cons_some hsome, List.zipWith_cons_cons, List.append_cons]
    exact hstate
  · obtain ⟨hw, hn⟩ := hreported hst
    have hword : s.reported g p = some (packValue p (paramValue p r (s.wordAt r.bank r.reg))) := by
      rw [State.reported, hsome, Option.map_some]
    rw [bankAnswer_wordAt hst, List.filterMap_cons_some hword, List.flatMap_cons, reportedNames_of_field hr, hw, hn]
    exact ⟨rfl, rfl⟩

/-- The dump of any parameters of a group of a checked table completes (R132). -/
theorem dumpParams_run (h : tableOk s.chip = true) (hg : g ∈ s.chip.groups) (ps : List Param) :
    ∃ t a vs, dumpParams s.chip g ps s = .ok a t ∧ Dumped g ps s t a vs := by
  induction ps generalizing s with
  | nil => exact ⟨s, _, [], rfl, .nil⟩
  | cons p ps ih =>
    unfold dumpParams
    cases hr : resolve s.chip g p with
    | unsupported =>
      obtain ⟨t, a, vs, hrun, hd⟩ := ih h hg
      exact ⟨t, a, vs, hrun, hd.skip hr⟩
    | malformed => exact absurd hr (resolve_not_malformed h hg p)
    | field r =>
      obtain ⟨t, a, vs, hrun, hd⟩ := ih (s := s.afterRead r.bank.toNat r.reg.toNat) h hg
      rw [State.afterRead_chip] at hrun
      refine ⟨t, _, _, ?_, hd.field hr⟩
      dsimp only
      rw [bind_run_ok (readParam_run (resolve_mapped h hg hr)), bind_run_ok (dumpNames_run h hg _ p _), bind_run_ok hrun]
      rfl

end dump

/-- CONF_GET's words for a parameter are what reports it, none when the group does not have it (R127, R132). -/
theorem exec_confGet_words {s : State} {x : Half} {g : GroupDesc} (hs : s.Inv) (hl : s.lc = .ready)
    (hst : s.chip.readModel = .storage) (hg : s.chip.groups[x.toNat]? = some g) (p : Param) :
    ∃ t, exec (.confGet x ⟨p.tag, 0⟩) s = .next t ∧ t.rsp.words = (s.reported g p).toList := by
  obtain ⟨htable, hmem⟩ := hs.checkedGroup hl hg
  have htag : Param.ofTag p.tag = some p := by cases p <;> rfl
  cases hr : resolve s.chip g p with
  | unsupported =>
    refine ⟨_, exec_confGet_unsupported (.inr ⟨p, htag, hr⟩) hl hg, ?_⟩
    rw [State.reported, resolvedField_of_unsupported hr]
    rfl
  | malformed => exact absurd hr (resolve_not_malformed htable hmem p)
  | field r =>
    refine ⟨_, exec_confGet_run hl hg htag hr (resolve_mapped htable hmem hr), ?_⟩
    rw [State.reported, resolvedField_of_field hr, bankAnswer_wordAt hst]
    rfl

/-- The parameters in tag order are the tags 0 to 17 (R84). -/
theorem range_eq_map_tag : List.range 18 = Param.all.map fun p => p.tag.toNat := by decide

/-- FUNCTION is one of the parameters, so a group with a mux field has one name reported (R132). -/
theorem flatMap_reportedNames (s : State) (g : GroupDesc) : Param.all.flatMap (s.reportedNames g) =
    if fieldPresent g.mux then [slotFunctionName s.chip g (s.currentSlot g).toNat] else [] := by
  simp [Param.all, State.reportedNames]

/-- Settles O48: the loop over the parameters in tag order, of which each word is CONF_GET's. -/
theorem dumpGroupReportsParameters : Obligations.DumpGroupReportsParameters := by
  refine ⟨fun s x g hs hl hd hg => ?_, fun s x hd hf => ?_⟩
  · obtain ⟨htable, hmem⟩ := hs.checkedGroup hl hg
    obtain ⟨t, a, vs, hrun, hreads, hwords, hstate, hreported⟩ := dumpParams_run htable hmem Param.all
    have hexec : exec (.dumpGroup x) s = .next (t.replied a.words a.names) := by
      rw [exec_accepted (i := .dumpGroup x) (fun _ => hd) (by rw [hl]; rfl), instrBody, dumpGroupBody,
        bind_run_ok (groupAt_some hg), hrun]
      rfl
    rw [supportedFields_eq]
    refine ⟨_, vs, hexec, hreads, hwords, ?_, rfl, fun hst => ?_⟩
    · exact congrArg (State.replied · a.words a.names) hstate
    · obtain ⟨hw, hn⟩ := hreported hst
      refine ⟨?_, hn.trans (flatMap_reportedNames s g)⟩
      show a.words = _
      rw [range_eq_map_tag, List.flatMap_map, hw, List.filterMap_eq_flatMap_toList]
      refine List.flatMap_congr fun p _ => ?_
      obtain ⟨u, hu, huw⟩ := exec_confGet_words hs hl hst hg p
      rw [BitVec.ofNat_toNat, BitVec.setWidth_eq, hu]
      exact huw.symm
  · exact (exec_dumpGroup_absent rfl hd).trans (congrArg _ (illegalCommand_not_faulted hf))

end Sys2Proof.Machine
end

section
/-! PROOFS. The named requests (43_requests.md): what a lookup by name answers, a command whose name is unknown, and the
statements of the family. -/

namespace Sys2Proof.Machine

/-! ### Lookup by name -/

section lookup
variable {c : Chip} {s : State} {n : Name}

theorem lookupGroup_known (h : ∃ g ∈ c.groups, g.name = n) : ∃ g, lookupGroup c n = some g := by
  obtain ⟨g, hg, rfl⟩ := h
  exact Option.isSome_iff_exists.mp (List.find?_isSome.mpr ⟨g, hg, beq_self_eq_true _⟩)

theorem lookupGroup_unknown (h : ∀ g ∈ c.groups, g.name ≠ n) : lookupGroup c n = none :=
  List.find?_eq_none.mpr fun g hg he => h g hg (eq_of_beq he)

theorem lookupFunction_unknown (h : ∀ f ∈ c.funcs, f.name ≠ n) : lookupFunction c n = none :=
  List.findIdx?_eq_none_iff.mpr fun f hf => beq_eq_false_iff_ne.mpr (h f hf)

theorem namedGroup_some {g : GroupDesc} (h : lookupGroup c n = some g) : namedGroup c n s = .ok g s := by
  unfold namedGroup
  rw [h]
  rfl

theorem namedGroup_unknown (h : ∀ g ∈ c.groups, g.name ≠ n) :
    namedGroup c n s = .error (.failed .invalidArgument) s := by
  unfold namedGroup
  rw [lookupGroup_unknown h]
  rfl

theorem namedFunction_unknown (h : ∀ f ∈ c.funcs, f.name ≠ n) :
    namedFunction c n s = .error (.failed .invalidArgument) s := by
  unfold namedFunction
  rw [lookupFunction_unknown h]
  rfl

end lookup

/-! ### The commands -/

section commands
variable {s : State} {n : Name}

/-- APPLY_MUX_NAMED accepted in READY runs its body (R134). -/
theorem exec_applyMux_body (hl : s.lc = .ready) (fo : Option Name) :
    exec (.applyMuxNamed n fo) s = .next (conclude (applyMuxBody s.chip n fo s)) :=
  exec_accepted (i := .applyMuxNamed n fo) nofun (by rw [hl]; rfl)

/-- APPLY_MUX_NAMED with no function checks the group name alone (R134). -/
theorem exec_applyMux_none (hl : s.lc = .ready) (hn : ∃ g ∈ s.chip.groups, g.name = n) :
    exec (.applyMuxNamed n none) s = .next (s.replied [] []) := by
  obtain ⟨g, hg⟩ := lookupGroup_known hn
  rw [exec_applyMux_body hl, applyMuxBody, bind_run_ok (namedGroup_some hg)]
  rfl

theorem exec_applyMux_unknownFunction {m : Name} (hl : s.lc = .ready) (hn : ∃ g ∈ s.chip.groups, g.name = n)
    (hm : ∀ f ∈ s.chip.funcs, f.name ≠ m) :
    exec (.applyMuxNamed n (some m)) s = .next (s.answer .invalidArgument) := by
  obtain ⟨g, hg⟩ := lookupGroup_known hn
  rw [exec_applyMux_body hl, applyMuxBody, bind_run_ok (namedGroup_some hg)]
  dsimp only
  rw [bind_run_error (namedFunction_unknown hm)]
  rfl

theorem exec_applyMux_unknownGroup (hl : s.lc = .ready) (hn : ∀ g ∈ s.chip.groups, g.name ≠ n) (fo : Option Name) :
    exec (.applyMuxNamed n fo) s = .next (s.answer .invalidArgument) := by
  rw [exec_applyMux_body hl, applyMuxBody, bind_run_error (namedGroup_unknown hn)]
  rfl

/-- APPLY_CONF_NAMED with no entries checks the group name alone (R135). -/
theorem exec_applyConf_nil (hl : s.lc = .ready) (hn : ∃ g ∈ s.chip.groups, g.name = n) :
    exec (.applyConfNamed n []) s = .next (s.replied [] []) := by
  obtain ⟨g, hg⟩ := lookupGroup_known hn
  rw [exec_applyConf_run hl hg, confSetGroup_ok setEach_nil]
  rfl

theorem exec_applyConf_unknownGroup (hl : s.lc = .ready) (hn : ∀ g ∈ s.chip.groups, g.name ≠ n) (es : List ConfWord) :
    exec (.applyConfNamed n es) s = .next (s.answer .invalidArgument) := by
  rw [exec_accepted (i := .applyConfNamed n es) nofun (by rw [hl]; rfl), instrBody, applyConfBody,
    bind_run_error (namedGroup_unknown hn)]
  rfl

end commands

/-- Settles O49: the names lead back to the ids (W8), and both commands run MuxBody, or the same entries, on the group. -/
theorem namedRequestsActById : Obligations.NamedRequestsActById := by
  intro s x f g d es hs hl hg hd
  obtain ⟨htable, hmem⟩ := hs.checkedGroup hl hg
  constructor
  · rw [exec_applyMux_ready hl (lookupGroup_self htable hmem) (lookupFunction_self htable hd), exec_setMux_ready hl hg]
  · rw [exec_conf_run hs hl hg (.inr rfl), exec_conf_run hs hl hg (.inl rfl)]

/-- Settles O50: the group name is looked up first, then the function name, and a lookup that fails ends the command. -/
theorem namedRequestsCheckNames : Obligations.NamedRequestsCheckNames := by
  intro s n m fo es hl
  constructor
  · intro hn
    exact ⟨exec_applyMux_none hl hn, exec_applyConf_nil hl hn, exec_applyMux_unknownFunction hl hn⟩
  · intro hn
    exact ⟨exec_applyMux_unknownGroup hl hn fo, exec_applyConf_unknownGroup hl hn es⟩

end Sys2Proof.Machine
end

section
/-! PROOFS. The GPIO hand-off (44_gpio_handoff.md): what the invariant gives a command about the pin it names, the states
a save and a restore end in, and the statements of the family. -/

namespace Sys2Proof.Machine

/-! ### The commands of the family -/

/-- A command that R182 accepts in READY and that every chip has runs its body there. -/
theorem exec_inReady {i : Instr} {s : State} (hl : s.lc = .ready) (hd : i.op ≠ .dumpGroup)
    (ha : accepts i.op .ready = true) : exec i s = .next (conclude (instrBody s.chip i s)) :=
  exec_accepted (fun h => absurd h hd) (hl ▸ ha)

/-! ### A pin no group has alone -/

section notFound
variable {c : Chip} {s : State} {p : Nat} (h : ∀ g ∈ c.groups, g.pins ≠ [p])
include h

theorem singlePinGroup_none : singlePinGroup c p s = .error (.failed .notFound) s := by
  unfold singlePinGroup
  rw [findSinglePinGroup_none h]
  rfl

theorem saveConfigBody_notFound : saveConfigBody c p s = .error (.failed .notFound) s :=
  bind_run_error (bind_run_error (singlePinGroup_none h))

theorem restoreBody_notFound : restoreBody c p s = .error (.failed .notFound) s :=
  bind_run_error (singlePinGroup_none h)

theorem gpioRequestBody_notFound : gpioRequestBody c p s = .error (.failed .notFound) s :=
  bind_run_error (bind_run_error (singlePinGroup_none h))

end notFound

/-- Settles O51: each of the four bodies looks the group of the pin up before anything else. -/
theorem handoffNotFound : Obligations.HandoffNotFound := by
  intro s p i hl hp hi
  suffices h : exec i s = .next (conclude (instrBody s.chip i s)) ∧
      instrBody s.chip i s = .error (.failed .notFound) s by
    obtain ⟨hrun, hbody⟩ := h
    rw [hrun, hbody]
    rfl
  rcases hi with rfl | rfl | rfl | rfl
  · exact ⟨exec_inReady hl nofun rfl, saveConfigBody_notFound hp⟩
  · exact ⟨exec_inReady hl nofun rfl, restoreBody_notFound hp⟩
  · exact ⟨exec_inReady hl nofun rfl, gpioRequestBody_notFound hp⟩
  · exact ⟨exec_inReady hl nofun rfl, restoreBody_notFound hp⟩

/-! ### A pin with a group of its own -/

/-- What a hand-off command finds of a pin with its own group: the lookup answers the group (R138), its mux register
exists, and the buffers have a place for the pin (R36). -/
structure SinglePin (s : State) (g : GroupDesc) (p : Nat) : Prop where
  lookup : findSinglePinGroup s.chip p = some g
  mux : fieldPresent g.mux = true → mapped s.chip g.mux.bank g.mux.reg = true
  buffered : p < s.pinbak.length ∧ p < s.pinsaved.length

theorem State.Inv.singlePin {s : State} {g : GroupDesc} {p : Nat} (hs : s.Inv) (hl : s.lc = .ready)
    (hg : g ∈ s.chip.groups) (hp : g.pins = [p]) : SinglePin s g p where
  lookup := findSinglePinGroup_self (hs.table (.inr (.inl hl))) hg hp
  mux := mux_mapped (hs.table (.inr (.inl hl))) hg
  buffered := by
    have hpin : p < s.chip.pins := pin_lt (hs.table (.inr (.inl hl))) hg (by simp [hp])
    exact ⟨hs.pinbakLength ▸ hpin, hs.pinsavedLength ▸ hpin⟩

/-- The state the save of a pin ends in (R140): a group without a mux field saves nothing. -/
def State.pinSaved (s : State) (g : GroupDesc) (p : Nat) : State :=
  if fieldPresent g.mux then s.muxSaved g p else s

/-- The state the restore of a saved word ends in (R141): the word written and read back. -/
def State.muxRestored (s : State) (g : GroupDesc) (v : Word) : State :=
  (s.afterWrite g.mux.bank.toNat g.mux.reg.toNat v).afterRead g.mux.bank.toNat g.mux.reg.toNat

section saved
variable {s : State} {g : GroupDesc} {p : Nat}

theorem pinSaved_mux (h : fieldPresent g.mux = true) : s.pinSaved g p = s.muxSaved g p := if_pos h

theorem pinSaved_noMux (h : fieldPresent g.mux = false) : s.pinSaved g p = s := if_neg (by simp [h])

theorem muxSaved_pinbak (h : SinglePin s g p) :
    (s.muxSaved g p).pinbak[p]? = some (bankAnswer s g.mux.bank.toNat g.mux.reg.toNat) :=
  List.getElem?_set_self h.buffered.1

theorem muxSaved_pinbak_storage (h : SinglePin s g p) (hst : s.chip.readModel = .storage) :
    (s.muxSaved g p).pinbak[p]? = some (s.wordAt g.mux.bank g.mux.reg) :=
  bankAnswer_wordAt hst g.mux.bank g.mux.reg ▸ muxSaved_pinbak h

theorem muxSaved_pinsaved (h : SinglePin s g p) : (s.muxSaved g p).pinsaved[p]? = some true :=
  List.getElem?_set_self h.buffered.2

theorem muxRestored_wordAt (hw : Memory.wf s.bank = true) (v : Word) :
    (s.muxRestored g v).wordAt g.mux.bank g.mux.reg = v := readWord_writeWord_same _ _ hw

theorem muxRestored_bytes (s : State) (g : GroupDesc) (v : Word) :
    BytesKeptBut g.mux.bank g.mux.reg s (s.muxRestored g v) := fun _ ha => readByte_writeWord_outside _ _ ha

theorem muxRestored_trace (s : State) (g : GroupDesc) (v : Word) : ∃ back, (s.muxRestored g v).trace = s.trace ++
    [.write g.mux.bank.toNat g.mux.reg.toNat v, .read g.mux.bank.toNat g.mux.reg.toNat back] :=
  ⟨_, by simp only [State.muxRestored, State.afterRead_trace, State.afterWrite_trace, List.append_assoc]; rfl⟩

theorem saveBody_singlePin (h : SinglePin s g p) : saveBody s.chip p s = .ok () (s.pinSaved g p) := by
  cases hp : fieldPresent g.mux with
  | true =>
    rw [pinSaved_mux hp]
    exact saveBody_mux h.lookup hp (h.mux hp) h.buffered
  | false =>
    rw [pinSaved_noMux hp]
    exact saveBody_noMux h.lookup hp

end saved

section commands
variable {s : State} {g : GroupDesc} {p : Half} {i : Instr} (hl : s.lc = .ready)
include hl

/-- SAVE_CONFIG of a pin with its own group (R140). -/
theorem exec_saveConfig_singlePin (h : SinglePin s g p.toNat) :
    exec (.saveConfig p) s = .next ((s.pinSaved g p.toNat).replied [] []) := by
  rw [exec_inReady (i := .saveConfig p) hl nofun rfl, instrBody, saveConfigBody, bind_run_ok (saveBody_singlePin h)]
  rfl

/-! RESTORE_CONFIG and GPIO_DISABLE_FREE run one body (R141, R143). -/

variable (hi : i = .restoreConfig p ∨ i = .gpioDisableFree p)
include hi

theorem exec_restore_ready : exec i s = .next (conclude (restoreBody s.chip p.toNat s)) := by
  rcases hi with rfl | rfl
  · exact exec_inReady hl nofun rfl
  · exact exec_inReady hl nofun rfl

theorem exec_restore_saved {v : Word} (h : SinglePin s g p.toNat) (hp : fieldPresent g.mux = true)
    (hsaved : s.pinsaved[p.toNat]? = some true) (hv : s.pinbak[p.toNat]? = some v) :
    exec i s = .next ((s.muxRestored g v).replied [] []) := by
  rw [exec_restore_ready hl hi, restoreBody_mux h.lookup hp (h.mux hp) hsaved hv]
  rfl

theorem exec_restore_unsaved (h : SinglePin s g p.toNat) (hp : fieldPresent g.mux = true)
    (hunsaved : s.pinsaved[p.toNat]? = some false) : exec i s = .next (s.raise .sequenceError .sequence) := by
  rw [exec_restore_ready hl hi, restoreBody_unsaved h.lookup hp hunsaved h.buffered.1]
  rfl

theorem exec_restore_noMux (h : SinglePin s g p.toNat) (hp : fieldPresent g.mux = false) :
    exec i s = .next (s.replied [] []) := by
  rw [exec_restore_ready hl hi, restoreBody_noMux h.lookup hp]
  rfl

end commands

/-- Settles O52: SAVE_CONFIG ends in `State.pinSaved`, which reads the mux word into the buffers where there is one. -/
theorem saveConfigSavesWord : Obligations.SaveConfigSavesWord := by
  intro s p g hs hl hg hpin
  have h := hs.singlePin hl hg hpin
  have hrun := exec_saveConfig_singlePin hl h
  refine ⟨fun hp => ?_, fun hp => ?_⟩
  · rw [pinSaved_mux hp] at hrun
    exact ⟨_, bankAnswer s g.mux.bank.toNat g.mux.reg.toNat, hrun, rfl, muxSaved_pinbak h, muxSaved_pinsaved h,
      fun hst => bankAnswer_wordAt hst _ _⟩
  · rw [pinSaved_noMux hp] at hrun
    exact hrun

/-- Settles O53: the body looks at the mux field, then at PINSAVED, and writes PINBAK's word only when both are there. -/
theorem restoreWritesSavedWord : Obligations.RestoreWritesSavedWord := by
  intro s p g i hs hl hg hpin hi
  have h := hs.singlePin hl hg hpin
  refine ⟨fun hp hsaved v hv => ?_, exec_restore_unsaved hl hi h, exec_restore_noMux hl hi h⟩
  obtain ⟨back, htrace⟩ := muxRestored_trace s g v
  exact ⟨_, back, exec_restore_saved hl hi h hp hsaved hv, rfl, rfl, htrace, muxRestored_wordAt hs.bankWf v,
    muxRestored_bytes s g v⟩

/-! ### Taking the pin -/

/-- Settles O54: after the save the command updates the mux register with the word read and its select bit cleared. -/
theorem gpioRequestTakesPin : Obligations.GpioRequestTakesPin := by
  intro s p g hs hl hc hg hpin hp hb
  have hsave := exec_saveConfig_singlePin hl (hs.singlePin hl hg hpin)
  rw [pinSaved_mux hp] at hsave
  refine ⟨_, _, _, _, hsave, exec_gpioRequest_taken hs hl hc hg hp hb hpin,
    wroteRegister_updated (s.muxSaved g p.toNat) g.mux.bank g.mux.reg _ hs.bankWf,
    fun hst => bankAnswer_wordAt (s := s.muxSaved g p.toNat) hst _ _, fun k hk => ?_⟩
  rw [BitVec.getLsbD_and, BitVec.getLsbD_not, oneBit_getLsbD hk]
  by_cases hbit : k = g.sfsel.bit.toNat <;> simp [hbit, hk]

/-- With the select flag clear GPIO_REQUEST_ENABLE has nothing to do after the save (R142). -/
theorem gpioRequestBody_noFlag {c : Chip} (hc : c.sfselInMux = false) (p : Nat) :
    gpioRequestBody c p = saveConfigBody c p := by
  simp [gpioRequestBody, saveConfigBody, hc]

/-- A group without a mux field or a select bit has nothing to take (R142). -/
theorem takeGpio_absent {s : State} {g : GroupDesc} (h : fieldPresent g.mux = false ∨ bitPresent g.sfsel = false) :
    takeGpio g s = .error (.failed .invalidArgument) s := by
  unfold takeGpio
  rw [if_neg (by rcases h with h | h <;> simp [h])]
  rfl

/-- Settles O55: the save runs first whatever the chip; the flag then decides whether the select bit is looked for. -/
theorem gpioRequestWithoutSelectBit : Obligations.GpioRequestWithoutSelectBit := by
  intro s p hl
  refine ⟨fun hc => ?_, fun g hs hc hg hpin habsent => ?_⟩
  · rw [exec_inReady (i := .gpioRequestEnable p) hl nofun rfl, exec_inReady (i := .saveConfig p) hl nofun rfl, instrBody,
      instrBody, gpioRequestBody_noFlag hc]
  · have h := hs.singlePin hl hg hpin
    refine ⟨_, exec_saveConfig_singlePin hl h, rfl, ?_⟩
    rw [exec_inReady (i := .gpioRequestEnable p) hl nofun rfl, instrBody, gpioRequestBody,
      bind_run_ok (saveBody_singlePin h), if_pos hc, bind_run_ok (singlePinGroup_some h.lookup), takeGpio_absent habsent]
    rfl

/-! ### Handing the pin back -/

/-- A word written where it was read leaves storage as it was. -/
theorem writeWord_readWord {m : Memory} (a : Nat) (hm : Memory.wf m = true) : writeWord m a (readWord m a) = m :=
  memory_ext (wf_writeWord _ _ hm) hm fun b => by
    by_cases hb : a ≤ b ∧ b < a + 4
    · exact readByte_of_readWord (readWord_writeWord_same _ _ hm) hb
    · exact readByte_writeWord_outside _ _ hb

/-- Settles O56: the restore writes the register the word that the save has just read from it. -/
theorem saveRestoreSymmetry : Obligations.SaveRestoreSymmetry := by
  intro s p g hs hl hst hg hpin
  have h := hs.singlePin hl hg hpin
  have hsave := exec_saveConfig_singlePin hl h
  cases hp : fieldPresent g.mux with
  | false =>
    rw [pinSaved_noMux hp] at hsave
    have hm : (s.replied [] []).Inv := exec_keeps_inv hs hsave
    exact ⟨_, _, hsave, exec_restore_noMux hl (.inl rfl) (hm.singlePin hl hg hpin) hp, rfl, rfl, rfl⟩
  | true =>
    rw [pinSaved_mux hp] at hsave
    have hm := exec_keeps_inv hs hsave
    have hrestore := exec_restore_saved (s := (s.muxSaved g p.toNat).replied [] []) hl (.inl rfl)
      (hm.singlePin hl hg hpin) hp (muxSaved_pinsaved h) (muxSaved_pinbak_storage h hst)
    exact ⟨_, _, hsave, hrestore, rfl, muxRestored_wordAt hm.bankWf _, writeWord_readWord _ hs.bankWf⟩

/-- Settles O57: the request saves the register's word before it clears the select bit, and the free writes it back. -/
theorem handoffRoundTrip : Obligations.HandoffRoundTrip := by
  intro s t m u p g hs hl hst hc hg hpin hp hb ht hm hlm hchip hbak hsaved hu
  have h := hs.singlePin hl hg hpin
  obtain rfl : (s.gpioTaken g p.toNat).replied [] [] = t := by
    rw [exec_gpioRequest_taken hs hl hc hg hp hb hpin] at ht
    injection ht
  have hword : m.pinbak[p.toNat]? = some (s.wordAt g.mux.bank g.mux.reg) :=
    hbak.trans (muxSaved_pinbak_storage h hst)
  have hmark : m.pinsaved[p.toNat]? = some true := hsaved.trans (muxSaved_pinsaved h)
  rw [exec_restore_saved hlm (.inr rfl) (hm.singlePin hlm (hchip ▸ hg) hpin) hp hmark hword] at hu
  injection hu with hu
  rw [← hu]
  exact ⟨rfl, muxRestored_wordAt hm.bankWf _⟩

end Sys2Proof.Machine
end

section
/-! PROOFS. The lifecycle (45_lifecycle.md): what CLEAR_PARKED, SUSPEND and RESUME read, write and leave alone, and that
RESUME undoes whatever the banks met since SUSPEND. -/

namespace Sys2Proof.Machine

/-! ### One group's mask cleared -/

/-- The state after the register `r` of group `g` was read and written without the group's mask (R155). -/
def State.maskWritten (s : State) (g : GroupDesc) (r : Loc) : State :=
  (s.afterRead r.bank.toNat r.reg.toNat).afterWrite r.bank.toNat r.reg.toNat
    (bankAnswer s r.bank.toNat r.reg.toNat &&& ~~~g.parked)

/-- The state after the readback as well. -/
def State.groupCleared (s : State) (g : GroupDesc) (r : Loc) : State :=
  (s.maskWritten g r).afterRead r.bank.toNat r.reg.toNat

/-- A mask of no bit clears none. -/
theorem and_not_zero (v : Word) : v &&& ~~~0 = v := BitVec.and_allOnes

section group
variable {s : State} {g : GroupDesc} {r : Loc}

theorem clearIfParked_cleared (hz : g.parked ≠ 0) (hr : parkedReg g = some r)
    (hm : mapped s.chip r.bank r.reg = true) : clearIfParked g s = .ok () (s.groupCleared g r) :=
  clearIfParked_run hz hr hm

theorem groupCleared_wf (hw : Memory.wf s.bank = true) : Memory.wf (s.groupCleared g r).bank = true :=
  wf_writeWord _ _ hw

theorem groupCleared_bytes : BytesKeptBut r.bank r.reg s (s.groupCleared g r) := fun _ ha =>
  readByte_writeWord_outside _ _ ha

theorem maskWritten_wordAt (hw : Memory.wf s.bank = true) : (s.maskWritten g r).wordAt r.bank r.reg =
    bankAnswer s r.bank.toNat r.reg.toNat &&& ~~~g.parked := readWord_writeWord_same _ _ hw

/-- The events R, W, R of the group; with the storage model the words read are the register before and after. -/
theorem groupCleared_trace (hw : Memory.wf s.bank = true) (hr : parkedReg g = some r) :
    ∃ v back, (s.groupCleared g r).trace = s.trace ++ parkedEvents g v back ∧
      (s.chip.readModel = .storage → v = s.wordAt r.bank r.reg ∧ back = v &&& ~~~g.parked) := by
  refine ⟨bankAnswer s r.bank.toNat r.reg.toNat, bankAnswer (s.maskWritten g r) r.bank.toNat r.reg.toNat, ?_,
    fun hst => ?_⟩
  · simp only [State.groupCleared, State.maskWritten, State.afterRead_trace, State.afterWrite_trace, parkedEvents, hr,
      List.append_assoc]
    rfl
  · have hread := bankAnswer_wordAt (s := s.maskWritten g r) hst r.bank r.reg
    exact ⟨bankAnswer_wordAt hst _ _, hread.trans (maskWritten_wordAt hw)⟩

/-- Clearing a group's mask clears it in the group's register and in no other (storage). -/
theorem groupCleared_wordAt (ht : tableOk s.chip = true) (hw : Memory.wf s.bank = true)
    (hst : s.chip.readModel = .storage) (hg : g ∈ s.chip.groups) (hr : parkedReg g = some r) {b o : Int}
    (hm : mapped s.chip b o = true) :
    (s.groupCleared g r).wordAt b o = s.wordAt b o &&& ~~~(if parkedReg g = some ⟨b, o⟩ then g.parked else 0) := by
  by_cases hreg : r = ⟨b, o⟩
  · subst hreg
    have hword : (s.groupCleared g ⟨b, o⟩).wordAt b o = _ := maskWritten_wordAt hw
    rw [if_pos hr, hword, bankAnswer_wordAt hst b o]
  · have hother : parkedReg g ≠ some ⟨b, o⟩ := fun h => hreg (Option.some.inj (hr.symm.trans h))
    have hapart := mapped_disjoint ht (parkedReg_mapped ht hg hr) hm fun ⟨hb, ho⟩ => hreg (by rw [← hb, ← ho])
    rw [if_neg hother, wordAt_disjoint groupCleared_bytes hapart, and_not_zero]

end group

/-! ### The masks of a list of groups cleared -/

/-- What clearing the masks of the groups `gs` one by one does: from `s`, with the words read and read back in `reads`, it
ends in `t` (R155). -/
structure Cleared (gs : List GroupDesc) (s t : State) (reads : List (Word × Word)) : Prop where
  length : reads.length = gs.length
  state : t = { s with bank := t.bank, trace := s.trace ++ clearEvents gs reads, draws := t.draws }
  bytes : ∀ a, (∀ g ∈ gs, ∀ r, parkedReg g = some r →
      ¬ (flatAddr r.bank.toNat r.reg.toNat ≤ a ∧ a < flatAddr r.bank.toNat r.reg.toNat + 4)) →
    readByte t.bank a = readByte s.bank a
  answers : s.chip.readModel = .storage → ∀ k g r, gs[k]? = some g → parkedReg g = some r → ∃ v,
    v = s.wordAt r.bank r.reg &&& ~~~(parkedMaskAt r.bank r.reg (gs.take k)) ∧ reads[k]? = some (v, v &&& ~~~g.parked)
  words : s.chip.readModel = .storage → ∀ b o : Int, mapped s.chip b o = true →
    t.wordAt b o = s.wordAt b o &&& ~~~(parkedMaskAt b o gs)

/-- No group names no bit. -/
theorem and_not_parkedMaskAt_nil (v : Word) (b o : Int) : v &&& ~~~(parkedMaskAt b o []) = v := and_not_zero v

theorem parkedMaskAt_cons_zero {g : GroupDesc} (hz : g.parked = 0) (b o : Int) (gs : List GroupDesc) :
    parkedMaskAt b o (g :: gs) = parkedMaskAt b o gs := by
  rw [parkedMaskAt, hz, ite_self]
  exact BitVec.zero_or

/-- Clearing the masks of a list is clearing its first mask, then the others. -/
theorem and_not_parkedMaskAt_cons (v : Word) (b o : Int) (g : GroupDesc) (gs : List GroupDesc) :
    v &&& ~~~(parkedMaskAt b o (g :: gs)) =
      v &&& ~~~(if parkedReg g = some ⟨b, o⟩ then g.parked else 0) &&& ~~~(parkedMaskAt b o gs) := by
  rw [parkedMaskAt, BitVec.not_or, BitVec.and_assoc]

theorem Cleared.nil (s : State) : Cleared [] s s [] where
  length := rfl
  state := by simp [clearEvents]
  bytes _ _ := rfl
  answers _ _ _ _ hk := nomatch hk
  words _ b o _ := (and_not_parkedMaskAt_nil _ b o).symm

section clear
variable {s t : State} {g : GroupDesc} {gs : List GroupDesc} {r : Loc} {reads : List (Word × Word)}

/-- A group before others adds its three events, its register and its mask. -/
theorem Cleared.cons (ht : tableOk s.chip = true) (hw : Memory.wf s.bank = true)
    (hmem : ∀ d ∈ g :: gs, d ∈ s.chip.groups) (hr : parkedReg g = some r)
    (h : Cleared gs (s.groupCleared g r) t reads) :
    ∃ v back, Cleared (g :: gs) s t ((v, back) :: reads) := by
  have hg : g ∈ s.chip.groups := hmem g List.mem_cons_self
  obtain ⟨v, back, htrace, hanswer⟩ := groupCleared_trace hw hr
  refine ⟨v, back, congrArg (· + 1) h.length, ?_, fun a ha => ?_, fun hst k d l hk hl => ?_, fun hst b o hm => ?_⟩
  · have hstate := h.state
    rw [htrace, List.append_assoc] at hstate
    exact hstate
  · rw [h.bytes a fun d hd => ha d (List.mem_cons_of_mem _ hd)]
    exact groupCleared_bytes a (ha g List.mem_cons_self r hr)
  · cases k with
    | zero =>
      obtain rfl : g = d := Option.some.inj hk
      obtain rfl : r = l := Option.some.inj (hr.symm.trans hl)
      obtain ⟨hv, hback⟩ := hanswer hst
      exact ⟨v, hv.trans (and_not_parkedMaskAt_nil _ _ _).symm, by rw [← hback]; rfl⟩
    | succ k =>
      obtain ⟨x, hx, hread⟩ := h.answers hst k d l hk hl
      have hmapped : mapped s.chip l.bank l.reg = true :=
        parkedReg_mapped ht (hmem d (List.mem_cons_of_mem _ (List.mem_of_getElem? hk))) hl
      refine ⟨x, ?_, hread⟩
      rw [hx, groupCleared_wordAt ht hw hst hg hr hmapped, List.take_succ_cons, and_not_parkedMaskAt_cons]
  · rw [h.words hst b o hm, groupCleared_wordAt ht hw hst hg hr hm, and_not_parkedMaskAt_cons]

/-- CLEAR_PARKED's loop over groups with a mask (R155). -/
theorem clearGroups_parked (ht : tableOk s.chip = true) (hw : Memory.wf s.bank = true)
    (hgs : ∀ g ∈ gs, g ∈ s.chip.groups ∧ g.parked ≠ 0) :
    ∃ t reads, clearGroups gs s = .ok () t ∧ Cleared gs s t reads := by
  induction gs generalizing s with
  | nil => exact ⟨s, [], rfl, .nil s⟩
  | cons g gs ih =>
    obtain ⟨⟨hg, hz⟩, hrest⟩ := List.forall_mem_cons.mp hgs
    obtain ⟨r, hr⟩ := parkedReg_some ht hg hz
    obtain ⟨t, reads, hrun, hcleared⟩ := ih (s := s.groupCleared g r) ht (groupCleared_wf hw) hrest
    obtain ⟨v, back, hcons⟩ := hcleared.cons ht hw (fun d hd => (hgs d hd).1) hr
    exact ⟨t, _, (bind_run_ok (clearIfParked_cleared hz hr (parkedReg_mapped ht hg hr))).trans hrun, hcons⟩

end clear

/-- The loop passes over the groups without a mask. -/
theorem clearGroups_filter (gs : List GroupDesc) :
    clearGroups gs = clearGroups (gs.filter fun g => decide (g.parked ≠ 0)) := by
  induction gs with
  | nil => rfl
  | cons g gs ih =>
    by_cases hz : g.parked = 0
    · rw [List.filter_cons_of_neg (by simpa using hz), ← ih]
      exact funext fun s => bind_run_ok (clearIfParked_zero hz)
    · rw [List.filter_cons_of_pos (by simpa using hz), clearGroups, clearGroups, ih]

/-- The groups without a mask name no bit. -/
theorem parkedMaskAt_filter (b o : Int) (gs : List GroupDesc) :
    parkedMaskAt b o (gs.filter fun g => decide (g.parked ≠ 0)) = parkedMaskAt b o gs := by
  induction gs with
  | nil => rfl
  | cons g gs ih =>
    by_cases hz : g.parked = 0
    · rw [List.filter_cons_of_neg (by simpa using hz), ih, parkedMaskAt_cons_zero hz]
    · rw [List.filter_cons_of_pos (by simpa using hz), parkedMaskAt, parkedMaskAt, ih]

theorem mem_parkedGroups {c : Chip} {g : GroupDesc} : g ∈ parkedGroups c ↔ g ∈ c.groups ∧ g.parked ≠ 0 := by
  simp [parkedGroups]

/-- CLEAR_PARKED on a checked table (R155). -/
theorem exec_clearParked_run {s : State} (hs : s.Inv) (hl : s.lc = .parkPending) :
    ∃ t reads, exec .clearParked s = .next (({ t with lc := .ready } : State).replied [] []) ∧
      Cleared (parkedGroups s.chip) s t reads := by
  obtain ⟨t, reads, hrun, hcleared⟩ :=
    clearGroups_parked (hs.table (.inl hl)) hs.bankWf fun g hg => mem_parkedGroups.mp hg
  rw [parkedGroups, ← clearGroups_filter] at hrun
  refine ⟨t, reads, ?_, hcleared⟩
  rw [exec_accepted (i := .clearParked) nofun (by rw [hl]; rfl), instrBody, clearParkedBody, bind_run_ok hrun]
  rfl

/-- Settles O34: the loop over the groups with a mask, seen through `Cleared`, and the masks of the other groups are 0. -/
theorem clearParkedClearsMasks : Obligations.ClearParkedClearsMasks := by
  intro s hs hl
  obtain ⟨t, reads, hrun, hcleared⟩ := exec_clearParked_run hs hl
  obtain ⟨hlength, hstate, hbytes, hanswers, hwords⟩ := hcleared
  refine ⟨_, reads, hrun, rfl, rfl, ?_, hlength, ?_, fun g hg => ?_, fun a ha => ?_, fun hst => ⟨hanswers hst, ?_⟩⟩
  · rw [hstate]
    rfl
  · rw [hstate]
    rfl
  · obtain ⟨hmem, hz⟩ := mem_parkedGroups.mp hg
    obtain ⟨r, hr⟩ := parkedReg_some (hs.table (.inl hl)) hmem hz
    rw [hr]
    rfl
  · refine hbytes a fun g hg => ?_
    obtain ⟨hmem, hz⟩ := mem_parkedGroups.mp hg
    exact ha g hmem hz
  · intro b o hm
    have hword := hwords hst b o hm
    rw [parkedGroups, parkedMaskAt_filter] at hword
    exact hword

/-! ### SUSPEND -/

/-- SUSPEND on a checked table: each word is read once, in cursor order, into its place in BACKUP (R160, R162). -/
theorem exec_suspend_run {s : State} (hs : s.Inv) (hl : s.lc = .ready) :
    ∃ vs d, vs.length = s.chip.words.sum ∧
      exec .suspend s = .next { s with
        backup := vs
        trace := s.trace ++ (cursorWords s.chip).zipWith (fun x v => BusEvent.read x.1 (4 * x.2) v) vs
        draws := d
        lc := .suspended
        rsp := ⟨.ok, [], []⟩ } ∧
      (s.chip.readModel = .storage → vs = (cursorWords s.chip).map fun x => s.bankWord x.1 x.2) := by
  have hfull : s.backup.length = (cursorWords s.chip).length := hs.backupLength.trans (cursorWords_length _).symm
  obtain ⟨vs, d, hlength, hrun, hvs⟩ :=
    drainWords_run (cursorWords s.chip) 0 s (fun _ hx => cursor_mapped hx) (by omega)
  refine ⟨vs, d, hlength.trans (cursorWords_length _), ?_, hvs⟩
  rw [exec_inReady (i := .suspend) hl nofun rfl, instrBody, suspendBody, bind_run_ok hrun, List.take_zero, List.nil_append,
    Nat.zero_add, ← hfull, List.drop_length, List.append_nil]
  rfl

/-- Settles O58: the loop fills BACKUP from position 0 to its end, and a word's place is its position in cursor order. -/
theorem suspendDrainsBanks : Obligations.SuspendDrainsBanks := by
  intro s hs hl
  obtain ⟨vs, d, hlength, hrun, hvs⟩ := exec_suspend_run hs hl
  refine ⟨_, hrun, rfl, rfl, rfl, hlength, rfl, fun hst b w n hn hw => ?_⟩
  show vs[(s.chip.words.take b).sum + w]? = some (s.bankWord b w)
  rw [hvs hst, List.getElem?_map, cursorWords_getElem? hn hw, Option.map_some]

/-! ### RESUME -/

/-- RESUME on a checked table: the writes from BACKUP, the dummy read, the barrier (R161). -/
theorem exec_resume_run {s : State} (hs : s.Inv) (hl : s.lc = .suspended) :
    ∃ dummy d, exec .resume s = .next { s with
      bank := refillBank (cursorWords s.chip) s.backup s.bank
      trace := s.trace ++ (cursorWords s.chip).zipWith (fun x v => BusEvent.write x.1 (4 * x.2) v) s.backup ++
        [.read 0 0 dummy, .barrier]
      draws := d
      lc := .ready
      rsp := ⟨.ok, [], []⟩ } := by
  obtain ⟨dummy, d, hrun⟩ := resumeBody_run (hs.table (.inr (.inr hl))) hs.backupLength
  refine ⟨dummy, d, ?_⟩
  rw [exec_accepted (i := .resume) nofun (by rw [hl]; rfl), instrBody, hrun, List.append_assoc _ [_] [_]]
  rfl

/-- No two words the cursor visits share a byte. -/
theorem cursorWords_pairwise_apart {c : Chip} (h : tableOk c = true) :
    (cursorWords c).Pairwise fun x y => flatAddr x.1 (4 * x.2) + 4 ≤ flatAddr y.1 (4 * y.2) ∨
      flatAddr y.1 (4 * y.2) + 4 ≤ flatAddr x.1 (4 * x.2) :=
  (cursorWords_nodup c).pairwise_of_forall_ne fun _ hx _ hy hne => cursor_disjoint h hx hy hne

/-- Every word refilled holds what stands at its place in BACKUP. -/
theorem readWord_refillBank_cursorWords {c : Chip} {m : Memory} {vs : List Word} (h : tableOk c = true)
    (hm : Memory.wf m = true) (hvs : vs.length = c.words.sum) {b w n : Nat} (hn : c.words[b]? = some n) (hw : w < n) :
    vs[(c.words.take b).sum + w]? = some (readWord (refillBank (cursorWords c) vs m) (flatAddr b (4 * w))) := by
  have hplace := cursorWords_getElem? hn hw
  have hlt : (c.words.take b).sum + w < vs.length := by
    rw [hvs, ← cursorWords_length]
    exact (List.getElem?_eq_some_iff.mp hplace).1
  have hv := List.getElem?_eq_getElem hlt
  rw [hv, readWord_refillBank hm (cursorWords_pairwise_apart h) hplace hv]

/-- Settles O59: the words the loop writes lie apart, so each keeps the value it was given and no other byte changes. -/
theorem resumeRefillsBanks : Obligations.ResumeRefillsBanks := by
  intro s hs hl
  obtain ⟨dummy, d, hrun⟩ := exec_resume_run hs hl
  refine ⟨_, dummy, hrun, rfl, rfl, rfl, rfl, fun b w n hn hw => ?_, fun a ha => ?_⟩
  · exact readWord_refillBank_cursorWords (hs.table (.inr (.inr hl))) hs.bankWf hs.backupLength hn hw
  · refine readByte_refillBank _ _ fun x hx => ?_
    obtain ⟨n, hn, hw⟩ := mem_cursorWords.mp hx
    exact ha x.1 x.2 n hn hw

/-! ### SUSPEND, a power loss, RESUME -/

/-- A mapped word is one of its bank's. -/
theorem word_lt_of_mapped {c : Chip} {b w : Nat} (h : mapped c b (4 * w) = true) :
    ∃ n, c.words[b]? = some n ∧ w < n := by
  obtain ⟨-, -, -, n, hn, hw⟩ := mapped_iff.mp h
  exact ⟨n, hn, by omega⟩

/-- Banks in canonical form that agree on every word of the chip and on every byte outside them are equal. -/
theorem memory_ext_of_words {c : Chip} {m m' : Memory} (hm : Memory.wf m = true) (hm' : Memory.wf m' = true)
    (hwords : ∀ b w n, c.words[b]? = some n → w < n →
      readWord m (flatAddr b (4 * w)) = readWord m' (flatAddr b (4 * w)))
    (hrest : ∀ a, (∀ b w n, c.words[b]? = some n → w < n →
        ¬ (flatAddr b (4 * w) ≤ a ∧ a < flatAddr b (4 * w) + 4)) → readByte m a = readByte m' a) : m = m' := by
  refine memory_ext hm hm' fun a => ?_
  by_cases h : ∃ b w n, c.words[b]? = some n ∧ w < n ∧ flatAddr b (4 * w) ≤ a ∧ a < flatAddr b (4 * w) + 4
  · obtain ⟨b, w, n, hn, hw, ha⟩ := h
    exact readByte_of_readWord (hwords b w n hn hw) ha
  · exact hrest a fun b w n hn hw ha => h ⟨b, w, n, hn, hw, ha⟩

/-- Settles O60: RESUME writes back the words SUSPEND read (O58, O59), and a byte outside them is changed by neither
RESUME nor the draw. -/
theorem suspendResumeRestoresBanks : Obligations.SuspendResumeRestoresBanks := by
  intro s draw hs hl hst hdraw
  obtain ⟨m, hsuspend, hrsp, hlc, hframe, -, -, hsaved⟩ := suspendDrainsBanks s hs hl
  have hchip : m.chip = s.chip := by rw [hframe]
  have hbank : m.bank = s.bank := by rw [hframe]
  have hm : (m.drawBanks draw).Inv := (exec_keeps_inv hs hsuspend).drawBanks draw
  obtain ⟨t, -, hresume, hrsp', hlc', -, -, hwords, hrest⟩ := resumeRefillsBanks (m.drawBanks draw) hm hlc
  refine ⟨m, t, hsuspend, by rw [hrsp], ?_, hresume, by rw [hrsp'], hlc', ?_⟩
  · rw [admitsPowerLoss, hlc, hchip, drawMapped, List.all_eq_true.mpr hdraw]
    rfl
  · have ht : t.Inv := exec_keeps_inv hm hresume
    rw [State.drawBanks_chip, hchip] at hwords hrest
    refine memory_ext_of_words (c := s.chip) ht.bankWf hs.bankWf (fun b w n hn hw => ?_) fun a ha => ?_
    · exact Option.some.inj ((hwords b w n hn hw).symm.trans (hsaved hst b w n hn hw))
    · rw [hrest a ha, State.drawBanks_bank, hbank]
      refine readByte_drawBank _ fun d hd => ?_
      obtain ⟨n, hn, hw⟩ := word_lt_of_mapped (hdraw d hd)
      exact ha d.bank d.word n hn hw

end Sys2Proof.Machine
end

section
/-! PROOFS. Exceptions (60_exceptions.md): FAULTED and the way out of it, the acceptance table, how a command ends and
what that does to LC, FAULT and the banks, the host's power loss, and which runs end FAULTED. -/

namespace Sys2Proof.Machine

/-! ### FAULTED -/

/-- In FAULTED every decoded command answers Fatal, whichever it is (R177). -/
theorem exec_faulted {s : State} (i : Instr) (h : s.lc = .faulted) : exec i s = .next (s.answer .fatal) := by
  obtain ⟨t, ht⟩ := exec_next i s
  rcases exec_cases ht with ⟨-, rfl⟩ | ⟨hne, -⟩ | ⟨hne, -⟩ | ⟨hne, -⟩
  · exact ht
  all_goals exact absurd h hne

/-- So does a command that does not decode: FAULTED is checked before legality (R88, R180). -/
theorem stepDelivered_faulted {s : State} (h : s.lc = .faulted) : stepDelivered s = .next (s.answer .fatal) := by
  unfold stepDelivered
  split
  · exact exec_faulted _ h
  · rw [illegalCommand_faulted h]

theorem step_command {s : State} {c : Command} {rest : List HostMove} (hh : s.host = .command c :: rest) :
    step s = stepDelivered ((s.afterMove rest).deliver c) := by
  unfold step
  rw [hh]

theorem admitsPowerLoss_iff {s : State} {draw : List BankDraw} : admitsPowerLoss s draw = true ↔
    s.lc = .suspended ∧ ∀ d ∈ draw, mapped s.chip d.bank (4 * d.word) = true := by
  simp [admitsPowerLoss, drawMapped]

/-- Settles O9: a command only answers, a power loss is not admitted, and the other moves are the two resets. -/
theorem faultedAnswersFatalUntilReset : Obligations.FaultedAnswersFatalUntilReset := by
  refine ⟨fun s c rest hl hh => (step_command hh).trans (stepDelivered_faulted hl), fun s t hl h => ?_⟩
  rcases step_cases h with ⟨-, rfl⟩ | ⟨c, rest, -, hd⟩ | ⟨draw, rest, -, ha, -⟩ | ⟨rest, hh, -⟩ | ⟨draw, rest, hh, -, -⟩
  · exact .inl hl
  · rw [stepDelivered_faulted (s := (s.afterMove rest).deliver c) hl] at hd
    cases hd
    exact .inl hl
  · cases hl.symm.trans (admitsPowerLoss_iff.mp ha).1
  · exact .inr ⟨rest, [], .inl hh⟩
  · exact .inr ⟨rest, draw, .inr hh⟩

/-! ### Power loss -/

/-- A word apart from all the words drawn reads as before. -/
theorem readWord_drawBank_apart {ds : List BankDraw} (m : Memory) {a : Nat}
    (h : ∀ d ∈ ds, a + 4 ≤ flatAddr d.bank (4 * d.word) ∨ flatAddr d.bank (4 * d.word) + 4 ≤ a) :
    readWord (drawBank ds m) a = readWord m a := by
  have hbyte : ∀ k, k < 4 → readByte (drawBank ds m) (a + k) = readByte m (a + k) := fun k hk =>
    readByte_drawBank m fun d hd => by
      have := h d hd
      omega
  unfold readWord
  rw [hbyte 3 (by decide), hbyte 2 (by decide), hbyte 1 (by decide)]
  exact congrArg _ (hbyte 0 (by decide))

/-- An entry holds after the draw when every later entry lies apart from it. -/
theorem readWord_drawBank_last {before after : List BankDraw} {d : BankDraw} {m : Memory} (hm : Memory.wf m = true)
    (h : ∀ e ∈ after, flatAddr d.bank (4 * d.word) + 4 ≤ flatAddr e.bank (4 * e.word) ∨
      flatAddr e.bank (4 * e.word) + 4 ≤ flatAddr d.bank (4 * d.word)) :
    readWord (drawBank (before ++ d :: after) m) (flatAddr d.bank (4 * d.word)) = d.value := by
  rw [drawBank_append, drawBank, readWord_drawBank_apart _ h, readWord_writeWord_same _ _ (wf_drawBank before hm)]

/-- Draws of different words of a checked table share no byte. -/
theorem draw_disjoint {c : Chip} (h : tableOk c = true) {d e : BankDraw}
    (hd : mapped c d.bank (4 * d.word) = true) (he : mapped c e.bank (4 * e.word) = true)
    (hne : (e.bank, e.word) ≠ (d.bank, d.word)) :
    flatAddr d.bank (4 * d.word) + 4 ≤ flatAddr e.bank (4 * e.word) ∨
      flatAddr e.bank (4 * e.word) + 4 ≤ flatAddr d.bank (4 * d.word) :=
  cursor_disjoint (x := (d.bank, d.word)) (y := (e.bank, e.word)) h (mem_cursorWords.mpr (word_lt_of_mapped hd))
    (mem_cursorWords.mpr (word_lt_of_mapped he)) hne.symm

theorem step_powerLoss {s : State} {draw : List BankDraw} {rest : List HostMove}
    (hh : s.host = .powerLoss draw :: rest) :
    step s = if admitsPowerLoss s draw then .next ((s.afterMove rest).drawBanks draw)
      else .fault .bankMoveNotAdmitted := by
  unfold step
  rw [hh]

/-- Settles O10: an admitted draw is its writes in order, of which the last to a word stays. -/
theorem powerLossReplacesBankWords : Obligations.PowerLossReplacesBankWords := by
  refine ⟨fun s draw rest hh hl hm => ⟨_, (step_powerLoss hh).trans (if_pos (admitsPowerLoss_iff.mpr ⟨hl, hm⟩)), rfl,
    fun a ha => readByte_drawBank _ ha, ?_, ?_⟩, fun s draw rest hh h => (step_powerLoss hh).trans (if_neg ?_)⟩
  · rintro hw d before rfl
    exact readWord_drawBank_last hw nofun
  · rintro hs d before after rfl hafter
    have ht := hs.table (.inr (.inr hl))
    exact readWord_drawBank_last hs.bankWf fun e he =>
      draw_disjoint ht (hm d (by simp)) (hm e (by simp [he])) (hafter e he)
  · rw [admitsPowerLoss_iff]
    rintro ⟨hl, hm⟩
    rcases h with h | ⟨d, hd, h⟩
    · exact h hl
    · simp [hm d hd] at h

/-! ### The acceptance table -/

theorem accepts_uninit_iff {op : Op} : accepts op .uninit = true ↔ op = .init := by cases op <;> decide

theorem accepts_parkPending_iff {op : Op} : accepts op .parkPending = true ↔ op = .clearParked := by
  cases op <;> decide

theorem accepts_suspended_iff {op : Op} : accepts op .suspended = true ↔ op ∈ [Op.groupCount, .groupName, .groupPins,
    .functionCount, .functionName, .functionGroups, .resume] := by cases op <;> decide

theorem op_ne_clearParked {i : Instr} (hi : i ≠ .clearParked) : i.op ≠ .clearParked := by
  cases i with
  | clearParked => exact absurd rfl hi
  | _ => nofun

/-- A command that the chip has and LC does not accept raises, whatever its operands (R176, R182). -/
theorem exec_notAccepted {i : Instr} {s : State} (hw : i.wellFormed s.chip.hasDumpGroup = true) (hf : s.lc ≠ .faulted)
    (ha : ¬ accepts i.op s.lc = true) : exec i s = .next (s.raise .sequenceError .sequence) := by
  have hd : i.op = .dumpGroup → s.chip.hasDumpGroup = true := by
    cases i with
    | dumpGroup g => exact fun _ => hw
    | _ => nofun
  rw [exec_eq_runCommand hd, runCommand_notAccepted hf (by simpa using ha)]

/-- Settles O15: each case of the statement is a row the acceptance table leaves out. -/
theorem outOfSequenceRaises : Obligations.OutOfSequenceRaises := by
  intro i s hw h
  suffices h : s.lc ≠ .faulted ∧ ¬ accepts i.op s.lc = true from exec_notAccepted hw h.1 h.2
  rcases h with ⟨hl, hi⟩ | ⟨hl, hi⟩ | ⟨hl, hi⟩ | ⟨hl, hi⟩ <;> rw [hl] <;> refine ⟨nofun, ?_⟩
  · exact mt accepts_uninit_iff.mp (op_ne_init hi)
  · exact mt accepts_parkPending_iff.mp (op_ne_clearParked hi)
  · rcases hi with rfl | rfl | rfl <;> decide
  · exact mt accepts_suspended_iff.mp hi

/-! ### How a body fails -/

/-- The statuses that leave LC and FAULT alone (R172). -/
def Status.NonLatching (st : Status) : Prop :=
  st = .invalidArgument ∨ st = .unsupported ∨ st = .notFound ∨ st = .illegalCommand

/-- The body goes on from every state. -/
def Completes {α : Type} (x : M α) : Prop := ∀ s, ∃ a t, x s = .ok a t

theorem completes_pure {α : Type} (a : α) : Completes (pure a : M α) := fun s => ⟨a, s, rfl⟩

theorem completes_respond (ws : List Word) (ns : List Name) : Completes (respond ws ns) := fun s => ⟨_, s, rfl⟩

/-- The last steps of a body that moves LC. -/
theorem completes_moveOn (lc : Lifecycle) : Completes (setLifecycle lc >>= fun _ => respond [] []) :=
  fun _ => ⟨_, _, rfl⟩

theorem completes_barrier : Completes barrier := fun _ => ⟨_, _, rfl⟩

theorem completes_bind {α β : Type} {x : M α} {f : α → M β} (hx : Completes x) (hf : ∀ a, Completes (f a)) :
    Completes (x >>= f) := by
  intro s
  obtain ⟨a, t, h⟩ := hx s
  rw [bind_run_ok h]
  exact hf a t

/-- INIT after its table check (R150). -/
theorem completes_afterCheck (c : Chip) :
    Completes (zeroBuffers c >>= fun _ => buildIndex c >>= fun _ =>
      setLifecycle .parkPending >>= fun _ => respond [] []) :=
  completes_bind (fun _ => ⟨_, _, rfl⟩) fun _ =>
    completes_bind (fun s => ⟨_, _, buildIndex_run c s⟩) fun _ => completes_moveOn _

/-- Whenever the body fails without raising, its status is one of `A`. -/
def FailsWithin {α : Type} (A : Status → Prop) (x : M α) : Prop := ∀ s st t, x s = .error (.failed st) t → A st

section steps
variable {α β : Type} {A : Status → Prop}

theorem failsWithin_of_completes {x : M α} (h : Completes x) : FailsWithin A x := by
  intro s st t he
  obtain ⟨a, u, hok⟩ := h s
  cases hok.symm.trans he

theorem failsWithin_pure (a : α) : FailsWithin A (pure a : M α) := failsWithin_of_completes (completes_pure a)

theorem failsWithin_respond (ws : List Word) (ns : List Name) : FailsWithin A (respond ws ns) :=
  failsWithin_of_completes (completes_respond ws ns)

theorem failsWithin_moveOn (lc : Lifecycle) : FailsWithin A (setLifecycle lc >>= fun _ => respond [] []) :=
  failsWithin_of_completes (completes_moveOn lc)

theorem failsWithin_raiseFatal (c : FaultCause) : FailsWithin A (raiseFatal c : M α) := by
  intro s st t he
  rw [raiseFatal_run] at he
  cases he

theorem failsWithin_failWith {st : Status} (h : A st) : FailsWithin A (failWith st : M α) := by
  intro s _ t he
  rw [failWith_run] at he
  cases he
  exact h

theorem failsWithin_bind {x : M α} {f : α → M β} (hx : FailsWithin A x) (hf : ∀ a, FailsWithin A (f a)) :
    FailsWithin A (x >>= f) := by
  intro s st u hu
  rcases bind_run_cases x f s with ⟨a, t, -, e⟩ | ⟨er, t, h, e⟩ <;> rw [e] at hu
  · exact hf a t st u hu
  · cases hu
    exact hx s st u h

/-! Bodies that can only raise. -/

theorem failsWithin_memRead (b o : Int) : FailsWithin A (memRead b o) := by
  intro s st t
  unfold memRead
  split <;> nofun

theorem failsWithin_memWrite (b o : Int) (v : Word) : FailsWithin A (memWrite b o v) := by
  intro s st t
  unfold memWrite
  split <;> nofun

theorem failsWithin_regWrite (b o : Int) (v : Word) : FailsWithin A (regWrite b o v) :=
  failsWithin_bind (failsWithin_memWrite b o v) fun _ => failsWithin_bind (failsWithin_memRead b o) fun _ =>
    failsWithin_pure _

theorem failsWithin_modify (b o : Int) (f : Word → Word) :
    FailsWithin A (memRead b o >>= fun v => regWrite b o (f v)) :=
  failsWithin_bind (failsWithin_memRead b o) fun _ => failsWithin_regWrite b o _

theorem failsWithin_writeBackup (k : Nat) (v : Word) : FailsWithin A (writeBackup k v) := by
  intro s st t
  unfold writeBackup
  split <;> nofun

theorem failsWithin_readBackup (k : Nat) : FailsWithin A (readBackup k) := by
  intro s st t
  unfold readBackup
  split <;> nofun

theorem failsWithin_savePin (p : Nat) (v : Word) : FailsWithin A (savePin p v) := by
  intro s st t
  unfold savePin
  split <;> nofun

theorem failsWithin_savedPin (p : Nat) : FailsWithin A (savedPin p) := by
  intro s st t
  unfold savedPin
  split <;> nofun

theorem failsWithin_readIndex (f : Nat) : FailsWithin A (readIndex f) := by
  intro s st t
  unfold readIndex
  split <;> nofun

theorem failsWithin_groupAt (c : Chip) (i : Nat) : FailsWithin A (groupAt c i) := by
  unfold groupAt
  split
  · exact failsWithin_pure _
  · exact failsWithin_raiseFatal _

theorem failsWithin_functionAt (c : Chip) (i : Nat) : FailsWithin A (functionAt c i) := by
  unfold functionAt
  split
  · exact failsWithin_pure _
  · exact failsWithin_raiseFatal _

theorem failsWithin_groupNames (c : Chip) (is : List Nat) : FailsWithin A (groupNames c is) := by
  induction is with
  | nil => exact failsWithin_pure _
  | cons i is ih =>
    exact failsWithin_bind (failsWithin_groupAt c i) fun _ => failsWithin_bind ih fun _ => failsWithin_pure _

theorem failsWithin_functionGroupsBody (c : Chip) (i : Nat) : FailsWithin A (functionGroupsBody c i) :=
  failsWithin_bind (failsWithin_functionAt c i) fun _ => failsWithin_bind (failsWithin_readIndex i) fun gs =>
    failsWithin_bind (failsWithin_groupNames c gs) fun _ => failsWithin_respond _ _

theorem failsWithin_readParam (p : Param) (r : Resolved) : FailsWithin A (readParam p r) :=
  failsWithin_bind (failsWithin_memRead _ _) fun _ => failsWithin_pure _

theorem failsWithin_dumpNames (c : Chip) (g : GroupDesc) (p : Param) (v : Word) :
    FailsWithin A (dumpNames c g p v) := by
  unfold dumpNames
  split
  · refine failsWithin_bind ?_ fun _ => failsWithin_pure _
    unfold slotName
    split
    · exact failsWithin_pure _
    · exact failsWithin_bind (failsWithin_functionAt c _) fun _ => failsWithin_pure _
  · exact failsWithin_pure _

theorem failsWithin_dumpParams (c : Chip) (g : GroupDesc) (ps : List Param) : FailsWithin A (dumpParams c g ps) := by
  induction ps with
  | nil => exact failsWithin_respond _ _
  | cons p ps ih =>
    unfold dumpParams
    split
    · exact ih
    · exact failsWithin_raiseFatal _
    · exact failsWithin_bind (failsWithin_readParam p _) fun v =>
        failsWithin_bind (failsWithin_dumpNames c g p v) fun _ =>
          failsWithin_bind ih fun _ => failsWithin_respond _ _

theorem failsWithin_clearIfParked (g : GroupDesc) : FailsWithin A (clearIfParked g) := by
  unfold clearIfParked
  split
  · unfold clearGroup
    split
    · exact failsWithin_raiseFatal _
    · exact failsWithin_modify _ _ _
  · exact failsWithin_pure _

theorem failsWithin_clearGroups (gs : List GroupDesc) : FailsWithin A (clearGroups gs) := by
  induction gs with
  | nil => exact failsWithin_pure _
  | cons g gs ih => exact failsWithin_bind (failsWithin_clearIfParked g) fun _ => ih

theorem failsWithin_drainWords (ws : List (Nat × Nat)) (k : Nat) : FailsWithin A (drainWords ws k) := by
  induction ws generalizing k with
  | nil => exact failsWithin_pure _
  | cons w ws ih =>
    exact failsWithin_bind (failsWithin_memRead _ _) fun v =>
      failsWithin_bind (failsWithin_writeBackup k v) fun _ => ih (k + 1)

theorem failsWithin_refillWords (ws : List (Nat × Nat)) (k : Nat) : FailsWithin A (refillWords ws k) := by
  induction ws generalizing k with
  | nil => exact failsWithin_pure _
  | cons w ws ih =>
    exact failsWithin_bind (failsWithin_readBackup k) fun v =>
      failsWithin_bind (failsWithin_memWrite _ _ v) fun _ => ih (k + 1)

theorem failsWithin_initBody (c : Chip) : FailsWithin A (initBody c) := by
  unfold initBody
  split
  · exact failsWithin_of_completes (completes_afterCheck c)
  · exact failsWithin_raiseFatal _

theorem failsWithin_resumeBody (c : Chip) : FailsWithin A (resumeBody c) :=
  failsWithin_bind (failsWithin_refillWords _ _) fun _ => failsWithin_bind (failsWithin_memRead _ _) fun _ =>
    failsWithin_bind (failsWithin_of_completes completes_barrier) fun _ => failsWithin_moveOn _

/-! Bodies that can fail: `A` has the statuses of R172. -/

variable (hA : ∀ st : Status, st.NonLatching → A st)
include hA

theorem failsWithin_invalidArgument : FailsWithin A (failWith .invalidArgument : M α) :=
  failsWithin_failWith (hA _ (.inl rfl))

theorem failsWithin_unsupported : FailsWithin A (failWith .unsupported : M α) :=
  failsWithin_failWith (hA _ (.inr (.inl rfl)))

theorem failsWithin_singlePinGroup (c : Chip) (p : Nat) : FailsWithin A (singlePinGroup c p) := by
  unfold singlePinGroup
  split
  · exact failsWithin_pure _
  · exact failsWithin_failWith (hA _ (.inr (.inr (.inl rfl))))

theorem failsWithin_namedGroup (c : Chip) (n : Name) : FailsWithin A (namedGroup c n) := by
  unfold namedGroup
  split
  · exact failsWithin_pure _
  · exact failsWithin_invalidArgument hA

theorem failsWithin_namedFunction (c : Chip) (n : Name) : FailsWithin A (namedFunction c n) := by
  unfold namedFunction
  split
  · exact failsWithin_pure _
  · exact failsWithin_invalidArgument hA

theorem failsWithin_resolveTag (c : Chip) (g : GroupDesc) (tag : Half) : FailsWithin A (resolveTag c g tag) := by
  unfold resolveTag
  split
  · exact failsWithin_unsupported hA
  · split
    · exact failsWithin_pure _
    · exact failsWithin_unsupported hA
    · exact failsWithin_raiseFatal _

theorem failsWithin_muxBody (c : Chip) (f : Nat) (g : GroupDesc) : FailsWithin A (muxBody c f g) := by
  unfold muxBody
  split
  · split
    · exact failsWithin_invalidArgument hA
    · split
      · exact failsWithin_raiseFatal _
      · exact failsWithin_bind (failsWithin_memRead _ _) fun _ =>
          failsWithin_bind (failsWithin_regWrite _ _ _) fun _ => failsWithin_respond _ _
  · exact failsWithin_unsupported hA

theorem failsWithin_applyMuxBody (c : Chip) (n : Name) (f : Option Name) : FailsWithin A (applyMuxBody c n f) :=
  failsWithin_bind (failsWithin_namedGroup hA c n) fun g => by
    split
    · exact failsWithin_respond _ _
    · exact failsWithin_bind (failsWithin_namedFunction hA c _) fun f => failsWithin_muxBody hA c f g

theorem failsWithin_confGetBody (c : Chip) (i : Nat) (tag : Half) : FailsWithin A (confGetBody c i tag) :=
  failsWithin_bind (failsWithin_groupAt c i) fun g => failsWithin_bind (failsWithin_resolveTag hA c g tag) fun t =>
    failsWithin_bind (failsWithin_readParam t.param t.field) fun _ => failsWithin_respond _ _

theorem failsWithin_lockGuard (p : Param) (r : Resolved) (v : Word) : FailsWithin A (lockGuard p r v) := by
  unfold lockGuard lockCheck
  split
  · refine failsWithin_bind (failsWithin_memRead _ _) fun _ => ?_
    split
    · exact failsWithin_invalidArgument hA
    · exact failsWithin_pure _
  · exact failsWithin_pure _

theorem failsWithin_writeField (r : Resolved) (v : Word) : FailsWithin A (writeField r v) := by
  unfold writeField
  split
  · exact failsWithin_invalidArgument hA
  · exact failsWithin_modify _ _ _

theorem failsWithin_setEach (c : Chip) (g : GroupDesc) (es : List ConfWord) : FailsWithin A (setEach c g es) := by
  induction es with
  | nil => exact failsWithin_pure _
  | cons e es ih =>
    refine failsWithin_bind ?_ fun _ => ih
    exact failsWithin_bind (failsWithin_resolveTag hA c g e.tag) fun t =>
      failsWithin_bind (failsWithin_lockGuard hA t.param t.field _) fun _ => failsWithin_writeField hA t.field _

theorem failsWithin_confSetGroup (c : Chip) (g : GroupDesc) (es : List ConfWord) :
    FailsWithin A (confSetGroup c g es) :=
  failsWithin_bind (failsWithin_setEach hA c g es) fun _ => failsWithin_respond _ _

theorem failsWithin_saveBody (c : Chip) (p : Nat) : FailsWithin A (saveBody c p) :=
  failsWithin_bind (failsWithin_singlePinGroup hA c p) fun _ => by
    split
    · exact failsWithin_bind (failsWithin_memRead _ _) fun v => failsWithin_savePin p v
    · exact failsWithin_pure _

theorem failsWithin_restoreBody (c : Chip) (p : Nat) : FailsWithin A (restoreBody c p) :=
  failsWithin_bind (failsWithin_singlePinGroup hA c p) fun _ => by
    split
    · exact failsWithin_bind (failsWithin_savedPin p) fun _ =>
        failsWithin_bind (failsWithin_regWrite _ _ _) fun _ => failsWithin_respond _ _
    · exact failsWithin_respond _ _

theorem failsWithin_takeGpio (g : GroupDesc) : FailsWithin A (takeGpio g) := by
  unfold takeGpio
  split
  · exact failsWithin_bind (failsWithin_memRead _ _) fun _ =>
      failsWithin_bind (failsWithin_regWrite _ _ _) fun _ => failsWithin_respond _ _
  · exact failsWithin_invalidArgument hA

theorem failsWithin_gpioRequestBody (c : Chip) (p : Nat) : FailsWithin A (gpioRequestBody c p) :=
  failsWithin_bind (failsWithin_saveBody hA c p) fun _ => by
    split
    · exact failsWithin_bind (failsWithin_singlePinGroup hA c p) fun g => failsWithin_takeGpio hA g
    · exact failsWithin_respond _ _

end steps

/-- A command's body fails with a status of R172 only, and the four that move LC only raise. -/
theorem instrBody_failsWithin (c : Chip) (i : Instr) :
    FailsWithin (fun st => lifecycleAfter i = none ∧ st.NonLatching) (instrBody c i) := by
  have hA (hi : lifecycleAfter i = none) (st : Status) (hst : st.NonLatching) :
      lifecycleAfter i = none ∧ st.NonLatching := ⟨hi, hst⟩
  cases i with
  | init => exact failsWithin_initBody c
  | clearParked => exact failsWithin_bind (failsWithin_clearGroups _) fun _ => failsWithin_moveOn _
  | suspend => exact failsWithin_bind (failsWithin_drainWords _ _) fun _ => failsWithin_moveOn _
  | resume => exact failsWithin_resumeBody c
  | groupCount | functionCount => exact failsWithin_respond _ _
  | groupName | groupPins => exact failsWithin_bind (failsWithin_groupAt c _) fun _ => failsWithin_respond _ _
  | functionName => exact failsWithin_bind (failsWithin_functionAt c _) fun _ => failsWithin_respond _ _
  | functionGroups => exact failsWithin_functionGroupsBody c _
  | dumpGroup => exact failsWithin_bind (failsWithin_groupAt c _) fun g => failsWithin_dumpParams c g _
  | setMux f =>
    exact failsWithin_bind (failsWithin_groupAt c _) fun g => failsWithin_muxBody (hA rfl) c f.toNat g
  | confGet => exact failsWithin_confGetBody (hA rfl) c _ _
  | confSet =>
    exact failsWithin_bind (failsWithin_groupAt c _) fun g => failsWithin_confSetGroup (hA rfl) c g _
  | applyMuxNamed => exact failsWithin_applyMuxBody (hA rfl) c _ _
  | applyConfNamed =>
    exact failsWithin_bind (failsWithin_namedGroup (hA rfl) c _) fun g => failsWithin_confSetGroup (hA rfl) c g _
  | saveConfig =>
    exact failsWithin_bind (failsWithin_saveBody (hA rfl) c _) fun _ => failsWithin_respond _ _
  | restoreConfig | gpioDisableFree => exact failsWithin_restoreBody (hA rfl) c _
  | gpioRequestEnable => exact failsWithin_gpioRequestBody (hA rfl) c _

/-! ### The lifecycle after a command -/

/-- A body that completes leaves LC at `lc`. -/
def LeavesIn {α : Type} (lc : Lifecycle) (x : M α) : Prop := ∀ s a t, x s = .ok a t → t.lc = lc

theorem leavesIn_moveOn (lc : Lifecycle) : LeavesIn lc (setLifecycle lc >>= fun _ => respond [] []) := by
  intro s a t he
  rw [bind_run_ok (setLifecycle_run lc s), respond_run] at he
  cases he
  rfl

theorem leavesIn_bind {α β : Type} {lc : Lifecycle} (x : M α) {f : α → M β} (hf : ∀ a, LeavesIn lc (f a)) :
    LeavesIn lc (x >>= f) := by
  intro s b u hu
  rcases bind_run_cases x f s with ⟨a, t, -, e⟩ | ⟨er, t, -, e⟩ <;> rw [e] at hu
  · exact hf a t b u hu
  · cases hu

/-- The four bodies that move LC end with the move (R183). -/
theorem instrBody_leavesIn {c : Chip} {i : Instr} {lc : Lifecycle} (hi : lifecycleAfter i = some lc) :
    LeavesIn lc (instrBody c i) := by
  cases i with
  | init =>
    cases hi
    show LeavesIn _ (initBody c)
    unfold initBody
    split
    · exact leavesIn_bind _ fun _ => leavesIn_bind _ fun _ => leavesIn_moveOn _
    · intro s a t he
      rw [raiseFatal_run] at he
      cases he
  | clearParked | suspend =>
    cases hi
    exact leavesIn_bind _ fun _ => leavesIn_moveOn _
  | resume =>
    cases hi
    exact leavesIn_bind _ fun _ => leavesIn_bind _ fun _ => leavesIn_bind _ fun _ => leavesIn_moveOn _
  | _ => cases hi

/-- No step of the other bodies writes LC. -/
theorem lc_keptByBody {i : Instr} (hi : lifecycleAfter i = none) : KeptByBody i fun s t => t.lc = s.lc where
  refl _ := rfl
  trans h₁ h₂ := h₂.trans h₁
  read _ _ _ _ := rfl
  update _ _ _ _ _ := rfl
  init h _ := by
    subst h
    cases hi
  lifecycle _ h _ := nomatch hi.symm.trans h
  pin _ _ _ _ := rfl
  backup _ _ _ _ := rfl
  write _ _ _ _ _ _ := rfl
  barrier _ _ := rfl

/-- LC after a body that completes (R183). -/
theorem instrBody_ok_lc {i : Instr} {s t : State} {r : Reply} (h : instrBody s.chip i s = .ok r t) :
    t.lc = (lifecycleAfter i).getD s.lc := by
  cases hi : lifecycleAfter i with
  | none =>
    have hkept := (lc_keptByBody hi).instrBody_relates s
    rwa [h] at hkept
  | some lc => exact instrBody_leavesIn hi s r t h

/-- A body that fails without raising has moved neither LC nor the latch, and its status is one of R172. -/
theorem instrBody_failed {i : Instr} {s t : State} {st : Status} (h : instrBody s.chip i s = .error (.failed st) t) :
    st.NonLatching ∧ t.lc = s.lc ∧ t.fault = s.fault := by
  obtain ⟨hi, hst⟩ := instrBody_failsWithin s.chip i s st t h
  have hlc := (lc_keptByBody hi).instrBody_relates s
  have hlatch := (latchUntouched_keptByBody i).instrBody_relates s
  rw [h] at hlc hlatch
  exact ⟨hst, hlc, hlatch.1⟩

theorem LatchKind.status_latches (k : LatchKind) : k.status.latches = true := by cases k <;> rfl

/-- How a command can end, and where LC is then: a latching status in FAULTED, a status of R172 with LC and FAULT as they
were, or OK after the command's own move, if it has one (R172, R176, R183). -/
theorem exec_ends {i : Instr} {s t : State} (he : exec i s = .next t) :
    (t.rsp.status.latches = true ∧ t.lc = .faulted) ∨
    (t.rsp.status.NonLatching ∧ s.lc ≠ .faulted ∧ t.lc = s.lc ∧ t.fault = s.fault) ∨
    (t.rsp.status = .ok ∧ accepts i.op s.lc = true ∧ t.lc = (lifecycleAfter i).getD s.lc) := by
  rcases exec_cases he with ⟨hl, rfl⟩ | ⟨hl, -, -, rfl⟩ | ⟨-, -, rfl⟩ | ⟨hl, ha, rfl⟩
  · exact .inl ⟨rfl, hl⟩
  · exact .inr (.inl ⟨.inr (.inr (.inr rfl)), hl, rfl, rfl⟩)
  · exact .inl ⟨rfl, rfl⟩
  · cases hbody : instrBody s.chip i s with
    | ok r u =>
      have hlc := instrBody_ok_lc hbody
      exact .inr (.inr ⟨rfl, ha, hlc⟩)
    | error e u =>
      cases e with
      | failed st =>
        obtain ⟨hst, hlc, hfault⟩ := instrBody_failed hbody
        exact .inr (.inl ⟨hst, hl, hlc, hfault⟩)
      | raised k c => exact .inl ⟨k.status_latches, rfl⟩

theorem latches_iff {st : Status} : st.latches = true ↔ st = .fatal ∨ st = .sequenceError := by
  simp [Status.latches]

theorem Status.NonLatching.not_latches {st : Status} (h : st.NonLatching) : ¬ st.latches = true := by
  rcases h with rfl | rfl | rfl | rfl <;> decide

theorem Status.NonLatching.ne_ok {st : Status} (h : st.NonLatching) : st ≠ .ok := by
  rcases h with rfl | rfl | rfl | rfl <;> decide

/-- No command that completes leaves FAULTED behind. -/
theorem lifecycleAfter_getD_ne_faulted {i : Instr} {lc : Lifecycle} (ha : accepts i.op lc = true) :
    (lifecycleAfter i).getD lc ≠ .faulted := by
  cases hi : lifecycleAfter i with
  | none =>
    rintro rfl
    simp [accepts_faulted] at ha
  | some lc' =>
    rintro rfl
    exact lifecycleAfter_ne_faulted i hi

/-- A command ends in FAULTED exactly when its status latches (R176, R177). -/
theorem exec_lc_faulted_iff {i : Instr} {s t : State} (he : exec i s = .next t) :
    t.lc = .faulted ↔ t.rsp.status.latches = true := by
  rcases exec_ends he with ⟨hst, hlc⟩ | ⟨hst, hl, hlc, -⟩ | ⟨hst, ha, hlc⟩
  · exact iff_of_true hlc hst
  · exact iff_of_false (hlc ▸ hl) hst.not_latches
  · exact iff_of_false (hlc ▸ lifecycleAfter_getD_ne_faulted ha) (by rw [hst]; decide)

/-- The moves of the graph (R183), read off an accepted command and where it leaves LC. -/
theorem lifecycle_moves {i : Instr} {lc lc' : Lifecycle} (ha : accepts i.op lc = true)
    (h : lc' = (lifecycleAfter i).getD lc) :
    (i = .init ∧ lc = .uninit ∧ lc' = .parkPending) ∨ (i = .clearParked ∧ lc = .parkPending ∧ lc' = .ready) ∨
      (i = .suspend ∧ lc = .ready ∧ lc' = .suspended) ∨ (i = .resume ∧ lc = .suspended ∧ lc' = .ready) ∨
      (i ≠ .init ∧ i ≠ .clearParked ∧ i ≠ .suspend ∧ i ≠ .resume ∧ lc' = lc) := by
  cases i with
  | init => exact .inl ⟨rfl, of_decide_eq_true ha, h⟩
  | clearParked => exact .inr (.inl ⟨rfl, of_decide_eq_true ha, h⟩)
  | suspend => exact .inr (.inr (.inl ⟨rfl, of_decide_eq_true ha, h⟩))
  | resume => exact .inr (.inr (.inr (.inl ⟨rfl, of_decide_eq_true ha, h⟩)))
  | _ => exact .inr (.inr (.inr (.inr ⟨nofun, nofun, nofun, nofun, h⟩)))

/-- Settles O14: FAULTED goes with a latching status, OK with the command's own move, and nothing else moves LC. -/
theorem lifecycleGraph : Obligations.LifecycleGraph := by
  intro i s t he
  refine ⟨(exec_lc_faulted_iff he).trans latches_iff, fun hok => ?_, fun hne hf => ?_⟩
  · rcases exec_ends he with ⟨hst, -⟩ | ⟨hst, -⟩ | ⟨-, ha, hlc⟩
    · rw [hok] at hst
      cases hst
    · exact absurd hok hst.ne_ok
    · exact lifecycle_moves ha hlc
  · rcases exec_ends he with ⟨-, hlc⟩ | ⟨-, -, hlc, -⟩ | ⟨hok, -⟩
    · exact absurd hlc hf
    · exact hlc
    · exact absurd hok hne

/-- Settles O16: of the three ways a command ends, one has such a status. -/
theorem nonLatchingErrorsKeepLifecycle : Obligations.NonLatchingErrorsKeepLifecycle := by
  intro i s t he hst
  have h : t.rsp.status.NonLatching := hst
  rcases exec_ends he with ⟨hl, -⟩ | ⟨-, -, hkept⟩ | ⟨hok, -⟩
  · exact absurd hl h.not_latches
  · exact hkept
  · exact absurd hok h.ne_ok

/-! ### The banks after a command that fails -/

/-- The banks are as they were. -/
def SameBank (s t : State) : Prop := t.bank = s.bank

theorem sameBank_composes : Composes SameBank where
  refl _ := rfl
  trans h₁ h₂ := h₂.trans h₁

/-- A body that stops has left the banks alone: what R173 says of every command but a list of entries. -/
def FailsClean {α : Type} (x : M α) : Prop := ∀ s e t, x s = .error e t → t.bank = s.bank

section clean
variable {α β : Type}

theorem failsClean_of_completes {x : M α} (h : Completes x) : FailsClean x := by
  intro s e t he
  obtain ⟨a, u, hok⟩ := h s
  cases hok.symm.trans he

theorem failsClean_of_sameBank {x : M α} (h : Relates SameBank x) : FailsClean x := by
  intro s e t he
  have hs := h s
  rwa [he] at hs

/-- Steps that leave the banks alone, before a body that fails clean. -/
theorem failsClean_bind {x : M α} {f : α → M β} (hx : Relates SameBank x) (hf : ∀ a, FailsClean (f a)) :
    FailsClean (x >>= f) := by
  intro s e u hu
  have hs := hx s
  rcases bind_run_cases x f s with ⟨a, t, h, he⟩ | ⟨er, t, h, he⟩ <;> rw [he] at hu <;> rw [h] at hs
  · exact (hf a t e u hu).trans hs
  · cases hu
    exact hs

/-- A body that fails clean, before steps that do not stop. -/
theorem failsClean_bind_completes {x : M α} {f : α → M β} (hx : FailsClean x) (hf : ∀ a, Completes (f a)) :
    FailsClean (x >>= f) := by
  intro s e u hu
  rcases bind_run_cases x f s with ⟨a, t, -, he⟩ | ⟨er, t, h, he⟩ <;> rw [he] at hu
  · obtain ⟨b, v, hok⟩ := hf a t
    cases hok.symm.trans hu
  · cases hu
    exact hx s e u h

theorem sameBank_memRead (b o : Int) : Relates SameBank (memRead b o) :=
  relates_memRead sameBank_composes (fun _ _ _ _ => rfl) b o

theorem sameBank_readParam (p : Param) (r : Resolved) : Relates SameBank (readParam p r) :=
  relates_bind sameBank_composes (sameBank_memRead _ _) fun _ => relates_pure sameBank_composes _

theorem sameBank_dumpParams (c : Chip) (g : GroupDesc) (ps : List Param) : Relates SameBank (dumpParams c g ps) := by
  induction ps with
  | nil => exact relates_respond sameBank_composes _ _
  | cons p ps ih =>
    unfold dumpParams
    split
    · exact ih
    · exact relates_raiseFatal sameBank_composes _
    · exact relates_bind sameBank_composes (sameBank_readParam p _) fun v =>
        relates_bind sameBank_composes (relates_dumpNames sameBank_composes c g p v) fun _ =>
          relates_bind sameBank_composes ih fun _ => relates_respond sameBank_composes _ _

theorem sameBank_lockGuard (p : Param) (r : Resolved) (v : Word) : Relates SameBank (lockGuard p r v) := by
  unfold lockGuard lockCheck
  split
  · refine relates_bind sameBank_composes (sameBank_memRead _ _) fun _ => ?_
    split
    · exact relates_failWith sameBank_composes _
    · exact relates_pure sameBank_composes _
  · exact relates_pure sameBank_composes _

theorem sameBank_saveBody (c : Chip) (p : Nat) : Relates SameBank (saveBody c p) :=
  relates_bind sameBank_composes (relates_singlePinGroup sameBank_composes c p) fun _ => by
    split
    · refine relates_bind sameBank_composes (sameBank_memRead _ _) fun v s => ?_
      unfold savePin
      split <;> rfl
    · exact relates_pure sameBank_composes _

/-- A register write checks its location first, and once it has written it does not stop (R56, R57). -/
theorem failsClean_regWrite (b o : Int) (v : Word) : FailsClean (regWrite b o v) := by
  intro s e t he
  by_cases hm : mapped s.chip b o = true
  · rw [regWrite_mapped hm] at he
    cases he
  · rw [regWrite_unmapped hm] at he
    cases he
    rfl

/-- A read-modify-write and its answer, as R121 and R142 end. -/
theorem failsClean_modify_respond (b o : Int) (f : Word → Word) :
    FailsClean (memRead b o >>= fun v => regWrite b o (f v) >>= fun _ => respond [] []) :=
  failsClean_bind (sameBank_memRead b o) fun _ => failsClean_bind_completes (failsClean_regWrite b o _) fun _ =>
    completes_respond _ _

theorem failsClean_muxBody (c : Chip) (f : Nat) (g : GroupDesc) : FailsClean (muxBody c f g) := by
  unfold muxBody
  split
  · split
    · exact failsClean_of_sameBank (relates_failWith sameBank_composes _)
    · split
      · exact failsClean_of_sameBank (relates_raiseFatal sameBank_composes _)
      · exact failsClean_modify_respond _ _ _
  · exact failsClean_of_sameBank (relates_failWith sameBank_composes _)

theorem failsClean_applyMuxBody (c : Chip) (n : Name) (f : Option Name) : FailsClean (applyMuxBody c n f) :=
  failsClean_bind (relates_namedGroup sameBank_composes c n) fun g => by
    split
    · exact failsClean_of_sameBank (relates_respond sameBank_composes _ _)
    · exact failsClean_bind (relates_namedFunction sameBank_composes c _) fun f => failsClean_muxBody c f g

/-- An entry writes its register last (R129). -/
theorem failsClean_setOne (c : Chip) (g : GroupDesc) (w : ConfWord) : FailsClean (setOne c g w) :=
  failsClean_bind (relates_resolveTag sameBank_composes c g w.tag) fun t =>
    failsClean_bind (sameBank_lockGuard t.param t.field _) fun _ => by
      unfold writeField
      split
      · exact failsClean_of_sameBank (relates_failWith sameBank_composes _)
      · exact failsClean_bind (sameBank_memRead _ _) fun _ => failsClean_regWrite _ _ _

/-- A list of at most one entry has no entry that could fail after another's write. -/
theorem failsClean_confSetGroup (c : Chip) (g : GroupDesc) {es : List ConfWord} (h : es.length ≤ 1) :
    FailsClean (confSetGroup c g es) := by
  refine failsClean_bind_completes ?_ fun _ => completes_respond _ _
  match es, h with
  | [], _ => exact failsClean_of_sameBank (relates_pure sameBank_composes _)
  | [w], _ => exact failsClean_bind_completes (failsClean_setOne c g w) fun _ => completes_pure _

theorem failsClean_restoreBody (c : Chip) (p : Nat) : FailsClean (restoreBody c p) :=
  failsClean_bind (relates_singlePinGroup sameBank_composes c p) fun _ => by
    split
    · exact failsClean_bind (relates_savedPin sameBank_composes p) fun _ =>
        failsClean_bind_completes (failsClean_regWrite _ _ _) fun _ => completes_respond _ _
    · exact failsClean_of_sameBank (relates_respond sameBank_composes _ _)

theorem failsClean_gpioRequestBody (c : Chip) (p : Nat) : FailsClean (gpioRequestBody c p) :=
  failsClean_bind (sameBank_saveBody c p) fun _ => by
    split
    · refine failsClean_bind (relates_singlePinGroup sameBank_composes c p) fun g => ?_
      unfold takeGpio
      split
      · exact failsClean_modify_respond _ _ _
      · exact failsClean_of_sameBank (relates_failWith sameBank_composes _)
    · exact failsClean_of_sameBank (relates_respond sameBank_composes _ _)

end clean

/-- From a state with the invariant the commands that move LC after a loop over the banks complete (O34, O58, O59). -/
theorem exec_loop_ok {i : Instr} {s t : State} (hs : s.Inv) (hi : i = .clearParked ∨ i = .suspend ∨ i = .resume)
    (ha : accepts i.op s.lc = true) (he : exec i s = .next t) : t.rsp.status = .ok := by
  rcases hi with rfl | rfl | rfl
  · obtain ⟨u, reads, hrun, -⟩ := exec_clearParked_run hs (of_decide_eq_true ha)
    cases hrun.symm.trans he
    rfl
  · obtain ⟨vs, d, -, hrun, -⟩ := exec_suspend_run hs (of_decide_eq_true ha)
    cases hrun.symm.trans he
    rfl
  · obtain ⟨dummy, d, hrun⟩ := exec_resume_run hs (of_decide_eq_true ha)
    cases hrun.symm.trans he
    rfl

/-- The commands without such a loop, and with at most one entry, write a register as their last step or not at all. -/
theorem instrBody_failsClean {c : Chip} {i : Instr} (hloop : ¬ (i = .clearParked ∨ i = .suspend ∨ i = .resume))
    (hset : ∀ x es, i = .confSet x es → es.length ≤ 1) (happly : ∀ n es, i = .applyConfNamed n es → es.length ≤ 1) :
    FailsClean (instrBody c i) := by
  have hc := sameBank_composes
  cases i with
  | clearParked | suspend | resume => simp at hloop
  | init =>
    show FailsClean (initBody c)
    unfold initBody
    split
    · exact failsClean_of_completes (completes_afterCheck c)
    · exact failsClean_of_sameBank (relates_raiseFatal hc _)
  | groupCount | functionCount => exact failsClean_of_sameBank (relates_respond hc _ _)
  | groupName => exact failsClean_of_sameBank (relates_groupNameBody hc c _)
  | groupPins => exact failsClean_of_sameBank (relates_groupPinsBody hc c _)
  | functionName => exact failsClean_of_sameBank (relates_functionNameBody hc c _)
  | functionGroups => exact failsClean_of_sameBank (relates_functionGroupsBody hc c _)
  | setMux f => exact failsClean_bind (relates_groupAt hc c _) fun g => failsClean_muxBody c f.toNat g
  | confGet g w =>
    exact failsClean_bind (relates_groupAt hc c _) fun g => failsClean_bind (relates_resolveTag hc c g w.tag) fun t =>
      failsClean_of_sameBank (relates_bind hc (sameBank_readParam t.param t.field) fun _ => relates_respond hc _ _)
  | confSet x es =>
    exact failsClean_bind (relates_groupAt hc c _) fun g => failsClean_confSetGroup c g (hset x es rfl)
  | dumpGroup =>
    exact failsClean_bind (relates_groupAt hc c _) fun g => failsClean_of_sameBank (sameBank_dumpParams c g _)
  | applyMuxNamed => exact failsClean_applyMuxBody c _ _
  | applyConfNamed n es =>
    exact failsClean_bind (relates_namedGroup hc c n) fun g => failsClean_confSetGroup c g (happly n es rfl)
  | saveConfig =>
    exact failsClean_bind_completes (failsClean_of_sameBank (sameBank_saveBody c _)) fun _ => completes_respond _ _
  | restoreConfig | gpioDisableFree => exact failsClean_restoreBody c _
  | gpioRequestEnable => exact failsClean_gpioRequestBody c _

/-- The answer to a body that fails clean, where it is not OK, comes with the banks as they were. -/
theorem conclude_bank_of_failsClean {s : State} {x : M Reply} (hx : FailsClean x)
    (hst : (conclude (x s)).rsp.status ≠ .ok) : (conclude (x s)).bank = s.bank := by
  cases hrun : x s with
  | ok r t =>
    rw [hrun] at hst
    exact absurd rfl hst
  | error e t =>
    have hbank := hx s e t hrun
    cases e <;> exact hbank

/-- Settles O21: the loops of CLEAR_PARKED, SUSPEND and RESUME complete, and every other body fails before it writes. -/
theorem onlyEntryListsFailPartly : Obligations.OnlyEntryListsFailPartly := by
  intro i s t hs he hst hset happly
  rcases exec_cases he with ⟨-, rfl⟩ | ⟨-, -, -, rfl⟩ | ⟨-, -, rfl⟩ | ⟨-, ha, rfl⟩
  · rfl
  · rfl
  · rfl
  · by_cases hloop : i = .clearParked ∨ i = .suspend ∨ i = .resume
    · exact absurd (exec_loop_ok hs hloop ha he) hst
    · exact conclude_bank_of_failsClean (instrBody_failsClean hloop hset happly) hst

/-! ### Runs -/

/-- A delivered command, legal or not, ends in FAULTED exactly when its status latches, and keeps the host's moves. -/
theorem stepDelivered_faulted_iff {s t : State} (h : stepDelivered s = .next t) :
    (t.lc = .faulted ↔ t.rsp.status.latches = true) ∧ t.host = s.host := by
  unfold stepDelivered at h
  split at h
  · exact ⟨exec_lc_faulted_iff h, (commandsKeepConfiguration _ _ _ h).2.1⟩
  · cases h
    by_cases hl : s.lc = .faulted
    · rw [illegalCommand_faulted hl]
      exact ⟨iff_of_true hl rfl, rfl⟩
    · rw [illegalCommand_not_faulted hl]
      exact ⟨iff_of_false hl nofun, rfl⟩

/-- The moves of R205's runs: a command or a power loss, no reset. -/
def HostMove.InRun (m : HostMove) : Prop := (∃ c, m = .command c) ∨ ∃ draw, m = .powerLoss draw

/-- One more step of an observed run. -/
theorem observeSteps_succ {k : Nat} {s : State} {o : Observation} (h : observeSteps (k + 1) s = some o) :
    ∃ t o', step s = .next t ∧ observeSteps k t = some o' ∧ o =
      if (s.host.head?.map isCommand).getD false then { o' with responses := t.rsp :: o'.responses } else o' := by
  unfold observeSteps at h
  split at h
  · next t hs =>
    obtain ⟨o', ho, rfl⟩ := Option.map_eq_some_iff.mp h
    exact ⟨t, o', hs, ho, rfl⟩
  · cases h
  · cases h

/-- A run ends FAULTED exactly when it starts there with no command to answer, or a command answers a latching status. -/
theorem observeSteps_faulted_iff {hostMoves : List HostMove} {s : State} {o : Observation} (hh : s.host = hostMoves)
    (hm : ∀ m ∈ hostMoves, m.InRun) (h : observeSteps hostMoves.length s = some o) :
    o.lc = .faulted ↔ s.lc = .faulted ∨ o.faulted = true := by
  induction hostMoves generalizing s o with
  | nil =>
    cases h
    simp [Observation.faulted]
  | cons m rest ih =>
    obtain ⟨hmove, hrest⟩ := List.forall_mem_cons.mp hm
    obtain ⟨t, o', hstep, ho', rfl⟩ := observeSteps_succ h
    rcases hmove with ⟨c, rfl⟩ | ⟨draw, rfl⟩
    · rw [step_command hh] at hstep
      obtain ⟨hlatch, hhost⟩ := stepDelivered_faulted_iff hstep
      have hstays : s.lc = .faulted → t.lc = .faulted := fun hl => by
        rw [stepDelivered_faulted (s := (s.afterMove rest).deliver c) hl] at hstep
        cases hstep
        exact hl
      have hrun := ih hhost hrest ho'
      have hresponses : ({ o' with responses := t.rsp :: o'.responses } : Observation).faulted = true ↔
          t.lc = .faulted ∨ o'.faulted = true := by simp [Observation.faulted, hlatch]
      rw [hh]
      show o'.lc = .faulted ↔ _ ∨ ({ o' with responses := t.rsp :: o'.responses } : Observation).faulted = true
      rw [hresponses, hrun]
      exact ⟨.inr, fun h => h.elim (fun hl => .inl (hstays hl)) id⟩
    · rw [step_powerLoss hh] at hstep
      split at hstep
      · cases hstep
        rw [hh]
        exact ih (s := (s.afterMove rest).drawBanks draw) (o := o') rfl hrest ho'
      · cases hstep

/-- Settles O26: a latching status brings FAULTED, which no command and no power loss leaves. -/
theorem runFaultedIffEndsFaulted : Obligations.RunFaultedIffEndsFaulted := by
  intro s o hm hl h
  rw [observeSteps_faulted_iff rfl hm h]
  simp [hl]

end Sys2Proof.Machine
end

section
/-! PROOFS. Reset (70_reset_and_hazards.md): the reset event and power-on as moves of the host (R200 to R202), and the
invariant right after reset. -/

namespace Sys2Proof.Machine

/-! ### The two resets as moves of the host -/

theorem step_reset {s : State} {rest : List HostMove} (hh : s.host = .reset :: rest) :
    step s = .next (s.afterMove rest).resetEvent := by
  unfold step
  rw [hh]

theorem step_powerOn {s : State} {draw : List BankDraw} {rest : List HostMove} (hh : s.host = .powerOn draw :: rest) :
    step s = if drawMapped s.chip draw then .next ((s.afterMove rest).resetEvent.drawBanks draw)
      else .fault .bankMoveNotAdmitted := by
  unfold step
  rw [hh]

theorem drawMapped_iff {c : Chip} {draw : List BankDraw} :
    drawMapped c draw = true ↔ ∀ d ∈ draw, mapped c d.bank (4 * d.word) = true := by
  simp [drawMapped]

/-- Settles O11: both moves go through the reset event, and power-on draws the banks after it. -/
theorem resetEventRestartsBlock : Obligations.ResetEventRestartsBlock := by
  intro s rest draw
  constructor
  · intro hh
    exact ⟨_, step_reset hh, by simp⟩
  · intro hh hdraw
    exact ⟨_, (step_powerOn hh).trans (if_pos (drawMapped_iff.mpr hdraw)), by simp⟩

/-! ### The invariant at reset -/

/-- A block just booted has no fault, full-sized buffers and a table still to be checked, so each clause holds of it. -/
theorem inv_boot (c : Chip) : (State.boot c).Inv where
  bankWf := wf_boot c
  latch := ⟨nofun, nofun⟩
  backupLength := List.length_replicate
  pinbakLength := List.length_replicate
  pinsavedLength := List.length_replicate
  fgLength := List.length_replicate
  table := by simp [State.Initialised, State.boot]
  index := by simp [State.Initialised, State.boot]

/-- Settles O23: reset is the boot of one chip, and a draw keeps the invariant. -/
theorem invAtReset : Obligations.InvAtReset :=
  ⟨inv_boot _, fun c draw => (inv_boot c).drawBanks draw⟩

end Sys2Proof.Machine
end
